-- ==== Sys2Proof/Word.lean ====
section
/-! DEFINITION. The word types of DQHUF (spec/00_scope.md R7) and nothing else. -/

namespace Sys2Proof

/-- One byte of the ROM or of a table RAM. -/
abbrev Byte := BitVec 8

/-- A CPU address, bank in bits 23:16 and offset in bits 15:0 (R64; `CPU_ADDR_BITS` of R7). -/
abbrev CpuAddr := BitVec 24

/-- A ROM linear offset (`ROM_ADDR_BITS` of R7). -/
abbrev RomAddr := BitVec 22

/-- A character code (R120; `CODE_BITS` of R7). -/
abbrev Code := BitVec 16

/-- A message id (`ID_BITS` of R7). -/
abbrev MessageId := BitVec 16

/-- A tree entry, or a node index into both branch tables (`NODE_BITS` of R7). -/
abbrev TreeWord := BitVec 16

end Sys2Proof
end

