-- ==== Sys2Proof/Config.lean ====
section
/-! DEFINITION. What an implementation of DQHUF fixes (spec/00_scope.md R7 and the open parameters of
spec/92_eei_decisions.md). The machine has no free value (spec/93_implementation_defined.md, part 1): nothing here is
opaque. -/

namespace Sys2Proof

/-- The address space of the four table addresses (R66, D10). -/
inductive TableSpace where
  /-- table addresses are CPU addresses, read through `from_cpu` (the default) -/
  | cpu
  /-- table addresses are ROM linear offsets, used as they stand -/
  | rom
deriving DecidableEq, Repr

/-- The implementation parameters a model takes as arguments (R7), with the defaults of R7. -/
structure Params where
  /-- `TABLE_ADDR_SPACE` -/
  tableSpace : TableSpace := .cpu
  /-- `DELIM_MAX`, 4 and at most 16 (D22) -/
  delimMax : Nat := 4
  /-- `HIROM_BASE`. PRESUMED (the spec's G1, log 13): unsafe. -/
  hiromBase : BitVec 24 := 0xC00000#24
  /-- `HIROM_MASK`. PRESUMED (the spec's G2, log 13): unsafe. -/
  hiromMask : BitVec 24 := 0x3FFFFF#24
  /-- `LOROM_BANK_MASK`. PRESUMED (the spec's G4, log 13): unsafe. -/
  loromBankMask : BitVec 8 := 0x7F#8
deriving DecidableEq, Repr

/-- The parameters at the defaults of R7. -/
def Params.standard : Params := {}

/-- The register map has room for 1 to 16 delimiters (R7, D22). -/
def Params.wf (p : Params) : Bool := decide (1 ≤ p.delimMax ∧ p.delimMax ≤ 16)

/-- The largest `ROM_SIZE` (R7). -/
def maxRomSize : Nat := 0x400000

/-- The number of bit positions of the CPU space: no walk takes more steps (R194). -/
def walkBound : Nat := 8 * 2 ^ 24

/-- The two candidate header offsets, in the order they are scanned (R117, R163). -/
def headerCandidates : List Nat := [0x7FC0, 0xFFC0]

end Sys2Proof
end

