-- ==== Sys2Proof/Syntax.lean ====
section
/-! DEFINITION. The syntax of DQHUF: registers, response codes, the words the block's readers see, and the instructions,
one constructor for each row of spec/opcode_table.json. -/

namespace Sys2Proof

/-- The decoder variant (R2), the value of register `VARIANT` (R21). -/
inductive Variant where
  /-- Variant W, `VARIANT = 0` -/
  | varW
  /-- Variant V, `VARIANT = 1` -/
  | varV
deriving DecidableEq, Repr

/-- The mapper variant (R2), the value of register `MAPPER` (R21). -/
inductive Mapper where
  /-- LoROM, `MAPPER = 0` -/
  | lorom
  /-- HiROM, `MAPPER = 1` -/
  | hirom
deriving DecidableEq, Repr

/-- The configuration registers (R21). `delim i` exists only for `i` below `DELIM_MAX`. -/
inductive CfgReg where
  | mapper
  | variant
  | addrGroup
  | addrShiftbit
  | addrMessage
  | addrOff
  | addrOn
  | root
  | readSize
  | decodeMask
  | idFirst
  | idLast
  | delimCount
  | delim (i : Fin 16)
deriving DecidableEq, Repr

/-- Every register `RDREG` can name (R104): the configuration registers and the read-only ones. -/
inductive Reg where
  | cfg (r : CfgReg)
  | status
  | bankSize
  | curAddr
  | curShift
  | remain
  | faultInfo
deriving DecidableEq, Repr

/-- One access of a configuration register `n` bits wide over the register port: what `RDREG` does with it, or what
`WRCFG` does with it. -/
inductive RegOp (n : Nat) where
  | read
  | write (value : BitVec n)
deriving DecidableEq, Repr

/-- The response codes that are ever produced (R251). -/
inductive RespCode where
  /-- 0x0 `OK` -/
  | ok
  /-- 0x1 `E_RANGE` -/
  | range
  /-- 0x2 `E_HEADER` -/
  | header
  /-- 0x3 `E_ASSERT` -/
  | assertion
  /-- 0x4 `E_IO` -/
  | io
  /-- 0x5 `E_ROM_BOUNDS` -/
  | romBounds
  /-- 0x6 `E_ADDR_OVF` -/
  | addrOvf
  /-- 0x7 `E_BAD_SHIFT` -/
  | badShift
  /-- 0x8 `E_STATE` -/
  | state
  /-- 0x9 `E_ILLEGAL` -/
  | illegal
  /-- 0xA `E_FAULTED` -/
  | faulted
  /-- 0xF `S_EXHAUSTED` -/
  | exhausted
deriving DecidableEq, Repr

/-- A word as one of the block's readers sees it. The host presents `command` words only (R91); the others are the words
of the opcode table's register rows and data rows, each with the reader that gives its bits their meaning
(DESIGN CHOICE, log 8 and log 9: unsafe for a claim about the host's port that does not say that only commands are
presented). -/
inductive PortWord where
  /-- the 40-bit word of the command port (R91) -/
  | command (w : BitVec 40)
  /-- a register number selected for reading (R104) -/
  | regRead (regno : BitVec 8)
  /-- a register number and a value selected for writing (R102, R104) -/
  | regWrite (regno : BitVec 8) (value : BitVec 24)
  /-- a tree entry, read by the walk of a variant (R110 to R112) -/
  | treeEntry (v : Variant) (w : TreeWord)
  /-- a group-index record as its little-endian word (R114) -/
  | groupRecord (w : BitVec 24)
  /-- a message id, split by a variant (R116) -/
  | messageId (v : Variant) (w : MessageId)
  /-- the header's ROM-makeup byte (R117) -/
  | makeupByte (w : Byte)
  /-- the header's checksum pair, the first word in bits 15:0 (R117) -/
  | checkPair (w : BitVec 32)
  /-- an entry of the shift-bit array (R115) -/
  | shiftEntry (w : Byte)
  /-- a response record, code, r0, r1, r2 from high to low (R98 and the table's row RESPONSE) -/
  | responseRecord (w : BitVec 52)
deriving DecidableEq, Repr

/-- The instructions: one constructor for each row of spec/opcode_table.json, in its order. -/
inductive Instr where
  -- the commands (R93)
  | reset
  | detect
  | rom2cpu (rom : RomAddr)
  | cpu2rom (cpu : CpuAddr)
  | incaddr (cpu : CpuAddr)
  | setup
  | locate (id : MessageId)
  | decchar (address : CpuAddr) (shift : Byte)
  | enum (first last : MessageId)
  | next
  | wrcfg (r : CfgReg) (value : BitVec 24)
  | rdreg (r : Reg)
  -- every word that is nothing else (R95, R96, R102, R104)
  | illegal (w : PortWord)
  -- one access of one configuration register (R21)
  | mapper (op : RegOp 1)
  | variant (op : RegOp 1)
  | addrGroup (op : RegOp 24)
  | addrShiftbit (op : RegOp 24)
  | addrMessage (op : RegOp 24)
  | addrOff (op : RegOp 24)
  | addrOn (op : RegOp 24)
  | root (op : RegOp 16)
  | readSize (op : RegOp 2)
  | decodeMask (op : RegOp 16)
  | idFirst (op : RegOp 16)
  | idLast (op : RegOp 16)
  | delimCount (op : RegOp 5)
  | delim (i : Fin 16) (op : RegOp 16)
  -- one read of one read-only register (R23, R25, R29, R258)
  | status
  | bankSize
  | curAddr
  | curShift
  | remain
  | faultInfo
  -- the data formats (R111, R112, R114, R116, R117, R115, R98)
  | nodeWLeaf (code : BitVec 15)
  | nodeWBranch (next : BitVec 15)
  | nodeVLeaf (code : BitVec 15)
  | nodeVBranch (ignored : BitVec 2) (number : BitVec 13)
  | grouprec (off : BitVec 21) (idx : BitVec 3)
  | msgidW (group : BitVec 13) (count : BitVec 3)
  | msgidV (group : BitVec 12) (count : BitVec 4)
  | headerMakeup (ignored : BitVec 7) (hirom : BitVec 1)
  | headerCheckpair (wordB wordA : BitVec 16)
  | shiftbit (mask : Byte)
  | response (code : RespCode) (r0 : BitVec 24) (r1 : BitVec 8) (r2 : BitVec 16)
deriving DecidableEq, Repr

end Sys2Proof
end

