-- ==== Sys2Proof/Machine/Operands.lean ====
section
/-! DEFINITION. The operand forms of DQHUF: register numbers, widths and legal values (R21, R102, R104), response codes
(R251), and the fields of the data formats (R111, R112, R114 to R117). -/

namespace Sys2Proof

/-! ### Registers -/

/-- The number of a configuration register (R21). -/
def CfgReg.number : CfgReg → BitVec 8
  | .mapper => 0x00#8
  | .variant => 0x01#8
  | .addrGroup => 0x02#8
  | .addrShiftbit => 0x03#8
  | .addrMessage => 0x04#8
  | .addrOff => 0x05#8
  | .addrOn => 0x06#8
  | .root => 0x07#8
  | .readSize => 0x08#8
  | .decodeMask => 0x09#8
  | .idFirst => 0x0A#8
  | .idLast => 0x0B#8
  | .delimCount => 0x0F#8
  | .delim i => BitVec.ofNat 8 (0x10 + i.val)

/-- The width in bits of a configuration register (R21). -/
def CfgReg.width : CfgReg → Nat
  | .mapper => 1
  | .variant => 1
  | .addrGroup => 24
  | .addrShiftbit => 24
  | .addrMessage => 24
  | .addrOff => 24
  | .addrOn => 24
  | .root => 16
  | .readSize => 2
  | .decodeMask => 16
  | .idFirst => 16
  | .idLast => 16
  | .delimCount => 5
  | .delim _ => 16

/-- The register exists under these parameters: `DELIM[i]` only for `i` below `DELIM_MAX` (R21, R104). -/
def CfgReg.present (p : Params) : CfgReg → Bool
  | .delim i => decide (i.val < p.delimMax)
  | _ => true

/-- The configuration register with a number, none where the number is reserved (R104). -/
def CfgReg.ofNumber (p : Params) (n : BitVec 8) : Option CfgReg :=
  match n.toNat with
  | 0x00 => some .mapper
  | 0x01 => some .variant
  | 0x02 => some .addrGroup
  | 0x03 => some .addrShiftbit
  | 0x04 => some .addrMessage
  | 0x05 => some .addrOff
  | 0x06 => some .addrOn
  | 0x07 => some .root
  | 0x08 => some .readSize
  | 0x09 => some .decodeMask
  | 0x0A => some .idFirst
  | 0x0B => some .idLast
  | 0x0F => some .delimCount
  | k =>
    if h : 0x10 ≤ k ∧ k < 0x20 then
      if k - 0x10 < p.delimMax then some (.delim ⟨k - 0x10, by omega⟩) else none
    else none

/-- The number of a register `RDREG` can name (R104). -/
def Reg.number : Reg → BitVec 8
  | .cfg r => r.number
  | .status => 0x20#8
  | .bankSize => 0x21#8
  | .curAddr => 0x22#8
  | .curShift => 0x23#8
  | .remain => 0x24#8
  | .faultInfo => 0x25#8

/-- The register exists under these parameters. -/
def Reg.present (p : Params) : Reg → Bool
  | .cfg r => r.present p
  | _ => true

/-- The readable register with a number, none where the number is reserved (R104). -/
def Reg.ofNumber (p : Params) (n : BitVec 8) : Option Reg :=
  match n.toNat with
  | 0x20 => some .status
  | 0x21 => some .bankSize
  | 0x22 => some .curAddr
  | 0x23 => some .curShift
  | 0x24 => some .remain
  | 0x25 => some .faultInfo
  | _ => (CfgReg.ofNumber p n).map .cfg

/-- The value restrictions beyond the width: `READ_SIZE` is 1 or 2, `DELIM_COUNT` is 1 to `DELIM_MAX` (R102). -/
def CfgReg.inRange (p : Params) (r : CfgReg) (value : Nat) : Bool :=
  match r with
  | .readSize => decide (value = 1 ∨ value = 2)
  | .delimCount => decide (1 ≤ value ∧ value ≤ p.delimMax)
  | _ => true

/-- A `WRCFG` of this register with this value is legal (R102, R104): the register exists, the value fits its width and
is in range. -/
def CfgReg.legal (p : Params) (r : CfgReg) (value : BitVec 24) : Bool :=
  r.present p && decide (value.toNat < 2 ^ r.width) && r.inRange p value.toNat

/-- A register-port access of a configuration register is legal: any read of a register that exists, a write as R102
says. -/
def RegOp.legal {n : Nat} (p : Params) (r : CfgReg) : RegOp n → Bool
  | .read => r.present p
  | .write value => r.legal p (value.setWidth 24)

/-- The decoder variant a value of `VARIANT` names (R21). -/
def Variant.ofBit (b : BitVec 1) : Variant := if b = 1#1 then .varV else .varW

/-- The mapper variant a value of `MAPPER` names (R21). -/
def Mapper.ofBit (b : BitVec 1) : Mapper := if b = 1#1 then .hirom else .lorom

/-! ### Response codes -/

/-- The 4-bit code of R251. -/
def RespCode.bits : RespCode → BitVec 4
  | .ok => 0x0#4
  | .range => 0x1#4
  | .header => 0x2#4
  | .assertion => 0x3#4
  | .io => 0x4#4
  | .romBounds => 0x5#4
  | .addrOvf => 0x6#4
  | .badShift => 0x7#4
  | .state => 0x8#4
  | .illegal => 0x9#4
  | .faulted => 0xA#4
  | .exhausted => 0xF#4

/-- The code with these bits, none for the reserved 0xB to 0xE (R251). -/
def RespCode.ofBits (b : BitVec 4) : Option RespCode :=
  match b.toNat with
  | 0x0 => some .ok
  | 0x1 => some .range
  | 0x2 => some .header
  | 0x3 => some .assertion
  | 0x4 => some .io
  | 0x5 => some .romBounds
  | 0x6 => some .addrOvf
  | 0x7 => some .badShift
  | 0x8 => some .state
  | 0x9 => some .illegal
  | 0xA => some .faulted
  | 0xF => some .exhausted
  | _ => none

/-! ### Command words -/

/-- The match and mask of the twelve command rows of spec/opcode_table.json, in its order (R92, R93, R95). -/
def commandRows : List (BitVec 40 × BitVec 40) :=
  [ (0x0100000000#40, 0xFFFFFFFFFF#40),
    (0x0200000000#40, 0xFFFFFFFFFF#40),
    (0x0300000000#40, 0xFFFFC00000#40),
    (0x0400000000#40, 0xFFFF000000#40),
    (0x0500000000#40, 0xFFFF000000#40),
    (0x0600000000#40, 0xFFFFFFFFFF#40),
    (0x0700000000#40, 0xFFFFFF0000#40),
    (0x0800000000#40, 0xFF00000000#40),
    (0x0900000000#40, 0xFF00000000#40),
    (0x0A00000000#40, 0xFFFFFFFFFF#40),
    (0x0B00000000#40, 0xFF00000000#40),
    (0x0C00000000#40, 0xFF00FFFFFF#40) ]

/-- `word[39:32]` (R91). -/
def opcodeOf (w : BitVec 40) : BitVec 8 := w.extractLsb' 32 8

/-- `operand[31:24]` (formats W and R of R92). -/
def regnoOf (w : BitVec 40) : BitVec 8 := w.extractLsb' 24 8

/-- `operand[23:0]` (formats AC and W of R92). -/
def valueOf (w : BitVec 40) : BitVec 24 := w.extractLsb' 0 24

/-- The register number and the value of a `WRCFG` word, the register number of an `RDREG` word, are legal
(R102, R104); other words have no such condition. -/
def commandOperandsLegal (p : Params) (w : BitVec 40) : Bool :=
  if opcodeOf w = 0x0B#8 then
    match CfgReg.ofNumber p (regnoOf w) with
    | some r => r.legal p (valueOf w)
    | none => false
  else if opcodeOf w = 0x0C#8 then (Reg.ofNumber p (regnoOf w)).isSome
  else true

/-- The 40-bit word is a command: some row of the table matches it and its operands are legal (R95, R96, R102, R104). -/
def isCommand (p : Params) (w : BitVec 40) : Bool :=
  commandRows.any (fun row => w &&& row.2 == row.1) && commandOperandsLegal p w

/-- A word of one of the block's readers that stands for something: a command, an access of an existing register with a
legal value, a response code that is not reserved; every word of the other formats. -/
def PortWord.meaningful (p : Params) : PortWord → Bool
  | .command w => isCommand p w
  | .regRead n => (Reg.ofNumber p n).isSome
  | .regWrite n value =>
    match CfgReg.ofNumber p n with
    | some r => r.legal p value
    | none => false
  | .responseRecord w => (RespCode.ofBits (w.extractLsb' 48 4)).isSome
  | _ => true

/-! ### Data formats -/

/-- Leaf predicate (R190, R111, R112): bit 15 clear in Variant W, set in Variant V. -/
def isLeaf (v : Variant) (entry : TreeWord) : Bool :=
  match v with
  | .varW => !entry.getLsbD 15
  | .varV => entry.getLsbD 15

/-- Next-node transform of a branch entry (R191): `entry & 0x7FFF` in Variant W, `(entry & 0x1FFF) << 1` in Variant V. -/
def nextNode (v : Variant) (entry : TreeWord) : TreeWord :=
  match v with
  | .varW => entry &&& 0x7FFF#16
  | .varV => (entry &&& 0x1FFF#16) <<< 1

/-- The code of a leaf entry (R190): `entry & cfg[DECODE_MASK]`. -/
def leafCode (entry : TreeWord) (decodeMask : BitVec 16) : Code := entry &&& decodeMask

/-- `Decompose(id) -> (count, group)` (R220 to R222, R116). -/
def decompose (v : Variant) (id : MessageId) : BitVec 4 × BitVec 15 :=
  match v with
  | .varW => (BitVec.ofNat 4 (id.toNat % 8), BitVec.ofNat 15 (id.toNat / 8 * 3))
  | .varV => (BitVec.ofNat 4 (id.toNat % 16), BitVec.ofNat 15 (id.toNat / 16 * 3))

/-- A shift is a single-bit mask (R195). -/
def singleBit (s : Byte) : Bool :=
  [0x01#8, 0x02#8, 0x04#8, 0x08#8, 0x10#8, 0x20#8, 0x40#8, 0x80#8].contains s

/-- A header is valid when the two words of its pair XOR to 0xFFFF (R117). -/
def pairValid (a b : BitVec 16) : Bool := a ^^^ b == 0xFFFF#16

/-- The `MAPPER` value a ROM-makeup byte selects: its bit 0 (R117, R161). -/
def makeupMapper (b : Byte) : BitVec 1 := b.extractLsb' 0 1

/-- `check_header_mapper_byte` of a mapper variant (R154, R158, R161). -/
def checkHeaderMapperByte (m : Mapper) (b : Byte) : Bool := Mapper.ofBit (makeupMapper b) == m

end Sys2Proof
end

