-- ==== Sys2Proof/WellFormed.lean ====
section
/-! DEFINITION. Well-formedness of an instruction under the parameters: the operands the encoding admits and no others
(R102, R104, R95, R96). -/

namespace Sys2Proof

/-- An instruction is well formed when its words exist: a `WRCFG` with a legal register and value, an access of a
register that exists, an `ILLEGAL` whose word stands for nothing else. Every other constructor admits every operand of
its types. -/
def Instr.wf (p : Params) : Instr → Bool
  | .wrcfg r value => r.legal p value
  | .rdreg r => r.present p
  | .illegal w => !w.meaningful p
  | .readSize op => op.legal p .readSize
  | .delimCount op => op.legal p .delimCount
  | .delim i op => op.legal p (.delim i)
  | .reset => true
  | .detect => true
  | .rom2cpu _ => true
  | .cpu2rom _ => true
  | .incaddr _ => true
  | .setup => true
  | .locate _ => true
  | .decchar _ _ => true
  | .enum _ _ => true
  | .next => true
  | .mapper _ => true
  | .variant _ => true
  | .addrGroup _ => true
  | .addrShiftbit _ => true
  | .addrMessage _ => true
  | .addrOff _ => true
  | .addrOn _ => true
  | .root _ => true
  | .decodeMask _ => true
  | .idFirst _ => true
  | .idLast _ => true
  | .status => true
  | .bankSize => true
  | .curAddr => true
  | .curShift => true
  | .remain => true
  | .faultInfo => true
  | .nodeWLeaf _ => true
  | .nodeWBranch _ => true
  | .nodeVLeaf _ => true
  | .nodeVBranch _ _ => true
  | .grouprec _ _ => true
  | .msgidW _ _ => true
  | .msgidV _ _ => true
  | .headerMakeup _ _ => true
  | .headerCheckpair _ _ => true
  | .shiftbit _ => true
  | .response _ _ _ _ => true

end Sys2Proof
end

