-- ==== Sys2Proof/Decode.lean ====
section
/-! DEFINITION. The decoder, total on every word of every reader, and the encoder (spec/30_encoding.md R91 to R96, R102,
R104; data formats R110 to R117; response record R98). A word that is no command, no legal register access and no
response record is rejected by name: it decodes to `ILLEGAL`. -/

namespace Sys2Proof

/-! ### Decoding -/

/-- The command a 40-bit word is (R92, R93), `ILLEGAL` where it is none (R95, R96, R102, R104). -/
def decodeCommand (p : Params) (w : BitVec 40) : Instr :=
  let bad := Instr.illegal (.command w)
  let operand := w.extractLsb' 0 32
  match (opcodeOf w).toNat with
  | 0x01 => if operand = 0#32 then .reset else bad
  | 0x02 => if operand = 0#32 then .detect else bad
  | 0x03 => if w.extractLsb' 22 10 = 0#10 then .rom2cpu (w.extractLsb' 0 22) else bad
  | 0x04 => if w.extractLsb' 24 8 = 0#8 then .cpu2rom (w.extractLsb' 0 24) else bad
  | 0x05 => if w.extractLsb' 24 8 = 0#8 then .incaddr (w.extractLsb' 0 24) else bad
  | 0x06 => if operand = 0#32 then .setup else bad
  | 0x07 => if w.extractLsb' 16 16 = 0#16 then .locate (w.extractLsb' 0 16) else bad
  | 0x08 => .decchar (w.extractLsb' 8 24) (w.extractLsb' 0 8)
  | 0x09 => .enum (w.extractLsb' 16 16) (w.extractLsb' 0 16)
  | 0x0A => if operand = 0#32 then .next else bad
  | 0x0B =>
    match CfgReg.ofNumber p (regnoOf w) with
    | some r => if r.legal p (valueOf w) then .wrcfg r (valueOf w) else bad
    | none => bad
  | 0x0C =>
    if valueOf w = 0#24 then
      match Reg.ofNumber p (regnoOf w) with
      | some r => .rdreg r
      | none => bad
    else bad
  | _ => bad

/-- The register row a register is. -/
def readOf : Reg → Instr
  | .cfg .mapper => .mapper .read
  | .cfg .variant => .variant .read
  | .cfg .addrGroup => .addrGroup .read
  | .cfg .addrShiftbit => .addrShiftbit .read
  | .cfg .addrMessage => .addrMessage .read
  | .cfg .addrOff => .addrOff .read
  | .cfg .addrOn => .addrOn .read
  | .cfg .root => .root .read
  | .cfg .readSize => .readSize .read
  | .cfg .decodeMask => .decodeMask .read
  | .cfg .idFirst => .idFirst .read
  | .cfg .idLast => .idLast .read
  | .cfg .delimCount => .delimCount .read
  | .cfg (.delim i) => .delim i .read
  | .status => .status
  | .bankSize => .bankSize
  | .curAddr => .curAddr
  | .curShift => .curShift
  | .remain => .remain
  | .faultInfo => .faultInfo

/-- The register row of a write, with the value at the register's width. -/
def writeOf (r : CfgReg) (value : BitVec 24) : Instr :=
  match r with
  | .mapper => .mapper (.write (value.setWidth 1))
  | .variant => .variant (.write (value.setWidth 1))
  | .addrGroup => .addrGroup (.write value)
  | .addrShiftbit => .addrShiftbit (.write value)
  | .addrMessage => .addrMessage (.write value)
  | .addrOff => .addrOff (.write value)
  | .addrOn => .addrOn (.write value)
  | .root => .root (.write (value.setWidth 16))
  | .readSize => .readSize (.write (value.setWidth 2))
  | .decodeMask => .decodeMask (.write (value.setWidth 16))
  | .idFirst => .idFirst (.write (value.setWidth 16))
  | .idLast => .idLast (.write (value.setWidth 16))
  | .delimCount => .delimCount (.write (value.setWidth 5))
  | .delim i => .delim i (.write (value.setWidth 16))

/-- A tree entry as the walk of a variant reads it (R110 to R112). -/
def decodeEntry (v : Variant) (w : TreeWord) : Instr :=
  match v with
  | .varW => if w.getLsbD 15 then .nodeWBranch (w.extractLsb' 0 15) else .nodeWLeaf (w.extractLsb' 0 15)
  | .varV =>
    if w.getLsbD 15 then .nodeVLeaf (w.extractLsb' 0 15)
    else .nodeVBranch (w.extractLsb' 13 2) (w.extractLsb' 0 13)

/-- A message id as a variant splits it (R116). -/
def decodeMessageId (v : Variant) (w : MessageId) : Instr :=
  match v with
  | .varW => .msgidW (w.extractLsb' 3 13) (w.extractLsb' 0 3)
  | .varV => .msgidV (w.extractLsb' 4 12) (w.extractLsb' 0 4)

/-- The instruction a word of one of the block's readers is. -/
def decode (p : Params) (w : PortWord) : Instr :=
  match w with
  | .command c => decodeCommand p c
  | .regRead n =>
    match Reg.ofNumber p n with
    | some r => readOf r
    | none => .illegal w
  | .regWrite n value =>
    match CfgReg.ofNumber p n with
    | some r => if r.legal p value then writeOf r value else .illegal w
    | none => .illegal w
  | .treeEntry v e => decodeEntry v e
  | .groupRecord r => .grouprec (r.extractLsb' 3 21) (r.extractLsb' 0 3)
  | .messageId v id => decodeMessageId v id
  | .makeupByte b => .headerMakeup (b.extractLsb' 1 7) (b.extractLsb' 0 1)
  | .checkPair b => .headerCheckpair (b.extractLsb' 16 16) (b.extractLsb' 0 16)
  | .shiftEntry b => .shiftbit b
  | .responseRecord r =>
    match RespCode.ofBits (r.extractLsb' 48 4) with
    | some c => .response c (r.extractLsb' 24 24) (r.extractLsb' 16 8) (r.extractLsb' 0 16)
    | none => .illegal w

/-! ### Encoding -/

/-- The 40-bit word with an opcode and an operand (R91). -/
def commandWord (opcode : BitVec 8) (operand : BitVec 32) : PortWord := .command (opcode ++ operand : BitVec 40)

/-- The word of a register-port access (R104). -/
def regWord {n : Nat} (r : CfgReg) : RegOp n → PortWord
  | .read => .regRead r.number
  | .write value => .regWrite r.number (value.setWidth 24)

/-- The word of an instruction, from the encoding tables (R92, R93, R98, R104, R111, R112, R114 to R117). -/
def encode : Instr → PortWord
  | .reset => commandWord 0x01#8 0#32
  | .detect => commandWord 0x02#8 0#32
  | .rom2cpu rom => commandWord 0x03#8 (0#10 ++ rom)
  | .cpu2rom cpu => commandWord 0x04#8 (0#8 ++ cpu)
  | .incaddr cpu => commandWord 0x05#8 (0#8 ++ cpu)
  | .setup => commandWord 0x06#8 0#32
  | .locate id => commandWord 0x07#8 (0#16 ++ id)
  | .decchar address shift => commandWord 0x08#8 (address ++ shift)
  | .enum first last => commandWord 0x09#8 (first ++ last)
  | .next => commandWord 0x0A#8 0#32
  | .wrcfg r value => commandWord 0x0B#8 (r.number ++ value)
  | .rdreg r => commandWord 0x0C#8 (r.number ++ 0#24)
  | .illegal w => w
  | .mapper op => regWord .mapper op
  | .variant op => regWord .variant op
  | .addrGroup op => regWord .addrGroup op
  | .addrShiftbit op => regWord .addrShiftbit op
  | .addrMessage op => regWord .addrMessage op
  | .addrOff op => regWord .addrOff op
  | .addrOn op => regWord .addrOn op
  | .root op => regWord .root op
  | .readSize op => regWord .readSize op
  | .decodeMask op => regWord .decodeMask op
  | .idFirst op => regWord .idFirst op
  | .idLast op => regWord .idLast op
  | .delimCount op => regWord .delimCount op
  | .delim i op => regWord (.delim i) op
  | .status => .regRead Reg.status.number
  | .bankSize => .regRead Reg.bankSize.number
  | .curAddr => .regRead Reg.curAddr.number
  | .curShift => .regRead Reg.curShift.number
  | .remain => .regRead Reg.remain.number
  | .faultInfo => .regRead Reg.faultInfo.number
  | .nodeWLeaf code => .treeEntry .varW (0#1 ++ code)
  | .nodeWBranch next => .treeEntry .varW (1#1 ++ next)
  | .nodeVLeaf code => .treeEntry .varV (1#1 ++ code)
  | .nodeVBranch ignored number => .treeEntry .varV (0#1 ++ (ignored ++ number))
  | .grouprec off idx => .groupRecord (off ++ idx)
  | .msgidW group count => .messageId .varW (group ++ count)
  | .msgidV group count => .messageId .varV (group ++ count)
  | .headerMakeup ignored hirom => .makeupByte (ignored ++ hirom)
  | .headerCheckpair wordB wordA => .checkPair (wordB ++ wordA)
  | .shiftbit mask => .shiftEntry mask
  | .response code r0 r1 r2 => .responseRecord (code.bits ++ (r0 ++ (r1 ++ r2)))

/-! ### The opcode table's words -/

/-- The word a row of spec/opcode_table.json of `nbits` bits stands for when its bits are `w`. The table's rows tell their
reader by their width, but for two: a 16-bit row is read as a tree entry of Variant W (a Variant V entry and a message id
have the same bits), an 8-bit row as a register number (a makeup byte and a shift-bit entry have the same bits).
DESIGN CHOICE, log 10: safe, it names words and gives none a meaning. -/
def PortWord.ofTableRow (nbits w : Nat) : PortWord :=
  match nbits with
  | 8 => .regRead (BitVec.ofNat 8 w)
  | 16 => .treeEntry .varW (BitVec.ofNat 16 w)
  | 24 => .groupRecord (BitVec.ofNat 24 w)
  | 32 => .checkPair (BitVec.ofNat 32 w)
  | 52 => .responseRecord (BitVec.ofNat 52 w)
  | 56 => .responseRecord (BitVec.ofNat 52 w)
  | _ => .command (BitVec.ofNat 40 w)

/-- What the decoder gives for a row of the opcode table, at the default parameters. Total: a word that is nothing else
is the table's row `ILLEGAL`. -/
def decodeTableWord (nbits w : Nat) : Option Instr := some (decode Params.standard (PortWord.ofTableRow nbits w))

end Sys2Proof
end

