-- ==== Sys2Proof/Machine/State.lean ====
section
/-! DEFINITION. The state of DQHUF as plain data (spec/10_state.md), what stops a step, and reset. -/

namespace Sys2Proof.Machine

/-! ### What stops a step -/

/-- The reasons a step stops with a fault. The errors of spec/60_exceptions.md are NOT here: an error is a response, and
the block goes on (R254, R255), so it is a next state. -/
inductive Fault where
  /-- Raised by the walk of a character or of a message that has not ended within the bound of R194. Safe: it is raised
  only in a state no run reaches, one whose `CUR_SHIFT` is no single-bit mask (log 11). -/
  | endlessWalk
deriving DecidableEq, Repr

/-- The reasons a step is refused. -/
inductive Refusal where
  /-- Raised by an arm of `exec` for an instruction that has no meaning yet. Safe: no arm raises it. -/
  | notModelled (mnemonic : String)
deriving DecidableEq, Repr

/-! ### The errors of the block -/

/-- The session-fatal errors (R251, R255). -/
inductive SessionError where
  /-- `E_HEADER` (R263) -/
  | header
  /-- `E_ASSERT` (R264) -/
  | assertion
  /-- `E_IO` (R265) -/
  | io
  /-- `E_ROM_BOUNDS` (R266) -/
  | romBounds
  /-- `E_ADDR_OVF` (R267) -/
  | addrOvf
  /-- `E_BAD_SHIFT` (R273) -/
  | badShift
deriving DecidableEq, Repr

/-- The call-fatal errors (R251, R254). -/
inductive CallError where
  /-- `E_RANGE` (R261) -/
  | range
  /-- `E_STATE` (R262) -/
  | state
  /-- `E_ILLEGAL` (R269) -/
  | illegal
  /-- `E_FAULTED` (R257, R269) -/
  | faulted
deriving DecidableEq, Repr

/-- Why a command stops at the point where its pseudocode says `raise` (R256). -/
inductive Abort where
  /-- a call-fatal error -/
  | call (e : CallError)
  /-- a session-fatal error with the value `FAULT_INFO` takes -/
  | session (e : SessionError) (info : BitVec 24)
  /-- the walk did not end within the bound of R194 -/
  | endless
deriving DecidableEq, Repr

/-! ### Registers and tables -/

/-- The configuration registers (R21). `none` is `written[n] = 0`, the register holds no value (R22; log 4). -/
structure Cfg where
  /-- `MAPPER` -/
  mapper : Option (BitVec 1) := none
  /-- `VARIANT` -/
  variant : Option (BitVec 1) := none
  /-- `ADDR_GROUP` -/
  addrGroup : Option (BitVec 24) := none
  /-- `ADDR_SHIFTBIT` -/
  addrShiftbit : Option (BitVec 24) := none
  /-- `ADDR_MESSAGE` -/
  addrMessage : Option (BitVec 24) := none
  /-- `ADDR_OFF` -/
  addrOff : Option (BitVec 24) := none
  /-- `ADDR_ON` -/
  addrOn : Option (BitVec 24) := none
  /-- `ROOT` -/
  root : Option (BitVec 16) := none
  /-- `READ_SIZE` -/
  readSize : Option (BitVec 2) := none
  /-- `DECODE_MASK` -/
  decodeMask : Option (BitVec 16) := none
  /-- `ID_FIRST` -/
  idFirst : Option (BitVec 16) := none
  /-- `ID_LAST` -/
  idLast : Option (BitVec 16) := none
  /-- `DELIM_COUNT` -/
  delimCount : Option (BitVec 5) := none
  /-- `DELIM[i]`, the sixteen places of the register map; the first `DELIM_MAX` exist -/
  delims : Vector (Option (BitVec 16)) 16 := Vector.replicate 16 none
deriving DecidableEq, Repr

/-- A cursor (R26): the CPU address of the byte being read and the mask of its next bit. -/
structure Cursor where
  address : CpuAddr
  shift : Byte
deriving DecidableEq, Repr

/-- The three table RAMs (R24), which hold a value all together or not at all. -/
structure Tables where
  /-- `SHIFTBIT` -/
  shiftbit : Vector Byte 8
  /-- `OFF_TAB` -/
  off : List Byte
  /-- `ON_TAB` -/
  on : List Byte
deriving DecidableEq, Repr

/-- The working registers (R23), which hold a value all together or not at all: `CUR_ADDR` and `CUR_SHIFT` in `cursor`,
`REMAIN`. -/
structure EnumPos where
  cursor : Cursor
  /-- `REMAIN` -/
  remain : BitVec 17
deriving DecidableEq, Repr

/-- The record of the session-fatal error (R255): `FAULT_CODE` and `FAULT_INFO`. -/
structure FaultRecord where
  /-- `STATUS.FAULT_CODE` -/
  code : SessionError
  /-- `FAULT_INFO` -/
  info : BitVec 24
deriving DecidableEq, Repr

/-- The sequencer's temporaries (R27), and the three locals of R163 and R223 the data rows act on (log 9). -/
structure Temps where
  /-- `NODE` -/
  node : Option TreeWord := none
  /-- the growing code list -/
  codes : List Code := []
  /-- `count` -/
  count : Option (BitVec 4) := none
  /-- `group` -/
  group : Option (BitVec 15) := none
  /-- the 3-byte group record -/
  record : Option (BitVec 24) := none
  /-- the start cursor a group record gave (`address`, `shift` of R223) -/
  start : Option Cursor := none
  /-- the mask a shift-bit entry gave (`shift` of R223) -/
  shift : Option Byte := none
  /-- whether the header pair last read was valid (the test of R163) -/
  pairOk : Option Bool := none
deriving DecidableEq, Repr

/-! ### Ports -/

/-- A response record (R98). -/
structure Response where
  code : RespCode
  r0 : BitVec 24
  r1 : BitVec 8
  r2 : BitVec 16
deriving DecidableEq, Repr

/-- An output record (R99). -/
structure OutRecord where
  address : CpuAddr
  shift : Byte
  codes : List Code
deriving DecidableEq, Repr

/-! ### The ROM image -/

/-- A ROM image (R63): `ROM_SIZE` and its bytes, in canonical form. `cells` lists the bytes that are not what an unlisted
offset reads as. -/
structure Image where
  size : Nat
  cells : List Host.Cell
deriving DecidableEq, Repr

/-- What an offset of the image reads as that `cells` does not list. DESIGN CHOICE, log 3: every image has exactly one
list, so this is a way of writing images down, not a claim about their bytes. -/
def unlistedByte : Byte := 0x00#8

/-- The canonical form of a list of cells with offsets at or above `low`: strictly rising, and no byte that an unlisted
offset reads as. -/
def cellsWf (low : Nat) : List Host.Cell → Bool
  | [] => true
  | (a, b) :: rest => decide (low ≤ a) && b != unlistedByte && cellsWf (a + 1) rest

/-- The image is in canonical form, lists only offsets that exist, and is no larger than R7 allows. -/
def Image.wf (img : Image) : Bool :=
  cellsWf 0 img.cells && img.cells.all (fun c => decide (c.1 < img.size)) && decide (img.size ≤ maxRomSize)

/-! ### State -/

/-- The state of the block, with the parameters of the run (R32, log 1). -/
structure State where
  /-- the implementation parameters of R7; no step changes them -/
  params : Params
  /-- the ROM image, none where it is absent (R78); no step changes it -/
  rom : Option Image
  /-- the configuration registers (R21) -/
  cfg : Cfg
  /-- the table RAMs (R24); `STATUS.SETUP_DONE` says that they hold a value -/
  tables : Option Tables
  /-- the working registers (R23); `STATUS.ENUM_USED` says that they hold a value -/
  enumPos : Option EnumPos
  /-- the error the session stopped at (R255); `STATUS.FAULT` says that there is one -/
  fault : Option FaultRecord
  /-- the sequencer's temporaries (R27) -/
  temps : Temps
  /-- the words presented and not yet accepted (R91), the next one first (log 6) -/
  inbox : List PortWord
  /-- the response records, the oldest first (R91, log 7) -/
  responses : List Response
  /-- the output port, the oldest record first (R99) -/
  output : List OutRecord
deriving DecidableEq, Repr

/-- The block right after power-on (R30, R280): no register, table or working register holds a value, `STATUS` and
`FAULT_INFO` are 0, the ports are empty. The image is absent and the parameters are the defaults (log 2). -/
def State.reset : State where
  params := Params.standard
  rom := none
  cfg := {}
  tables := none
  enumPos := none
  fault := none
  temps := {}
  inbox := []
  responses := []
  output := []

end Sys2Proof.Machine
end

