-- ==== Sys2Proof/Machine/Flags.lean ====
section
/-! DEFINITION. The flags of DQHUF: the fields of `STATUS` (R25), the whole status word, and `BANK_SIZE` (R29). No
operation writes a condition code as a side effect of arithmetic (R25). -/

namespace Sys2Proof.Machine

/-- `STATUS.MAPPER_VALID`, equal to `written[MAPPER]` (R25). -/
def State.mapperValid (s : State) : Bool := s.cfg.mapper.isSome

/-- `STATUS.SETUP_DONE`: the table RAMs hold a value exactly while it is 1 (R24, R25, log 5). -/
def State.setupDone (s : State) : Bool := s.tables.isSome

/-- `STATUS.ENUM_USED`: the working registers hold a value exactly while it is 1 (R23, R25, log 5). -/
def State.enumUsed (s : State) : Bool := s.enumPos.isSome

/-- `STATUS.FAULT` (R25, R255). -/
def State.faulted (s : State) : Bool := s.fault.isSome

/-- The response code of a session-fatal error (R251). -/
def SessionError.code : SessionError → RespCode
  | .header => .header
  | .assertion => .assertion
  | .io => .io
  | .romBounds => .romBounds
  | .addrOvf => .addrOvf
  | .badShift => .badShift

/-- The response code of a call-fatal error (R251). -/
def CallError.code : CallError → RespCode
  | .range => .range
  | .state => .state
  | .illegal => .illegal
  | .faulted => .faulted

/-- `STATUS.FAULT_CODE` (R25): 0 while no session-fatal error has happened. -/
def State.faultCode (s : State) : BitVec 4 :=
  match s.fault with
  | some f => f.code.code.bits
  | none => 0#4

/-- `FAULT_INFO` (R258): 0 after reset, then as R255 says. -/
def State.faultInfo (s : State) : BitVec 24 :=
  match s.fault with
  | some f => f.info
  | none => 0#24

/-- The register `STATUS` (R25): bits 2, 7:5 and 15:12 read 0. -/
def State.status (s : State) : BitVec 16 :=
  0#4 ++ (s.faultCode ++ (0#3 ++ (BitVec.ofBool s.faulted ++ (BitVec.ofBool s.enumUsed ++
    (0#1 ++ (BitVec.ofBool s.setupDone ++ BitVec.ofBool s.mapperValid))))))

/-- `bank_offset_size` of a mapper variant (R154, R158), the value of `BANK_SIZE` (R29). -/
def bankOffsetSize : Mapper → BitVec 17
  | .hirom => 0x10000#17
  | .lorom => 0x8000#17

end Sys2Proof.Machine
end

