-- ==== Sys2Proof/Machine/Ops.lean ====
section
/-! DEFINITION. The named operations over bytes, the ROM image, the registers and the ports, the checks a command begins
with, and the one operation that takes an error (spec/40_primitives.md, spec/20_memory.md, spec/10_state.md,
spec/60_exceptions.md). -/

namespace Sys2Proof.Machine

/-! ### Bytes (R130, R133) -/

/-- `le(bytes)` (R10): the little-endian value of a byte list, 0 for the empty list. -/
def leValue : List Byte → Nat
  | [] => 0
  | b :: rest => b.toNat + 256 * leValue rest

/-- `get_int(bytes, index, length)` (R130): bytes that do not exist are left out, so they count as zero (R131). -/
def getInt (bytes : List Byte) (index length : Nat) : Nat := leValue ((bytes.drop index).take length)

/-- The number of trailing zero bits of a number, at most `fuel`. -/
def trailingZeros (fuel mask : Nat) : Nat :=
  match fuel with
  | 0 => 0
  | f + 1 => if mask % 2 = 1 then 0 else trailingZeros f (mask / 2) + 1

/-- `get_bits(bytes, index, mask)` (R133). It has no value at `mask = 0` (R134 c, U1). -/
def getBits (bytes : List Byte) (index mask : Nat) : Option Nat :=
  if mask = 0 then none
  else some ((getInt bytes index 3 &&& mask) >>> trailingZeros mask mask)

/-! ### The ROM image (R60 to R63, R78) -/

/-- The byte a list of cells has at an offset. -/
def cellsRead (cells : List Host.Cell) (off : Nat) : Byte :=
  match cells with
  | [] => unlistedByte
  | (a, b) :: rest => if a = off then b else cellsRead rest off

/-- The byte of the image at an offset, none where the offset does not exist (R63). -/
def Image.byteAt (img : Image) (off : Nat) : Option Byte :=
  if off < img.size then some (cellsRead img.cells off) else none

/-- `RomRead(off, n)` (R63): the bytes that exist at offsets `off` to `off + n - 1`, ascending. -/
def romRead (img : Image) (off n : Nat) : List Byte :=
  (List.range' off (min n (img.size - off))).map (cellsRead img.cells)

/-- The cells with one more byte listed, in canonical form: a byte an unlisted offset reads as is not listed. -/
def cellsWrite (cells : List Host.Cell) (off : Nat) (b : Byte) : List Host.Cell :=
  match cells with
  | [] => if b = unlistedByte then [] else [(off, b)]
  | (a, c) :: rest =>
    if a < off then (a, c) :: cellsWrite rest off b
    else
      let tail := if a = off then rest else (a, c) :: rest
      if b = unlistedByte then tail else (off, b) :: tail

/-- An image with the byte at one offset set. No command does this (R62): it is how an image is written down before it is
attached (log 2). An offset that does not exist is left alone. -/
def Image.load (img : Image) (off : Nat) (b : Byte) : Image :=
  if off < img.size then { img with cells := cellsWrite img.cells off b } else img

/-- An image with consecutive bytes set, from an offset on. -/
def Image.loadBytes (img : Image) (off : Nat) : List Byte → Image
  | [] => img
  | b :: rest => (img.load off b).loadBytes (off + 1) rest

/-- The image of a size whose bytes are all 0x00. -/
def Image.blank (size : Nat) : Image := ⟨size, []⟩

/-- The block with an image attached to its ROM port (R282 step 1): from outside, before a run (log 2). -/
def State.attach (s : State) (img : Image) : State := { s with rom := some img }

/-! ### Configuration registers (R21, R22, R28) -/

/-- `DELIM[i]`, none where it is unwritten or there is no such place. -/
def Cfg.delimAt (c : Cfg) (i : Nat) : Option Code := if h : i < 16 then c.delims[i] else none

/-- `DELIM[0]` to `DELIM[n - 1]`, none where one of them is unwritten. -/
def Cfg.delimList (c : Cfg) (n : Nat) : Option (List Code) :=
  match n with
  | 0 => some []
  | k + 1 => do
    let ds ← c.delimList k
    let d ← c.delimAt k
    return ds ++ [d]

/-- The value of a configuration register, zero-extended; none where it holds no value (R22). -/
def Cfg.get (c : Cfg) (r : CfgReg) : Option (BitVec 24) :=
  match r with
  | .mapper => c.mapper.map (·.setWidth 24)
  | .variant => c.variant.map (·.setWidth 24)
  | .addrGroup => c.addrGroup
  | .addrShiftbit => c.addrShiftbit
  | .addrMessage => c.addrMessage
  | .addrOff => c.addrOff
  | .addrOn => c.addrOn
  | .root => c.root.map (·.setWidth 24)
  | .readSize => c.readSize.map (·.setWidth 24)
  | .decodeMask => c.decodeMask.map (·.setWidth 24)
  | .idFirst => c.idFirst.map (·.setWidth 24)
  | .idLast => c.idLast.map (·.setWidth 24)
  | .delimCount => c.delimCount.map (·.setWidth 24)
  | .delim i => c.delims[i].map (·.setWidth 24)

/-- The configuration with one register written, `written[n]` set (R22). A legal value fits the register's width. -/
def Cfg.set (c : Cfg) (r : CfgReg) (value : BitVec 24) : Cfg :=
  match r with
  | .mapper => { c with mapper := some (value.setWidth 1) }
  | .variant => { c with variant := some (value.setWidth 1) }
  | .addrGroup => { c with addrGroup := some value }
  | .addrShiftbit => { c with addrShiftbit := some value }
  | .addrMessage => { c with addrMessage := some value }
  | .addrOff => { c with addrOff := some value }
  | .addrOn => { c with addrOn := some value }
  | .root => { c with root := some (value.setWidth 16) }
  | .readSize => { c with readSize := some (value.setWidth 2) }
  | .decodeMask => { c with decodeMask := some (value.setWidth 16) }
  | .idFirst => { c with idFirst := some (value.setWidth 16) }
  | .idLast => { c with idLast := some (value.setWidth 16) }
  | .delimCount => { c with delimCount := some (value.setWidth 5) }
  | .delim i => { c with delims := c.delims.set i (some (value.setWidth 16)) }

/-- The values of a complete configuration. -/
structure FullCfg where
  mapper : Mapper
  variant : Variant
  addrGroup : CpuAddr
  addrShiftbit : CpuAddr
  addrMessage : CpuAddr
  addrOff : CpuAddr
  addrOn : CpuAddr
  root : TreeWord
  readSize : BitVec 2
  decodeMask : BitVec 16
  idFirst : MessageId
  idLast : MessageId
  /-- `DELIM[0]` to `DELIM[DELIM_COUNT - 1]`; `DELIMS` is the set of its elements (R28) -/
  delims : List Code
deriving DecidableEq, Repr

/-- The values of the configuration where `ConfigComplete` holds, none where it does not (R22). -/
def Cfg.full (c : Cfg) : Option FullCfg := do
  let mapper ← c.mapper
  let variant ← c.variant
  let addrGroup ← c.addrGroup
  let addrShiftbit ← c.addrShiftbit
  let addrMessage ← c.addrMessage
  let addrOff ← c.addrOff
  let addrOn ← c.addrOn
  let root ← c.root
  let readSize ← c.readSize
  let decodeMask ← c.decodeMask
  let idFirst ← c.idFirst
  let idLast ← c.idLast
  let delimCount ← c.delimCount
  let delims ← c.delimList delimCount.toNat
  return { mapper := Mapper.ofBit mapper, variant := Variant.ofBit variant, addrGroup, addrShiftbit, addrMessage,
           addrOff, addrOn, root, readSize, decodeMask, idFirst, idLast, delims }

/-- The value `RDREG` gives for a register, zero-extended to 24 bits; none where it holds no value (R23, R25, R29, R238,
R258). -/
def State.readReg (s : State) (r : Reg) : Option (BitVec 24) :=
  match r with
  | .cfg c => s.cfg.get c
  | .status => some (s.status.setWidth 24)
  | .bankSize => s.cfg.mapper.map (fun b => (bankOffsetSize (Mapper.ofBit b)).setWidth 24)
  | .curAddr => s.enumPos.map (fun e => e.cursor.address)
  | .curShift => s.enumPos.map (fun e => e.cursor.shift.setWidth 24)
  | .remain => s.enumPos.map (fun e => e.remain.setWidth 24)
  | .faultInfo => some s.faultInfo

/-! ### Ending a command -/

/-- `respond(code, r0, r1, r2)` (R10, R98): the command ends with one response record, and no temporary survives it
(R27). -/
def State.respond (s : State) (code : RespCode) (r0 : BitVec 24) (r1 : BitVec 8) (r2 : BitVec 16) : State :=
  { s with responses := s.responses ++ [⟨code, r0, r1, r2⟩], temps := {} }

/-- `emit(addr, shift, codes)` (R10, R99): one record on the output port. -/
def State.emit (s : State) (r : OutRecord) : State := { s with output := s.output ++ [r] }

/-- TAKING AN ERROR (R254 to R256). A call-fatal error answers `(code, 0, 0, 0)` and changes nothing. A session-fatal
error sets `FAULT`, `FAULT_CODE` and `FAULT_INFO` and answers `(code, info, 0, 0)`. There is no vector, no saved context
and no mode change (R256). -/
def State.abort (s : State) (a : Abort) : Host.Outcome State Fault Refusal :=
  match a with
  | .call e => .next (s.respond e.code 0#24 0#8 0#16)
  | .session e info => .next ({ s with fault := some ⟨e, info⟩ }.respond e.code info 0#8 0#16)
  | .endless => .fault .endlessWalk

/-- The end of a command whose pseudocode ran to a state, or raised. -/
def State.conclude (s : State) (r : Except Abort State) : Host.Outcome State Fault Refusal :=
  match r with
  | .ok t => .next t
  | .error a => s.abort a

/-- THE ONLY WAY ON AFTER A SESSION-FATAL ERROR (R259, R240, R280): a fresh session. Every register, table and working
register loses its value, `STATUS` and `FAULT_INFO` are 0. The image, the parameters, the records already on the ports
and the words not yet accepted stay (R281, log 7). -/
def State.freshSession (s : State) : State :=
  { State.reset with
      params := s.params, rom := s.rom, inbox := s.inbox, responses := s.responses, output := s.output }

/-! ### The command port (R91) -/

/-- The word the block accepts next and the block after it has accepted it, none where no word is presented (R91). -/
def State.fetch (s : State) : Option (PortWord × State) :=
  match s.inbox with
  | [] => none
  | w :: rest => some (w, { s with inbox := rest })

/-- The block with a word presented, to be accepted next (log 6). -/
def State.present (s : State) (w : PortWord) : State := { s with inbox := w :: s.inbox }

/-! ### The checks a command begins with (R253) -/

/-- Check (2) of R253: `E_FAULTED` while `FAULT = 1` (R257). -/
def State.guardFaulted (s : State) : Except Abort Unit := if s.faulted then .error (.call .faulted) else .ok ()

/-- The mapper variant in force, `E_STATE` while `MAPPER` is unwritten (R150, R262 a). -/
def State.needMapper (s : State) : Except Abort Mapper :=
  match s.cfg.mapper with
  | some b => .ok (Mapper.ofBit b)
  | none => .error (.call .state)

/-- The configuration, `E_STATE` while `ConfigComplete` is false (R262 b). -/
def State.needConfig (s : State) : Except Abort FullCfg :=
  match s.cfg.full with
  | some c => .ok c
  | none => .error (.call .state)

/-- The configuration is not locked, else `E_STATE` (R33, R262 c). -/
def State.needUnlocked (s : State) : Except Abort Unit := if s.setupDone then .error (.call .state) else .ok ()

/-- The working registers, `E_STATE` while `ENUM_USED = 0` (R262 e). -/
def State.needEnum (s : State) : Except Abort EnumPos :=
  match s.enumPos with
  | some e => .ok e
  | none => .error (.call .state)

/-- The tables, `E_STATE` while they hold no value (R22, R24; log 12). -/
def State.needTables (s : State) : Except Abort Tables :=
  match s.tables with
  | some t => .ok t
  | none => .error (.call .state)

/-- Check (5) of R253: the image, `E_IO` where it is absent (R78, R265). -/
def State.needImage (s : State) : Except Abort Image :=
  match s.rom with
  | some img => .ok img
  | none => .error (.session .io 0#24)

/-! ### Register accesses (R236, R238) -/

/-- The effect of reading a register (R238): accepted also while `FAULT = 1` (R257), `E_ILLEGAL` for a register that does
not exist (R104), `E_STATE` for one that holds no value. -/
def State.accessRead (s : State) (r : Reg) : Host.Outcome State Fault Refusal :=
  if r.present s.params then
    match s.readReg r with
    | some value => .next (s.respond .ok value 0#8 0#16)
    | none => s.abort (.call .state)
  else s.abort (.call .illegal)

/-- The effect of writing a configuration register (R236): `E_ILLEGAL` outranks `E_FAULTED` and `E_STATE` (R253, C9). -/
def State.accessWrite (s : State) (r : CfgReg) (value : BitVec 24) : Host.Outcome State Fault Refusal :=
  if r.legal s.params value then
    s.conclude (do
      s.guardFaulted
      s.needUnlocked
      return { s with cfg := s.cfg.set r value }.respond .ok 0#24 0#8 0#16)
  else s.abort (.call .illegal)

/-- One access of a configuration register over the register port (log 8). -/
def State.access {n : Nat} (s : State) (r : CfgReg) (op : RegOp n) : Host.Outcome State Fault Refusal :=
  match op with
  | .read => s.accessRead (.cfg r)
  | .write value => s.accessWrite r (value.setWidth 24)

end Sys2Proof.Machine
end

