-- ==== Sys2Proof/Machine/Mapper.lean ====
section
/-! DEFINITION. The address mapper and its commands `DETECT`, `ROM2CPU`, `CPU2ROM`, `INCADDR` (spec/41_mapper.md). -/

namespace Sys2Proof.Machine

/-! ### The mapper functions -/

/-- `from_rom(rom)`: R151 for HiROM, R155 for LoROM. -/
def fromRom (p : Params) (m : Mapper) (rom : RomAddr) : CpuAddr :=
  let r := rom.setWidth 24
  match m with
  | .hirom => r ||| p.hiromBase
  | .lorom => ((r &&& 0x3F8000#24) <<< 1) ||| 0x008000#24 ||| (r &&& 0x007FFF#24)

/-- `from_cpu(cpu)`: R152 for HiROM, R156 for LoROM. With the default constants the result is below 0x400000; it is kept
24 bits wide for other constants (log 14). -/
def fromCpu (p : Params) (m : Mapper) (cpu : CpuAddr) : CpuAddr :=
  match m with
  | .hirom => cpu &&& p.hiromMask
  | .lorom => ((cpu &&& (p.loromBankMask.setWidth 24 <<< 16)) >>> 1) ||| (cpu &&& 0x007FFF#24)

/-- `increment_address(cpu)`: R153 for HiROM, R157 for LoROM; at 0xFFFFFF it raises `E_ADDR_OVF` (R159). -/
def incrementAddress (m : Mapper) (cpu : CpuAddr) : Except Abort CpuAddr :=
  if cpu = 0xFFFFFF#24 then .error (.session .addrOvf cpu)
  else
    let a := cpu + 1#24
    match m with
    | .hirom => .ok a
    | .lorom => .ok (if a.extractLsb' 0 16 = 0#16 then a ||| 0x008000#24 else a)

/-- The plain addition of an offset to a 24-bit address; a sum above 0xFFFFFF raises `E_ADDR_OVF` with the address added
to (R159, R223, R224). -/
def addAddress (base : CpuAddr) (off : Nat) : Except Abort CpuAddr :=
  if base.toNat + off > 0xFFFFFF then .error (.session .addrOvf base)
  else .ok (BitVec.ofNat 24 (base.toNat + off))

/-! ### Header detection -/

/-- The `MAPPER` value a header at offset `h` selects, none where there is no valid header there (R117, R161, R163). -/
def headerAt (img : Image) (h : Nat) : Option (BitVec 1) :=
  let b := romRead img (h + 0x1C) 4
  if b.length = 4 ∧ pairValid (BitVec.ofNat 16 (getInt b 0 2)) (BitVec.ofNat 16 (getInt b 2 2)) then
    some (makeupMapper (BitVec.ofNat 8 (getInt (romRead img (h + 0x15) 1) 0 1)))
  else none

/-- The first candidate that holds a valid header, with the `MAPPER` value it selects (R163). -/
def firstHeader (img : Image) : List Nat → Option (Nat × BitVec 1)
  | [] => none
  | h :: rest =>
    match headerAt img h with
    | some m => some (h, m)
    | none => firstHeader img rest

/-! ### Commands -/

/-- `DETECT` (R163). -/
def execDetect (s : State) : Host.Outcome State Fault Refusal :=
  s.conclude (do
    s.guardFaulted
    s.needUnlocked
    let img ← s.needImage
    match firstHeader img headerCandidates with
    | some (h, m) =>
      return { s with cfg := { s.cfg with mapper := some m } }.respond .ok (BitVec.ofNat 24 h) (m.setWidth 8) 0#16
    | none => .error (.session .header 0#24))

/-- `ROM2CPU rom` (R164). -/
def execRom2cpu (rom : RomAddr) (s : State) : Host.Outcome State Fault Refusal :=
  s.conclude (do
    s.guardFaulted
    let m ← s.needMapper
    return s.respond .ok (fromRom s.params m rom) 0#8 0#16)

/-- `CPU2ROM cpu` (R165). -/
def execCpu2rom (cpu : CpuAddr) (s : State) : Host.Outcome State Fault Refusal :=
  s.conclude (do
    s.guardFaulted
    let m ← s.needMapper
    return s.respond .ok (fromCpu s.params m cpu) 0#8 0#16)

/-- `INCADDR cpu` (R166). -/
def execIncaddr (cpu : CpuAddr) (s : State) : Host.Outcome State Fault Refusal :=
  s.conclude (do
    s.guardFaulted
    let m ← s.needMapper
    let a ← incrementAddress m cpu
    return s.respond .ok a 0#8 0#16)

end Sys2Proof.Machine
end

