-- ==== Sys2Proof/Machine/Huffman.lean ====
section
/-! DEFINITION. Setup, the bit cursor and the tree walk, and the commands `SETUP` and `DECCHAR`
(spec/42_huffman_core.md). -/

namespace Sys2Proof.Machine

/-! ### Reading the ROM through the configuration -/

/-- What a decode depends on: the parameters, the image, the configuration and the tables (R74, R193 e). -/
structure Decoder where
  params : Params
  image : Image
  cfg : FullCfg
  tables : Tables
deriving DecidableEq, Repr

/-- The ROM linear offset of a configured table address (R66). -/
def tabOffset (p : Params) (m : Mapper) (addr : CpuAddr) : Nat :=
  match p.tableSpace with
  | .cpu => (fromCpu p m addr).toNat
  | .rom => addr.toNat

/-- `TabRead(addr, n)` (R66). -/
def tabRead (p : Params) (img : Image) (m : Mapper) (addr : CpuAddr) (n : Nat) : List Byte :=
  romRead img (tabOffset p m addr) n

/-- `MemRead(addr, n)` (R65): the address is mapped once. -/
def memRead (d : Decoder) (addr : CpuAddr) (n : Nat) : List Byte :=
  romRead d.image (fromCpu d.params d.cfg.mapper addr).toNat n

/-! ### Setup -/

/-- The shift-bit array, where all its eight bytes were read (R180 step 3). -/
def shiftbitArray : List Byte → Option (Vector Byte 8)
  | [a, b, c, d, e, f, g, h] => some #v[a, b, c, d, e, f, g, h]
  | _ => none

/-- `Setup()` (R180, R181): the three tables, or the first assertion that fails. -/
def runSetup (p : Params) (img : Image) (c : FullCfg) : Except Abort Tables :=
  let size := c.root.toNat + 2
  let sb := tabRead p img c.mapper c.addrShiftbit 8
  let off := tabRead p img c.mapper c.addrOff size
  let on := tabRead p img c.mapper c.addrOn size
  match shiftbitArray sb with
  | none => .error (.session .assertion 2#24)
  | some shiftbit =>
    if off.length ≠ size then .error (.session .assertion 3#24)
    else if on.length ≠ size then .error (.session .assertion 4#24)
    else if ¬ c.idFirst.toNat < c.idLast.toNat then .error (.session .assertion 1#24)
    else .ok ⟨shiftbit, off, on⟩

/-- The tables of the session: those cached, else those `Setup()` reads (R183). -/
def State.ensureSetup (s : State) (c : FullCfg) (img : Image) : Except Abort Tables :=
  match s.tables with
  | some t => .ok t
  | none => runSetup s.params img c

/-- A decoder command after its checks: `EnsureSetup()` (R183), whose effect stays even where the rest of the command
raises (R255), then the body on the state after setup. -/
def State.withSetup (s : State) (c : FullCfg) (img : Image) (body : Decoder → State → Except Abort State) :
    Host.Outcome State Fault Refusal :=
  match s.ensureSetup c img with
  | .error a => s.abort a
  | .ok t =>
    let u := { s with tables := some t }
    u.conclude (body ⟨s.params, img, c, t⟩ u)

/-- The checks of a decoder command, in the order of R253: `FAULT`, `ConfigComplete`, the command's own check, the
image. -/
def State.ready (s : State) (check : FullCfg → Except Abort Unit) : Except Abort (FullCfg × Image) := do
  s.guardFaulted
  let c ← s.needConfig
  check c
  let img ← s.needImage
  return (c, img)

/-- A decoder command: its checks, then setup, then its body. -/
def State.decoderCommand (s : State) (check : FullCfg → Except Abort Unit)
    (body : Decoder → State → Except Abort State) : Host.Outcome State Fault Refusal :=
  match s.ready check with
  | .error a => s.abort a
  | .ok (c, img) => s.withSetup c img body

/-! ### One bit of the stream -/

/-- `ReadBit(address, shift)` (R184); `E_ROM_BOUNDS` where no byte exists (R71 c, R266). -/
def readBit (d : Decoder) (c : Cursor) : Except Abort Bool :=
  let b := memRead d c.address d.cfg.readSize.toNat
  if b.length = 0 then .error (.session .romBounds (fromCpu d.params d.cfg.mapper c.address))
  else .ok (getInt b 0 d.cfg.readSize.toNat &&& c.shift.toNat != 0)

/-- `Advance(address, shift)`: R186 in Variant W, R187 in Variant V. -/
def advance (d : Decoder) (c : Cursor) : Except Abort Cursor :=
  match d.cfg.variant with
  | .varW =>
    let s := c.shift >>> 1
    if s = 0#8 then do
      let a ← incrementAddress d.cfg.mapper c.address
      return ⟨a, 0x80#8⟩
    else .ok ⟨c.address, s⟩
  | .varV =>
    let s := c.shift.toNat * 2
    if s > 0x80 then do
      let a ← incrementAddress d.cfg.mapper c.address
      return ⟨a, 0x01#8⟩
    else .ok ⟨c.address, BitVec.ofNat 8 s⟩

/-- `CheckShift(s)` (R195). -/
def checkShift (s : Byte) : Except Abort Unit :=
  if singleBit s then .ok () else .error (.session .badShift (s.setWidth 24))

/-! ### One character and one message -/

/-- Node lookup (R188, R189): the 16-bit little-endian word at byte index `NODE` of the table the bit selects. -/
def lookup (d : Decoder) (bit : Bool) (node : TreeWord) : TreeWord :=
  BitVec.ofNat 16 (getInt (if bit then d.tables.on else d.tables.off) node.toNat 2)

/-- The loop of `DecodeChar` (R192) from a node on, for at most `fuel` bits. Running out of fuel is no outcome of R192: it
cannot happen from a single-bit mask with the fuel of R194 (log 11). -/
def walkTree (d : Decoder) (fuel : Nat) (node : TreeWord) (c : Cursor) : Except Abort (Cursor × Code) :=
  match fuel with
  | 0 => .error .endless
  | f + 1 => do
    let bit ← readBit d c
    let c' ← advance d c
    let entry := lookup d bit node
    if isLeaf d.cfg.variant entry then return (c', leafCode entry d.cfg.decodeMask)
    else walkTree d f (nextNode d.cfg.variant entry) c'

/-- `DecodeChar(address, shift)` (R192). -/
def decodeChar (d : Decoder) (c : Cursor) : Except Abort (Cursor × Code) := walkTree d walkBound d.cfg.root c

/-- The loop of `DecodeMessage` (R198), for at most `fuel` characters (log 11). -/
def collectCodes (d : Decoder) (fuel : Nat) (c : Cursor) : Except Abort (Cursor × List Code) :=
  match fuel with
  | 0 => .error .endless
  | f + 1 => do
    let (c', code) ← decodeChar d c
    if d.cfg.delims.contains code then return (c', [code])
    else
      let (c'', codes) ← collectCodes d f c'
      return (c'', code :: codes)

/-- `DecodeMessage(address, shift)` (R198). -/
def decodeMessage (d : Decoder) (c : Cursor) : Except Abort (Cursor × List Code) := collectCodes d walkBound c

/-! ### Commands -/

/-- `SETUP` (R182): nothing is read again once `SETUP_DONE = 1`. -/
def execSetup (s : State) : Host.Outcome State Fault Refusal :=
  s.conclude (do
    s.guardFaulted
    let c ← s.needConfig
    if s.setupDone then return s.respond .ok 0#24 0#8 0#16
    else
      let img ← s.needImage
      let t ← runSetup s.params img c
      return { s with tables := some t }.respond .ok 0#24 0#8 0#16)

/-- `DECCHAR address, shift` (R196). -/
def execDecchar (address : CpuAddr) (shift : Byte) (s : State) : Host.Outcome State Fault Refusal :=
  s.decoderCommand (fun _ => .ok ()) (fun d u => do
    checkShift shift
    let (c, code) ← decodeChar d ⟨address, shift⟩
    return u.respond .ok c.address c.shift code)

end Sys2Proof.Machine
end

