-- ==== Sys2Proof/Machine/Locate.lean ====
section
/-! DEFINITION. Locating a message and enumerating a range: the commands `LOCATE`, `ENUM`, `NEXT`
(spec/43_locate_enumerate.md sections 1 to 3). -/

namespace Sys2Proof.Machine

/-- The field `idx` of a group record as read (R114): `byte0 & 0x07`. -/
def recordIndex (bytes : List Byte) : BitVec 3 := BitVec.ofNat 3 (getInt bytes 0 1 &&& 0x07)

/-- The field `off` of a group record as read (R114): `get_bits(record, 0, 0xFFFFF8)`, 21 bits. -/
def recordOffset (bytes : List Byte) : BitVec 21 := BitVec.ofNat 21 ((getBits bytes 0 0xFFFFF8).getD 0)

/-- Steps 3 and 4 of R223: the start of a group from the fields of its record. -/
def startCursor (t : Tables) (addrMessage : CpuAddr) (off : BitVec 21) (idx : BitVec 3) : Except Abort Cursor := do
  let shift := t.shiftbit[idx.toNat]'idx.isLt
  checkShift shift
  let address ← addAddress addrMessage off.toNat
  return ⟨address, shift⟩

/-- Step 5 of R223: whole messages decoded and dropped. -/
def skipMessages (d : Decoder) (count : Nat) (c : Cursor) : Except Abort Cursor :=
  match count with
  | 0 => .ok c
  | n + 1 => do
    let (c', _) ← decodeMessage d c
    skipMessages d n c'

/-- `Locate(id)` (R223, R224). -/
def locateMessage (d : Decoder) (id : MessageId) : Except Abort Cursor := do
  let (count, group) := decompose d.cfg.variant id
  let ra ← addAddress d.cfg.addrGroup group.toNat
  let bytes := tabRead d.params d.image d.cfg.mapper ra 3
  if bytes.length = 0 then .error (.session .romBounds (BitVec.ofNat 24 (tabOffset d.params d.cfg.mapper ra)))
  else
    let start ← startCursor d.tables d.cfg.addrMessage (recordOffset bytes) (recordIndex bytes)
    skipMessages d count.toNat start

/-- `RangeOK(first, last)` (R227). -/
def rangeOk (c : FullCfg) (first last : MessageId) : Bool :=
  decide (c.idFirst.toNat ≤ first.toNat ∧ first.toNat < last.toNat ∧ last.toNat ≤ c.idLast.toNat)

/-- The checks of `ENUM` between `ConfigComplete` and the image (R230, R231, R253). -/
def State.enumCheck (s : State) (first last : MessageId) (c : FullCfg) : Except Abort Unit :=
  if s.enumUsed then .error (.call .state)
  else if rangeOk c first last then .ok ()
  else .error (.call .range)

/-- `LOCATE id` (R225). -/
def execLocate (id : MessageId) (s : State) : Host.Outcome State Fault Refusal :=
  s.decoderCommand (fun _ => .ok ()) (fun d u => do
    let c ← locateMessage d id
    return u.respond .ok c.address c.shift 0#16)

/-- `ENUM first, last` (R230). -/
def execEnum (first last : MessageId) (s : State) : Host.Outcome State Fault Refusal :=
  s.decoderCommand (s.enumCheck first last) (fun d u => do
    let c ← locateMessage d first
    return { u with enumPos := some ⟨c, (last - first).setWidth 17⟩ }.respond .ok c.address c.shift (last - first))

/-- `NEXT` (R232). The image and tables it reads are there whenever `ENUM_USED = 1` in a state a run reaches (log 12). -/
def execNext (s : State) : Host.Outcome State Fault Refusal :=
  s.conclude (do
    s.guardFaulted
    let e ← s.needEnum
    if e.remain = 0#17 then return s.respond .exhausted 0#24 0#8 0#16
    else
      let c ← s.needConfig
      let t ← s.needTables
      let img ← s.needImage
      let (c', codes) ← decodeMessage ⟨s.params, img, c, t⟩ e.cursor
      return ({ s with enumPos := some ⟨c', e.remain - 1#17⟩ }.emit ⟨e.cursor.address, e.cursor.shift, codes⟩).respond
        .ok e.cursor.address e.cursor.shift (BitVec.ofNat 16 codes.length))

end Sys2Proof.Machine
end

