-- ==== Sys2Proof/Machine/Formats.lean ====
section
/-! DEFINITION. The data rows of spec/opcode_table.json: what the sequencer does with one word of each format, over its
temporaries (R27), by the same operations the commands use. The format rows are R111, R112, R114 to R117 and R98. A
faulted block executes none of them but the response (R259); one that needs a register or table without value answers
`E_STATE` (R22). DESIGN CHOICE, log 9: unsafe for a claim about the host's port that does not say that only commands are
presented. -/

namespace Sys2Proof.Machine

/-- The state with new temporaries. -/
def State.withTemps (s : State) (t : Temps) : State := { s with temps := t }

/-- A leaf entry is reached (R190): the character is complete and its code joins the growing code list (R198); `NODE`
holds no value until the next character starts at `ROOT` (R192). -/
def State.reachLeaf (s : State) (entry : TreeWord) : Host.Outcome State Fault Refusal :=
  s.conclude (do
    s.guardFaulted
    match s.cfg.decodeMask with
    | some mask =>
      return s.withTemps { s.temps with codes := s.temps.codes ++ [leafCode entry mask], node := none }
    | none => .error (.call .state))

/-- A branch entry is reached (R191): `NODE` takes the next node. -/
def State.takeBranch (s : State) (v : Variant) (entry : TreeWord) : Host.Outcome State Fault Refusal :=
  s.conclude (do
    s.guardFaulted
    return s.withTemps { s.temps with node := some (nextNode v entry) })

/-- A message id is split (R220): `count` and `group` take its parts. -/
def State.splitId (s : State) (v : Variant) (id : MessageId) : Host.Outcome State Fault Refusal :=
  s.conclude (do
    s.guardFaulted
    return s.withTemps
      { s.temps with count := some (decompose v id).1, group := some (decompose v id).2 })

/-- `NODE.W.LEAF` (R111, R190). -/
def execNodeWLeaf (code : BitVec 15) (s : State) : Host.Outcome State Fault Refusal := s.reachLeaf (0#1 ++ code)

/-- `NODE.W.BRANCH` (R111, R191). -/
def execNodeWBranch (target : BitVec 15) (s : State) : Host.Outcome State Fault Refusal :=
  s.takeBranch .varW (1#1 ++ target)

/-- `NODE.V.LEAF` (R112, R190): bit 15 is part of the entry. -/
def execNodeVLeaf (code : BitVec 15) (s : State) : Host.Outcome State Fault Refusal := s.reachLeaf (1#1 ++ code)

/-- `NODE.V.BRANCH` (R112, R191): bits 14:13 are ignored. -/
def execNodeVBranch (ignored : BitVec 2) (number : BitVec 13) (s : State) : Host.Outcome State Fault Refusal :=
  s.takeBranch .varV (0#1 ++ (ignored ++ number))

/-- `GROUPREC` (R114, steps 3 and 4 of R223): the record and the start cursor of its group. -/
def execGrouprec (off : BitVec 21) (idx : BitVec 3) (s : State) : Host.Outcome State Fault Refusal :=
  s.conclude (do
    s.guardFaulted
    let t ← s.needTables
    match s.cfg.addrMessage with
    | some base =>
      let start ← startCursor t base off idx
      return s.withTemps { s.temps with record := some (off ++ idx), start := some start }
    | none => .error (.call .state))

/-- `MSGID.W` (R116, R221). -/
def execMsgidW (group : BitVec 13) (count : BitVec 3) (s : State) : Host.Outcome State Fault Refusal :=
  s.splitId .varW (group ++ count)

/-- `MSGID.V` (R116, R222). -/
def execMsgidV (group : BitVec 12) (count : BitVec 4) (s : State) : Host.Outcome State Fault Refusal :=
  s.splitId .varV (group ++ count)

/-- `HEADER.MAKEUP` (R117, R161): `MAPPER <- byte & 0x01`, refused once the configuration is locked (R33). -/
def execHeaderMakeup (ignored : BitVec 7) (hirom : BitVec 1) (s : State) : Host.Outcome State Fault Refusal :=
  s.conclude (do
    s.guardFaulted
    s.needUnlocked
    return { s with cfg := { s.cfg with mapper := some (makeupMapper (ignored ++ hirom)) } })

/-- `HEADER.CHECKPAIR` (R117): the verdict on the pair. -/
def execHeaderCheckpair (wordB wordA : BitVec 16) (s : State) : Host.Outcome State Fault Refusal :=
  s.conclude (do
    s.guardFaulted
    return s.withTemps { s.temps with pairOk := some (pairValid wordA wordB) })

/-- `SHIFTBIT` (R115): the entry becomes the shift, once `CheckShift` accepts it (R195). -/
def execShiftbit (mask : Byte) (s : State) : Host.Outcome State Fault Refusal :=
  s.conclude (do
    s.guardFaulted
    checkShift mask
    return s.withTemps { s.temps with shift := some mask })

/-- `RESPONSE` (R98): the record goes out on the response port and ends what the sequencer was doing. -/
def execResponse (code : RespCode) (r0 : BitVec 24) (r1 : BitVec 8) (r2 : BitVec 16) (s : State) :
    Host.Outcome State Fault Refusal :=
  .next (s.respond code r0 r1 r2)

end Sys2Proof.Machine
end

