-- ==== Sys2Proof/Machine/Housekeeping.lean ====
section
/-! DEFINITION. The housekeeping commands `RESET`, `WRCFG`, `RDREG` (spec/43_locate_enumerate.md section 4) and the verdict
on a word that is no command (spec/30_encoding.md section 2). -/

namespace Sys2Proof.Machine

/-- `RESET` (R240): always accepted, the only command that clears `FAULT`, `SETUP_DONE` and `ENUM_USED`. -/
def execReset (s : State) : Host.Outcome State Fault Refusal := .next (s.freshSession.respond .ok 0#24 0#8 0#16)

/-- `WRCFG regno, value` (R236, R102). -/
def execWrcfg (r : CfgReg) (value : BitVec 24) (s : State) : Host.Outcome State Fault Refusal := s.accessWrite r value

/-- `RDREG regno` (R238, R104). -/
def execRdreg (r : Reg) (s : State) : Host.Outcome State Fault Refusal := s.accessRead r

/-- A word that is no command (R95, R96, R102, R104): `E_ILLEGAL`, decided before anything else, also while `FAULT = 1`
(R253, R269). -/
def execIllegal (_w : PortWord) (s : State) : Host.Outcome State Fault Refusal := s.abort (.call .illegal)

end Sys2Proof.Machine
end

