-- ==== Sys2Proof/Machine/Registers.lean ====
section
/-! DEFINITION. The register rows of spec/opcode_table.json: one access of the named register over the register port, with
the effect `RDREG` of that register has (R238) or, for a configuration register, `WRCFG` of it (R236). DESIGN CHOICE,
log 8: unsafe for a claim about the host's port that does not say that only commands are presented. -/

namespace Sys2Proof.Machine

/-- An access of `MAPPER` (R21). -/
def execMapper (op : RegOp 1) (s : State) : Host.Outcome State Fault Refusal := s.access .mapper op

/-- An access of `VARIANT` (R21). -/
def execVariant (op : RegOp 1) (s : State) : Host.Outcome State Fault Refusal := s.access .variant op

/-- An access of `ADDR_GROUP` (R21). -/
def execAddrGroup (op : RegOp 24) (s : State) : Host.Outcome State Fault Refusal := s.access .addrGroup op

/-- An access of `ADDR_SHIFTBIT` (R21). -/
def execAddrShiftbit (op : RegOp 24) (s : State) : Host.Outcome State Fault Refusal := s.access .addrShiftbit op

/-- An access of `ADDR_MESSAGE` (R21). -/
def execAddrMessage (op : RegOp 24) (s : State) : Host.Outcome State Fault Refusal := s.access .addrMessage op

/-- An access of `ADDR_OFF` (R21). -/
def execAddrOff (op : RegOp 24) (s : State) : Host.Outcome State Fault Refusal := s.access .addrOff op

/-- An access of `ADDR_ON` (R21). -/
def execAddrOn (op : RegOp 24) (s : State) : Host.Outcome State Fault Refusal := s.access .addrOn op

/-- An access of `ROOT` (R21). -/
def execRoot (op : RegOp 16) (s : State) : Host.Outcome State Fault Refusal := s.access .root op

/-- An access of `READ_SIZE` (R21). -/
def execReadSize (op : RegOp 2) (s : State) : Host.Outcome State Fault Refusal := s.access .readSize op

/-- An access of `DECODE_MASK` (R21). -/
def execDecodeMask (op : RegOp 16) (s : State) : Host.Outcome State Fault Refusal := s.access .decodeMask op

/-- An access of `ID_FIRST` (R21). -/
def execIdFirst (op : RegOp 16) (s : State) : Host.Outcome State Fault Refusal := s.access .idFirst op

/-- An access of `ID_LAST` (R21). -/
def execIdLast (op : RegOp 16) (s : State) : Host.Outcome State Fault Refusal := s.access .idLast op

/-- An access of `DELIM_COUNT` (R21). -/
def execDelimCount (op : RegOp 5) (s : State) : Host.Outcome State Fault Refusal := s.access .delimCount op

/-- An access of `DELIM[i]` (R21). -/
def execDelim (i : Fin 16) (op : RegOp 16) (s : State) : Host.Outcome State Fault Refusal := s.access (.delim i) op

/-- A read of `STATUS` (R25). -/
def execStatus (s : State) : Host.Outcome State Fault Refusal := s.accessRead .status

/-- A read of `BANK_SIZE` (R29). -/
def execBankSize (s : State) : Host.Outcome State Fault Refusal := s.accessRead .bankSize

/-- A read of `CUR_ADDR` (R23). -/
def execCurAddr (s : State) : Host.Outcome State Fault Refusal := s.accessRead .curAddr

/-- A read of `CUR_SHIFT` (R23). -/
def execCurShift (s : State) : Host.Outcome State Fault Refusal := s.accessRead .curShift

/-- A read of `REMAIN` (R23). -/
def execRemain (s : State) : Host.Outcome State Fault Refusal := s.accessRead .remain

/-- A read of `FAULT_INFO` (R258). -/
def execFaultInfo (s : State) : Host.Outcome State Fault Refusal := s.accessRead .faultInfo

end Sys2Proof.Machine
end

