-- ==== Sys2Proof/Machine/Dispatch.lean ====
section
/-! DEFINITION. The dispatch: one arm for each constructor of Instr, each one call of its meaning. -/

namespace Sys2Proof.Machine

open Sys2Proof

def exec (i : Instr) (s : State) : Host.Outcome State Fault Refusal :=
  match i with
  | .reset => Sys2Proof.Machine.execReset s
  | .detect => Sys2Proof.Machine.execDetect s
  | .rom2cpu rom => Sys2Proof.Machine.execRom2cpu rom s
  | .cpu2rom cpu => Sys2Proof.Machine.execCpu2rom cpu s
  | .incaddr cpu => Sys2Proof.Machine.execIncaddr cpu s
  | .setup => Sys2Proof.Machine.execSetup s
  | .locate id => Sys2Proof.Machine.execLocate id s
  | .decchar address shift => Sys2Proof.Machine.execDecchar address shift s
  | .enum first last => Sys2Proof.Machine.execEnum first last s
  | .next => Sys2Proof.Machine.execNext s
  | .wrcfg r value => Sys2Proof.Machine.execWrcfg r value s
  | .rdreg r => Sys2Proof.Machine.execRdreg r s
  | .illegal w => Sys2Proof.Machine.execIllegal w s
  | .mapper op => Sys2Proof.Machine.execMapper op s
  | .variant op => Sys2Proof.Machine.execVariant op s
  | .addrGroup op => Sys2Proof.Machine.execAddrGroup op s
  | .addrShiftbit op => Sys2Proof.Machine.execAddrShiftbit op s
  | .addrMessage op => Sys2Proof.Machine.execAddrMessage op s
  | .addrOff op => Sys2Proof.Machine.execAddrOff op s
  | .addrOn op => Sys2Proof.Machine.execAddrOn op s
  | .root op => Sys2Proof.Machine.execRoot op s
  | .readSize op => Sys2Proof.Machine.execReadSize op s
  | .decodeMask op => Sys2Proof.Machine.execDecodeMask op s
  | .idFirst op => Sys2Proof.Machine.execIdFirst op s
  | .idLast op => Sys2Proof.Machine.execIdLast op s
  | .delimCount op => Sys2Proof.Machine.execDelimCount op s
  | .delim n op => Sys2Proof.Machine.execDelim n op s
  | .status => Sys2Proof.Machine.execStatus s
  | .bankSize => Sys2Proof.Machine.execBankSize s
  | .curAddr => Sys2Proof.Machine.execCurAddr s
  | .curShift => Sys2Proof.Machine.execCurShift s
  | .remain => Sys2Proof.Machine.execRemain s
  | .faultInfo => Sys2Proof.Machine.execFaultInfo s
  | .nodeWLeaf code => Sys2Proof.Machine.execNodeWLeaf code s
  | .nodeWBranch target => Sys2Proof.Machine.execNodeWBranch target s
  | .nodeVLeaf code => Sys2Proof.Machine.execNodeVLeaf code s
  | .nodeVBranch ignored number => Sys2Proof.Machine.execNodeVBranch ignored number s
  | .grouprec off idx => Sys2Proof.Machine.execGrouprec off idx s
  | .msgidW group count => Sys2Proof.Machine.execMsgidW group count s
  | .msgidV group count => Sys2Proof.Machine.execMsgidV group count s
  | .headerMakeup ignored hirom => Sys2Proof.Machine.execHeaderMakeup ignored hirom s
  | .headerCheckpair wordB wordA => Sys2Proof.Machine.execHeaderCheckpair wordB wordA s
  | .shiftbit mask => Sys2Proof.Machine.execShiftbit mask s
  | .response code r0 r1 r2 => Sys2Proof.Machine.execResponse code r0 r1 r2 s

end Sys2Proof.Machine
end

