-- ==== Sys2Proof/Machine/Step.lean ====
section
/-! DEFINITION. One step of the block: the next word presented is accepted, decoded and run to completion (R20, R91). -/

namespace Sys2Proof.Machine

/-- One step. With no word presented the block waits: nothing changes (R30, R281; log 6). -/
def step (s : State) : Host.Outcome State Fault Refusal :=
  match s.fetch with
  | some (w, t) => exec (decode t.params w) t
  | none => .next s

/-- The state with the word of a row of spec/opcode_table.json presented, so that the next step accepts it (log 6). -/
def State.withFetchWord (s : State) (nbits w : Nat) : State := s.present (PortWord.ofTableRow nbits w)

end Sys2Proof.Machine
end

