-- ==== Sys2Proof/Safety.lean ====
section
/-! DEFINITION. The terms claims use: the invariant of the block, when an instruction completes, the loops of
spec/42_huffman_core.md as relations without a bound, the position of a cursor in the stream, and when a header is
valid. -/

namespace Sys2Proof.Machine

open Sys2Proof

/-! ### Outcomes -/

/-- The instruction completes: `exec` answers a next state. -/
def completes (i : Instr) (s : State) : Prop := ∃ t, exec i s = .next t

/-- The instruction is a command: its word is a word of the command port (R91). -/
def commandInstr (i : Instr) : Bool :=
  match encode i with
  | .command _ => true
  | _ => false

/-- The state after a command that ended with a response record and changed nothing else (R98, R254): the record joins the
response port, no temporary survives, every other field is as it was. -/
def State.answered (s : State) (r : Response) : State :=
  { s with responses := s.responses ++ [r], temps := {} }

/-- The state after a session-fatal error (R255): `FAULT`, `FAULT_CODE`, `FAULT_INFO` and the response, every other field as
it was. -/
def State.faultedWith (s : State) (e : SessionError) (info : BitVec 24) : State :=
  { s with fault := some ⟨e, info⟩, responses := s.responses ++ [⟨e.code, info, 0#8, 0#16⟩], temps := {} }

/-! ### The invariant -/

/-- What holds of every state a run reaches: the parameters and the image are what R7 and R63 allow; a written register
holds a legal value (R102: "a written register always holds a legal value"); the tables are those of a complete
configuration of an attached image (R24, R180, R181); the working registers hold a value only with the tables, and
`CUR_SHIFT` is a single-bit mask (R23); the temporaries and the output port hold single-bit masks, and no record is
empty (R99). -/
structure State.Inv (s : State) : Prop where
  params : s.params.wf = true
  image : ∀ img, s.rom = some img → img.wf = true
  readSize : ∀ v, s.cfg.readSize = some v → v = 1#2 ∨ v = 2#2
  delimCount : ∀ v, s.cfg.delimCount = some v → 1 ≤ v.toNat ∧ v.toNat ≤ s.params.delimMax
  delims : ∀ i : Fin 16, s.cfg.delims[i].isSome = true → i.val < s.params.delimMax
  tables : ∀ t, s.tables = some t → s.rom.isSome = true ∧ ∃ c, s.cfg.full = some c ∧
    t.off.length = c.root.toNat + 2 ∧ t.on.length = c.root.toNat + 2 ∧ c.idFirst.toNat < c.idLast.toNat
  enumPos : ∀ e, s.enumPos = some e →
    s.tables.isSome = true ∧ singleBit e.cursor.shift = true ∧ e.remain.toNat ≤ 0xFFFF
  start : ∀ c, s.temps.start = some c → singleBit c.shift = true
  shift : ∀ m, s.temps.shift = some m → singleBit m = true
  output : ∀ r ∈ s.output, singleBit r.shift = true ∧ r.codes ≠ []

/-! ### The loops of the decoder, without a bound -/

/-- `DecodeChar` from a node on, ended at a leaf: the loop of R192 as a relation. -/
inductive CharWalk (d : Decoder) : TreeWord → Cursor → Cursor × Code → Prop where
  | leaf {node : TreeWord} {c c' : Cursor} {bit : Bool} (read : readBit d c = .ok bit) (move : advance d c = .ok c')
      (stop : isLeaf d.cfg.variant (lookup d bit node) = true) :
      CharWalk d node c (c', leafCode (lookup d bit node) d.cfg.decodeMask)
  | branch {node : TreeWord} {c c' : Cursor} {bit : Bool} {r : Cursor × Code} (read : readBit d c = .ok bit)
      (move : advance d c = .ok c') (go : isLeaf d.cfg.variant (lookup d bit node) = false)
      (rest : CharWalk d (nextNode d.cfg.variant (lookup d bit node)) c' r) : CharWalk d node c r

/-- `DecodeChar` from a node on, ended by an error of a read or of an advance (R192). -/
inductive CharFails (d : Decoder) : TreeWord → Cursor → Abort → Prop where
  | read {node : TreeWord} {c : Cursor} {a : Abort} (fails : readBit d c = .error a) : CharFails d node c a
  | move {node : TreeWord} {c : Cursor} {bit : Bool} {a : Abort} (read : readBit d c = .ok bit)
      (fails : advance d c = .error a) : CharFails d node c a
  | branch {node : TreeWord} {c c' : Cursor} {bit : Bool} {a : Abort} (read : readBit d c = .ok bit)
      (move : advance d c = .ok c') (go : isLeaf d.cfg.variant (lookup d bit node) = false)
      (rest : CharFails d (nextNode d.cfg.variant (lookup d bit node)) c' a) : CharFails d node c a

/-- `DecodeMessage`, ended at a delimiter: the loop of R198 as a relation. -/
inductive MessageWalk (d : Decoder) : Cursor → Cursor × List Code → Prop where
  | last {c c' : Cursor} {code : Code} (char : CharWalk d d.cfg.root c (c', code)) (stop : code ∈ d.cfg.delims) :
      MessageWalk d c (c', [code])
  | more {c c' c'' : Cursor} {code : Code} {codes : List Code} (char : CharWalk d d.cfg.root c (c', code))
      (go : code ∉ d.cfg.delims) (rest : MessageWalk d c' (c'', codes)) : MessageWalk d c (c'', code :: codes)

/-- `DecodeMessage`, ended by an error of one of its characters (R198). -/
inductive MessageFails (d : Decoder) : Cursor → Abort → Prop where
  | char {c : Cursor} {a : Abort} (fails : CharFails d d.cfg.root c a) : MessageFails d c a
  | later {c c' : Cursor} {code : Code} {a : Abort} (char : CharWalk d d.cfg.root c (c', code))
      (go : code ∉ d.cfg.delims) (rest : MessageFails d c' a) : MessageFails d c a

/-- A number of messages skipped one after the other (step 5 of R223). -/
def SkipWalk (d : Decoder) : Nat → Cursor → Cursor → Prop
  | 0, c, c' => c = c'
  | n + 1, c, c' => ∃ m codes, MessageWalk d c (m, codes) ∧ SkipWalk d n m c'

/-- A number of messages skipped, ended by an error of one of them (step 5 of R223). -/
def SkipFails (d : Decoder) : Nat → Cursor → Abort → Prop
  | 0, _, _ => False
  | n + 1, c, a => MessageFails d c a ∨ ∃ m codes, MessageWalk d c (m, codes) ∧ SkipFails d n m a

/-! ### The position of a cursor -/

/-- How many bits of its byte the stream takes before the bit a single-bit mask selects (R118, R186, R187). -/
def bitIndex (v : Variant) (shift : Byte) : Nat :=
  match v with
  | .varW => 7 - shift.toNat.log2
  | .varV => shift.toNat.log2

/-- The position of a cursor in the stream of the CPU space, in bits. -/
def Cursor.position (v : Variant) (c : Cursor) : Nat := 8 * c.address.toNat + bitIndex v c.shift

/-! ### Enumerations -/

/-- `NEXT` executed a number of times, stopping where it does not answer a next state. -/
def nextTimes : Nat → State → Option State
  | 0, s => some s
  | n + 1, s =>
    match execNext s with
    | .next t => nextTimes n t
    | .fault _ => none
    | .refused _ => none

/-! ### Headers -/

/-- The little-endian 16-bit word of the image at an offset (R67). -/
def romWord (img : Image) (off : Nat) : BitVec 16 := cellsRead img.cells (off + 1) ++ cellsRead img.cells off

/-- The header at an offset is valid: the four bytes of its pair exist and their two words XOR to 0xFFFF (R117, R163). -/
def headerValid (img : Image) (h : Nat) : Prop :=
  h + 0x20 ≤ img.size ∧ romWord img (h + 0x1C) ^^^ romWord img (h + 0x1E) = 0xFFFF#16

/-- The `MAPPER` value the header at an offset selects: bit 0 of its ROM-makeup byte (R117, R161). -/
def headerMapper (img : Image) (h : Nat) : BitVec 1 := (cellsRead img.cells (h + 0x15)).extractLsb' 0 1

end Sys2Proof.Machine
end

