-- ==== Sys2Proof/Certificates/Slice0/Obligations.lean ====
section
/-! DEFINITION. The statements for the provers. Each docstring names the rule of spec/ it formalises, or says that it rests
on the model's choice and names the log entry. -/

open Sys2Proof Sys2Proof.Machine

/-! ### Encoding and decoding -/

/-- 30_encoding.md sections 1, 3 and 5: decoding the encoding of a well-formed instruction gives it back, for every row of
the table, every operand and every value of the parameters. The words of the register rows (`regRead`, `regWrite`) and the
readers of the data rows are the model's choice, log 8 and log 9. -/
def Obligations.DecodeEncodeIdentity : Prop :=
  ∀ (p : Params) (i : Instr), i.wf p = true → decode p (encode i) = i

/-- 30_encoding.md sections 1, 2, 3 and 5: encoding what a word decodes to gives the word back, so no bit of a word is
dropped and no two words are one instruction. The spec gives the 40-bit command words (sections 1 and 2), the bits of the
response record (section 3) and of the data formats (section 5). That a data format has a reader that decodes it as an
instruction is the model's choice, log 9, and the words `regRead` and `regWrite` of the register rows are the model's own,
log 8. -/
def Obligations.EncodeDecodeIdentity : Prop :=
  ∀ (p : Params) (w : PortWord), encode (decode p w) = w

/-- 30_encoding.md section 2: the decoder is total and what it gives is well formed. For the 40-bit words this is R95, R96,
R102 and R104; that the model's own words `regRead` and `regWrite` give a register row only for a register that exists and
a legal value is the model's choice, log 8, and the data rows are words of their own by log 9. -/
def Obligations.DecodedInstructionsAreWellFormed : Prop :=
  ∀ (p : Params) (w : PortWord), (decode p w).wf p = true

/-- 30_encoding.md section 2 (R95, R96, R102, R104): a 40-bit word decodes to `ILLEGAL` exactly when no row of the table
matches it with a legal register number and value. -/
def Obligations.IllegalWordsAreThoseNoRowMatches : Prop :=
  ∀ (p : Params) (w : BitVec 40), decode p (.command w) = .illegal (.command w) ↔ isCommand p w = false

/-- 30_encoding.md sections 1 to 3 and 5: words written out from the spec's encoding decode to what they stand for: one for
each of the twelve commands of R93, in its order; a second `WRCFG`; a `ROM2CPU` with a reserved bit set and a word of the
illegal opcode 0x0D; one word of each data format of section 5, and a response record of each code of R251. The bits of
these formats and of the record are the spec's; that a reader decodes them as an instruction is the model's choice, log 9.
The words `regRead` and `regWrite` of two clauses are the model's own, log 8. -/
def Obligations.WrittenOutWordsDecode : Prop :=
  decode Params.standard (.command 0x0100000000#40) = .reset ∧
  decode Params.standard (.command 0x0200000000#40) = .detect ∧
  decode Params.standard (.command 0x0300008000#40) = .rom2cpu 0x008000#22 ∧
  decode Params.standard (.command 0x0400FCBD36#40) = .cpu2rom 0xFCBD36#24 ∧
  decode Params.standard (.command 0x0500C0FFFF#40) = .incaddr 0xC0FFFF#24 ∧
  decode Params.standard (.command 0x0600000000#40) = .setup ∧
  decode Params.standard (.command 0x0700000141#40) = .locate 0x0141#16 ∧
  decode Params.standard (.command 0x08C0FFFF20#40) = .decchar 0xC0FFFF#24 0x20#8 ∧
  decode Params.standard (.command 0x0901410142#40) = .enum 0x0141#16 0x0142#16 ∧
  decode Params.standard (.command 0x0A00000000#40) = .next ∧
  decode Params.standard (.command 0x0B07000004#40) = .wrcfg .root 4#24 ∧
  decode Params.standard (.command 0x0C20000000#40) = .rdreg .status ∧
  decode Params.standard (.command 0x0B100000AC#40) = .wrcfg (.delim 0) 0x0000AC#24 ∧
  decode Params.standard (.command 0x0300400000#40) = .illegal (.command 0x0300400000#40) ∧
  decode Params.standard (.command 0x0D00000000#40) = .illegal (.command 0x0D00000000#40) ∧
  decode Params.standard (.regRead 0x07#8) = .root .read ∧
  decode Params.standard (.regWrite 0x08#8 2#24) = .readSize (.write 2#2) ∧
  decode Params.standard (.treeEntry .varW 0x0022#16) = .nodeWLeaf 0x22#15 ∧
  decode Params.standard (.treeEntry .varW 0x8002#16) = .nodeWBranch 2#15 ∧
  decode Params.standard (.treeEntry .varV 0x8142#16) = .nodeVLeaf 0x142#15 ∧
  decode Params.standard (.treeEntry .varV 0x6001#16) = .nodeVBranch 3#2 1#13 ∧
  decode Params.standard (.groupRecord 0x000075#24) = .grouprec 0x0E#21 5#3 ∧
  decode Params.standard (.messageId .varW 0x0141#16) = .msgidW 40#13 1#3 ∧
  decode Params.standard (.messageId .varV 0x0141#16) = .msgidV 20#12 1#4 ∧
  decode Params.standard (.makeupByte 0x21#8) = .headerMakeup 0x10#7 1#1 ∧
  decode Params.standard (.checkPair 0x1234EDCB#32) = .headerCheckpair 0x1234#16 0xEDCB#16 ∧
  decode Params.standard (.shiftEntry 0x40#8) = .shiftbit 0x40#8 ∧
  decode Params.standard (.responseRecord 0x0018000010142#52) = .response .ok 0x018000#24 0x01#8 0x0142#16 ∧
  decode Params.standard (.responseRecord 0x1000000000000#52) = .response .range 0#24 0#8 0#16 ∧
  decode Params.standard (.responseRecord 0x2000000000000#52) = .response .header 0#24 0#8 0#16 ∧
  decode Params.standard (.responseRecord 0x3000001000000#52) = .response .assertion 1#24 0#8 0#16 ∧
  decode Params.standard (.responseRecord 0x4000000000000#52) = .response .io 0#24 0#8 0#16 ∧
  decode Params.standard (.responseRecord 0x5010002000000#52) = .response .romBounds 0x010002#24 0#8 0#16 ∧
  decode Params.standard (.responseRecord 0x6FFFFFF000000#52) = .response .addrOvf 0xFFFFFF#24 0#8 0#16 ∧
  decode Params.standard (.responseRecord 0x7000003000000#52) = .response .badShift 0x000003#24 0#8 0#16 ∧
  decode Params.standard (.responseRecord 0x8000000000000#52) = .response .state 0#24 0#8 0#16 ∧
  decode Params.standard (.responseRecord 0x9000000000000#52) = .response .illegal 0#24 0#8 0#16 ∧
  decode Params.standard (.responseRecord 0xA000000000000#52) = .response .faulted 0#24 0#8 0#16 ∧
  decode Params.standard (.responseRecord 0xF000000000000#52) = .response .exhausted 0#24 0#8 0#16

/-- 30_encoding.md R91: a step accepts the next word presented and runs the instruction it decodes to; nothing else is
added around `exec`. With no word presented the block waits (the model's choice, log 6). -/
def Obligations.StepRunsTheDecodedInstruction : Prop :=
  (∀ (s : State) (i : Instr) (rest : List PortWord), i.wf s.params = true → s.inbox = encode i :: rest →
    step s = exec i { s with inbox := rest }) ∧
  (∀ (s : State) (w : PortWord) (rest : List PortWord), s.inbox = w :: rest →
    step s = exec (decode s.params w) { s with inbox := rest }) ∧
  (∀ s : State, s.inbox = [] → step s = .next s)

/-- 30_encoding.md R95, R96 and 60_exceptions.md R269: a word that is no command is answered with `E_ILLEGAL`, also while
`FAULT = 1`, and changes nothing else. That the words of the other readers that stand for nothing are answered so too
(second clause) is the model's choice, log 8 and log 9. -/
def Obligations.IllegalWordsAreRefused : Prop :=
  (∀ (s : State) (w : BitVec 40) (rest : List PortWord), s.inbox = .command w :: rest → isCommand s.params w = false →
    step s = .next (({ s with inbox := rest } : State).answered ⟨.illegal, 0#24, 0#8, 0#16⟩)) ∧
  (∀ (s : State) (w : PortWord), exec (.illegal w) s = .next (s.answered ⟨.illegal, 0#24, 0#8, 0#16⟩))

/-! ### The whole machine -/

/-- Every step keeps the invariant of the block: legal registers, tables of the asserted lengths, single-bit masks, records
that are not empty (R23, R99, R102, R181). -/
def Obligations.EveryStepKeepsTheInvariant : Prop :=
  ∀ s t : State, s.Inv → step s = .next t → t.Inv

/-- The state after reset meets the invariant (R30, and log 2 for the parameters and the absent image). -/
def Obligations.ResetMeetsTheInvariant : Prop := State.reset.Inv

/-- 70_reset_and_hazards.md R293, R296 and 42_huffman_core.md R194: in a state that meets the invariant every step answers
a next state. No instruction is refused and no walk runs for ever. -/
def Obligations.EveryStepCompletes : Prop :=
  ∀ s : State, s.Inv → ∃ t, step s = .next t

/-- No instruction writes a byte of the ROM (20_memory.md R62) or changes a parameter (10_state.md R32, kept as fields of
State by log 1), takes back an output record (43_locate_enumerate.md R240) or a response record, or touches the words not
yet accepted. That the past responses stay is the model's choice, log 7, and the words not yet accepted are the model's
list of log 6. -/
def Obligations.NoInstructionWritesTheRom : Prop :=
  ∀ (i : Instr) (s t : State), exec i s = .next t →
    t.rom = s.rom ∧ (∀ img img', s.rom = some img → t.rom = some img' → ∀ off, img'.byteAt off = img.byteAt off) ∧
    t.params = s.params ∧ t.inbox = s.inbox ∧ s.responses <+: t.responses ∧ s.output <+: t.output

/-- 30_encoding.md R91 and R99: a command answers exactly one response record, and puts exactly one record on the output
port when it is a `NEXT` that yields a message, none otherwise; no temporary survives it (10_state.md R27). -/
def Obligations.CommandsAnswerOnce : Prop :=
  ∀ (i : Instr) (s t : State), commandInstr i = true → exec i s = .next t →
    ∃ r, t.responses = s.responses ++ [r] ∧ t.temps = {} ∧
      ((t.output = s.output ∧ (i = .next → r.code ≠ .ok)) ∨
       (i = .next ∧ r.code = .ok ∧ ∃ o, t.output = s.output ++ [o]))

/-! ### Errors -/

/-- 60_exceptions.md R257: while `FAULT = 1` every command but `RESET` and `RDREG` is refused with `E_FAULTED` and does
nothing, and the first session-fatal error stays recorded until `RESET`. -/
def Obligations.FaultedBlockRefusesCommands : Prop :=
  (∀ (i : Instr) (s : State), s.fault.isSome = true → commandInstr i = true → i.wf s.params = true → i ≠ .reset →
    (∀ r, i ≠ .rdreg r) → (∀ w, i ≠ .illegal w) →
    exec i s = .next (s.answered ⟨.faulted, 0#24, 0#8, 0#16⟩)) ∧
  (∀ (i : Instr) (s t : State), s.fault.isSome = true → i ≠ .reset → exec i s = .next t → t.fault = s.fault)

/-- 60_exceptions.md R255: a command that ends in a session-fatal error sets `FAULT`, `FAULT_CODE` and `FAULT_INFO`, answers
`(code, info, 0, 0)`, and changes nothing else, but that the tables may be those of a setup it completed; and no other
command sets `FAULT`. -/
def Obligations.SessionFatalErrorsAreRecorded : Prop :=
  ∀ (i : Instr) (s t : State) (r : Response), commandInstr i = true → exec i s = .next t →
    t.responses = s.responses ++ [r] →
    (∀ e : SessionError, r.code = e.code →
      s.fault = none ∧ r = ⟨e.code, r.r0, 0#8, 0#16⟩ ∧ t = ({ s with tables := t.tables } : State).faultedWith e r.r0 ∧
      (t.tables = s.tables ∨
        (s.tables = none ∧ ∃ c img tb, s.cfg.full = some c ∧ s.rom = some img ∧
          runSetup s.params img c = .ok tb ∧ t.tables = some tb))) ∧
    (s.fault = none → t.fault.isSome = true → ∃ e : SessionError, r.code = e.code)

/-- 60_exceptions.md R254: a command that ends in a call-fatal error answers `(code, 0, 0, 0)` and changes no register, flag,
table or output; it answers the same whatever the image is, so no ROM byte has been read. -/
def Obligations.CallFatalErrorsChangeNothing : Prop :=
  ∀ (i : Instr) (s t : State) (r : Response), commandInstr i = true → exec i s = .next t →
    t.responses = s.responses ++ [r] →
    (r.code = .range ∨ r.code = .state ∨ r.code = .illegal ∨ r.code = .faulted) →
    r = ⟨r.code, 0#24, 0#8, 0#16⟩ ∧ t = s.answered r ∧
    ∀ rom', exec i { s with rom := rom' } = .next (({ s with rom := rom' } : State).answered r)

/-- 60_exceptions.md R261 and 43_locate_enumerate.md R227: an `ENUM` whose window is not inside `[ID_FIRST, ID_LAST)`, or is
empty, is answered with `E_RANGE` whatever the image is, with no setup; no other command answers `E_RANGE`. -/
def Obligations.RangeErrorsPrecedeRomAccess : Prop :=
  (∀ (s : State) (c : FullCfg) (first last : MessageId), s.fault = none → s.cfg.full = some c → s.enumPos = none →
    ¬ (c.idFirst.toNat ≤ first.toNat ∧ first.toNat < last.toNat ∧ last.toNat ≤ c.idLast.toNat) →
    ∀ rom', exec (.enum first last) { s with rom := rom' } =
      .next (({ s with rom := rom' } : State).answered ⟨.range, 0#24, 0#8, 0#16⟩)) ∧
  (∀ (i : Instr) (s t : State) (r : Response), commandInstr i = true → exec i s = .next t →
    t.responses = s.responses ++ [r] → r.code = .range → ∃ first last, i = .enum first last)

/-- 20_memory.md R69: `ROM2CPU`, `CPU2ROM`, `INCADDR`, `WRCFG`, `RDREG` and `RESET` read no ROM byte: with another image, or
none, they do the same. -/
def Obligations.RomFreeCommandsIgnoreTheImage : Prop :=
  ∀ (i : Instr) (s t : State) (rom' : Option Image),
    ((∃ a, i = .rom2cpu a) ∨ (∃ a, i = .cpu2rom a) ∨ (∃ a, i = .incaddr a) ∨ (∃ r v, i = .wrcfg r v) ∨
      (∃ r, i = .rdreg r) ∨ i = .reset) →
    exec i s = .next t → exec i { s with rom := rom' } = .next { t with rom := rom' }

/-! ### The mapper -/

/-- 41_mapper.md R151 and R152: HiROM maps a ROM offset into banks 0xC0 to 0xFF and back by its low 22 bits. -/
def Obligations.HiromMapsIntoTheTopBanks : Prop :=
  ∀ p : Params, p.hiromBase = 0xC00000#24 → p.hiromMask = 0x3FFFFF#24 →
    (∀ rom : RomAddr, fromRom p .hirom rom = (3#2 ++ rom : BitVec 24)) ∧
    (∀ cpu : CpuAddr, fromCpu p .hirom cpu = (0#2 ++ cpu.extractLsb' 0 22 : BitVec 24))

/-- 41_mapper.md R155 and R156: LoROM maps a ROM offset to bank `rom[21:15]` and offset `{1, rom[14:0]}`, and back ignoring
bits 15 and 23. -/
def Obligations.LoromMapsIntoUpperHalves : Prop :=
  ∀ p : Params, p.loromBankMask = 0x7F#8 →
    (∀ rom : RomAddr, fromRom p .lorom rom =
      ((0#1 ++ rom.extractLsb' 15 7) ++ (1#1 ++ rom.extractLsb' 0 15) : BitVec 24)) ∧
    (∀ cpu : CpuAddr, fromCpu p .lorom cpu = (0#2 ++ (cpu.extractLsb' 16 7 ++ cpu.extractLsb' 0 15) : BitVec 24))

/-- 41_mapper.md R160: `from_cpu(from_rom(x)) = x` for every 22-bit ROM offset under both variants; the converse holds
exactly on the image of `from_rom`. -/
def Obligations.MapperRoundTrip : Prop :=
  ∀ p : Params, p.hiromBase = 0xC00000#24 → p.hiromMask = 0x3FFFFF#24 → p.loromBankMask = 0x7F#8 →
    (∀ (m : Mapper) (rom : RomAddr), fromCpu p m (fromRom p m rom) = rom.setWidth 24) ∧
    (∀ cpu : CpuAddr, fromRom p .hirom ((fromCpu p .hirom cpu).setWidth 22) = cpu ↔ 0xC00000 ≤ cpu.toNat) ∧
    (∀ cpu : CpuAddr, fromRom p .lorom ((fromCpu p .lorom cpu).setWidth 22) = cpu ↔
      cpu.toNat < 0x800000 ∧ cpu.getLsbD 15 = true)

/-- 41_mapper.md R153, R157 and R159: an increment adds one, under LoROM a crossing of a 64 KB boundary snaps to the upper
half of the new bank, and 0xFFFFFF and a sum above it raise `E_ADDR_OVF` with the address as information. -/
def Obligations.IncrementWrapsAtBanks : Prop :=
  (∀ m : Mapper, incrementAddress m 0xFFFFFF#24 = .error (.session .addrOvf 0xFFFFFF#24)) ∧
  (∀ a : CpuAddr, a ≠ 0xFFFFFF#24 → ∃ b, incrementAddress .hirom a = .ok b ∧ b.toNat = a.toNat + 1) ∧
  (∀ a : CpuAddr, a ≠ 0xFFFFFF#24 → ∃ b, incrementAddress .lorom a = .ok b ∧
    b.toNat = if (a.toNat + 1) % 0x10000 = 0 then a.toNat + 1 + 0x8000 else a.toNat + 1) ∧
  (∀ (base : CpuAddr) (off : Nat), 0xFFFFFF < base.toNat + off →
    addAddress base off = .error (.session .addrOvf base)) ∧
  (∀ (base : CpuAddr) (off : Nat), base.toNat + off ≤ 0xFFFFFF →
    ∃ a, addAddress base off = .ok a ∧ a.toNat = base.toNat + off)

/-- 20_memory.md R65: for a HiROM address, and for a LoROM address with bit 15 set, the next CPU address names the next ROM
offset (past the last 22-bit offset, the first one again: the spec's own inference leaves this wrap out). -/
def Obligations.IncrementFollowsTheRom : Prop :=
  ∀ (p : Params) (m : Mapper) (a b : CpuAddr), p.hiromMask = 0x3FFFFF#24 → p.loromBankMask = 0x7F#8 →
    (m = .hirom ∨ a.getLsbD 15 = true) → incrementAddress m a = .ok b →
    (fromCpu p m b).toNat = ((fromCpu p m a).toNat + 1) % 0x400000

/-- 41_mapper.md R164, R165 and R166: `ROM2CPU`, `CPU2ROM` and `INCADDR` answer their mapper function and change nothing else;
`E_FAULTED` while `FAULT = 1`, then `E_STATE` while `MAPPER` is unwritten, then for `INCADDR 0xFFFFFF` `E_ADDR_OVF`; an
`ROM2CPU` operand above 22 bits is an illegal word. -/
def Obligations.MapperCommandsAnswerTheirFunction : Prop :=
  (∀ (s : State) (rom : RomAddr) (cpu : CpuAddr) (i : Instr), (i = .rom2cpu rom ∨ i = .cpu2rom cpu ∨ i = .incaddr cpu) →
    (s.fault.isSome = true → exec i s = .next (s.answered ⟨.faulted, 0#24, 0#8, 0#16⟩)) ∧
    (s.fault = none → s.cfg.mapper = none → exec i s = .next (s.answered ⟨.state, 0#24, 0#8, 0#16⟩))) ∧
  (∀ (s : State) (b : BitVec 1), s.fault = none → s.cfg.mapper = some b →
    (∀ rom, exec (.rom2cpu rom) s = .next (s.answered ⟨.ok, fromRom s.params (Mapper.ofBit b) rom, 0#8, 0#16⟩)) ∧
    (∀ cpu, exec (.cpu2rom cpu) s = .next (s.answered ⟨.ok, fromCpu s.params (Mapper.ofBit b) cpu, 0#8, 0#16⟩)) ∧
    (∀ cpu a, incrementAddress (Mapper.ofBit b) cpu = .ok a →
      exec (.incaddr cpu) s = .next (s.answered ⟨.ok, a, 0#8, 0#16⟩)) ∧
    exec (.incaddr 0xFFFFFF#24) s = .next (s.faultedWith .addrOvf 0xFFFFFF#24)) ∧
  (∀ (p : Params) (w : BitVec 40), opcodeOf w = 0x03#8 → w.extractLsb' 22 10 ≠ 0#10 →
    decode p (.command w) = .illegal (.command w))

/-- 41_mapper.md R163: `DETECT` writes `MAPPER` from the makeup byte of the first candidate header, 0x7FC0 then 0xFFC0,
whose pair exists and XORs to 0xFFFF, and raises `E_HEADER` where neither does; before that `E_FAULTED`, `E_STATE` once the
configuration is locked, `E_IO` without an image. -/
def Obligations.DetectTakesTheFirstValidHeader : Prop :=
  (∀ s : State, s.fault.isSome = true → exec .detect s = .next (s.answered ⟨.faulted, 0#24, 0#8, 0#16⟩)) ∧
  (∀ s : State, s.fault = none → s.tables.isSome = true →
    exec .detect s = .next (s.answered ⟨.state, 0#24, 0#8, 0#16⟩)) ∧
  (∀ s : State, s.fault = none → s.tables = none → s.rom = none → exec .detect s = .next (s.faultedWith .io 0#24)) ∧
  (∀ (s : State) (img : Image), s.fault = none → s.tables = none → s.rom = some img →
    (headerValid img 0x7FC0 → exec .detect s =
      .next (({ s with cfg := { s.cfg with mapper := some (headerMapper img 0x7FC0) } } : State).answered
        ⟨.ok, 0x007FC0#24, (headerMapper img 0x7FC0).setWidth 8, 0#16⟩)) ∧
    (¬ headerValid img 0x7FC0 → headerValid img 0xFFC0 → exec .detect s =
      .next (({ s with cfg := { s.cfg with mapper := some (headerMapper img 0xFFC0) } } : State).answered
        ⟨.ok, 0x00FFC0#24, (headerMapper img 0xFFC0).setWidth 8, 0#16⟩)) ∧
    (¬ headerValid img 0x7FC0 → ¬ headerValid img 0xFFC0 → exec .detect s = .next (s.faultedWith .header 0#24)))

/-! ### Memory and primitives -/

/-- 20_memory.md R63: `RomRead(off, n)` returns the bytes of those of the `n` offsets that exist, in ascending order, and its
length is `min(n, max(0, ROM_SIZE - off))`. How an image says what its bytes are is the model's choice, log 3 (second
clause): an offset below `ROM_SIZE` has the byte listed for it, 0x00 where none is listed, and no other offset exists. -/
def Obligations.RomReadReturnsTheBytesThatExist : Prop :=
  (∀ (img : Image) (off n : Nat),
    (romRead img off n).length = min n (img.size - off) ∧
    (∀ k, k < n → (romRead img off n)[k]? = img.byteAt (off + k)) ∧
    (∀ k, n ≤ k → (romRead img off n)[k]? = none)) ∧
  (∀ (img : Image) (off : Nat), img.wf = true →
    (∀ b, (off, b) ∈ img.cells → img.byteAt off = some b) ∧
    (off < img.size → (∀ b, (off, b) ∉ img.cells) → img.byteAt off = some 0x00#8) ∧
    (img.size ≤ off → img.byteAt off = none))

/-- 40_primitives.md R130 and R131: `get_int` is little-endian, byte by byte, and a byte that does not exist counts as
zero. -/
def Obligations.GetIntIsLittleEndian : Prop :=
  ∀ (bytes : List Byte) (index length : Nat),
    getInt bytes index 0 = 0 ∧
    getInt bytes index (length + 1) = (bytes[index]?.getD 0#8).toNat + 256 * getInt bytes (index + 1) length

/-- 40_primitives.md R133 and R134: `get_bits` masks the 3-byte window and shifts it right by the position of the mask's
lowest set bit; it has no value for the mask 0. -/
def Obligations.GetBitsRightJustifies : Prop :=
  (∀ (bytes : List Byte) (index mask t : Nat), 2 ^ t ∣ mask → ¬ 2 ^ (t + 1) ∣ mask →
    getBits bytes index mask = some ((getInt bytes index 3 &&& mask) / 2 ^ t)) ∧
  (∀ (bytes : List Byte) (index : Nat), getBits bytes index 0 = none)

/-! ### Setup -/

/-- 42_huffman_core.md R180 and R181: setup asserts, in this order, the length of the shift-bit array, of the off table, of
the on table, and the id range, and otherwise gives the tables read. A table read (20_memory.md R66) reads the ROM at
`from_cpu` of the table address under `TABLE_ADDR_SPACE = CPU`, and at the address itself under `ROM`. -/
def Obligations.SetupAssertsInOrder : Prop :=
  ∀ (p : Params) (img : Image) (c : FullCfg),
    let place := fun (a : CpuAddr) => if p.tableSpace = .cpu then (fromCpu p c.mapper a).toNat else a.toNat
    let size := c.root.toNat + 2
    let sb := romRead img (place c.addrShiftbit) 8
    let off := romRead img (place c.addrOff) size
    let on := romRead img (place c.addrOn) size
    (sb.length ≠ 8 → runSetup p img c = .error (.session .assertion 2#24)) ∧
    (sb.length = 8 → off.length ≠ size → runSetup p img c = .error (.session .assertion 3#24)) ∧
    (sb.length = 8 → off.length = size → on.length ≠ size → runSetup p img c = .error (.session .assertion 4#24)) ∧
    (sb.length = 8 → off.length = size → on.length = size → c.idLast.toNat ≤ c.idFirst.toNat →
      runSetup p img c = .error (.session .assertion 1#24)) ∧
    (sb.length = 8 → off.length = size → on.length = size → c.idFirst.toNat < c.idLast.toNat →
      ∃ t, runSetup p img c = .ok t ∧ t.shiftbit.toList = sb ∧ t.off = off ∧ t.on = on)

/-- 42_huffman_core.md R182: `SETUP` loads the tables once; a second one reads nothing and changes nothing; its errors come
in the order `E_FAULTED`, `E_STATE`, `E_IO`, `E_ASSERT`. -/
def Obligations.SetupCommandLoadsTheTables : Prop :=
  (∀ s : State, s.fault.isSome = true → exec .setup s = .next (s.answered ⟨.faulted, 0#24, 0#8, 0#16⟩)) ∧
  (∀ s : State, s.fault = none → s.cfg.full = none → exec .setup s = .next (s.answered ⟨.state, 0#24, 0#8, 0#16⟩)) ∧
  (∀ (s : State) (c : FullCfg), s.fault = none → s.cfg.full = some c → s.tables.isSome = true →
    exec .setup s = .next (s.answered ⟨.ok, 0#24, 0#8, 0#16⟩)) ∧
  (∀ (s : State) (c : FullCfg), s.fault = none → s.cfg.full = some c → s.tables = none → s.rom = none →
    exec .setup s = .next (s.faultedWith .io 0#24)) ∧
  (∀ (s : State) (c : FullCfg) (img : Image), s.fault = none → s.cfg.full = some c → s.tables = none →
    s.rom = some img →
    (∀ info, runSetup s.params img c = .error (.session .assertion info) →
      exec .setup s = .next (s.faultedWith .assertion info)) ∧
    (∀ tb, runSetup s.params img c = .ok tb →
      exec .setup s = .next (({ s with tables := some tb } : State).answered ⟨.ok, 0#24, 0#8, 0#16⟩)))

/-! ### The bit cursor and the tree walk -/

/-- 42_huffman_core.md R184, and the spec's own derivation in it (marked there "derived: from 40_primitives.md rule R131":
`READ_SIZE = 2` gives the same bit as `READ_SIZE = 1`): a stream bit is the bit the single-bit mask selects of the one byte at the mapped offset,
whether `READ_SIZE` is 1 or 2; where that byte does not exist `E_ROM_BOUNDS` is raised with the offset. -/
def Obligations.ReadBitReadsOneBit : Prop :=
  ∀ (d : Decoder) (c : Cursor), singleBit c.shift = true → (d.cfg.readSize = 1#2 ∨ d.cfg.readSize = 2#2) →
    (d.image.size ≤ (fromCpu d.params d.cfg.mapper c.address).toNat →
      readBit d c = .error (.session .romBounds (fromCpu d.params d.cfg.mapper c.address))) ∧
    ((fromCpu d.params d.cfg.mapper c.address).toNat < d.image.size →
      readBit d c = .ok (cellsRead d.image.cells (fromCpu d.params d.cfg.mapper c.address).toNat &&& c.shift != 0#8))

/-- 42_huffman_core.md R186 and R187: the mask shifts right in Variant W and left in Variant V; when it leaves its range it
starts over at 0x80 or 0x01 and the address is incremented by the mapper. The third clause is not of these two rules: that
a single-bit mask stays one is said by R195, and that the cursor moves forward is the spec's own derivation, R194. -/
def Obligations.AdvanceMovesOneBit : Prop :=
  (∀ (d : Decoder) (c : Cursor), d.cfg.variant = .varW →
    (c.shift >>> 1 = 0#8 → advance d c = (incrementAddress d.cfg.mapper c.address).map (fun a => ⟨a, 0x80#8⟩)) ∧
    (c.shift >>> 1 ≠ 0#8 → advance d c = .ok ⟨c.address, c.shift >>> 1⟩)) ∧
  (∀ (d : Decoder) (c : Cursor), d.cfg.variant = .varV →
    (0x80 < 2 * c.shift.toNat → advance d c = (incrementAddress d.cfg.mapper c.address).map (fun a => ⟨a, 0x01#8⟩)) ∧
    (2 * c.shift.toNat ≤ 0x80 → advance d c = .ok ⟨c.address, c.shift <<< 1⟩)) ∧
  (∀ (d : Decoder) (c c' : Cursor), singleBit c.shift = true → advance d c = .ok c' →
    singleBit c'.shift = true ∧ c.position d.cfg.variant < c'.position d.cfg.variant)

/-- 42_huffman_core.md R190 and R191 (formats R111 and R112): bit 15 tells a leaf, with opposite sense in the two variants;
the next node is the low 15 bits in Variant W, twice the low 13 bits in Variant V. -/
def Obligations.TreeEntriesAreReadByBit15 : Prop :=
  ∀ (e : TreeWord) (mask : BitVec 16),
    (isLeaf .varW e = true ↔ e.toNat < 0x8000) ∧ (isLeaf .varV e = true ↔ 0x8000 ≤ e.toNat) ∧
    (nextNode .varW e).toNat = e.toNat % 0x8000 ∧ (nextNode .varV e).toNat = 2 * (e.toNat % 0x2000) ∧
    (∀ i, (leafCode e mask).getLsbD i = (e.getLsbD i && mask.getLsbD i))

/-- 42_huffman_core.md R188 and R189: the entry is the little-endian word at byte index `NODE` of the on table for bit 1, of
the off table for bit 0; a byte past the end of the table counts as zero. -/
def Obligations.LookupReadsTheSelectedTable : Prop :=
  ∀ (d : Decoder) (node : TreeWord),
    (lookup d true node).toNat =
      (d.tables.on[node.toNat]?.getD 0#8).toNat + 256 * (d.tables.on[node.toNat + 1]?.getD 0#8).toNat ∧
    (lookup d false node).toNat =
      (d.tables.off[node.toNat]?.getD 0#8).toNat + 256 * (d.tables.off[node.toNat + 1]?.getD 0#8).toNat

/-- 42_huffman_core.md R192: from a single-bit mask, `DecodeChar` is the loop of the rule without a bound: it answers a
cursor and a code exactly when the loop ends at a leaf with them, and an error exactly when a read or an advance of the
loop raises it. -/
def Obligations.DecodeCharIsTheUnboundedLoop : Prop :=
  ∀ (d : Decoder) (c : Cursor), singleBit c.shift = true →
    (∀ r, decodeChar d c = .ok r ↔ CharWalk d d.cfg.root c r) ∧
    (∀ a, decodeChar d c = .error a ↔ CharFails d d.cfg.root c a)

/-- 42_huffman_core.md R198: from a single-bit mask, `DecodeMessage` is the loop of the rule without a bound: it answers
exactly when the loop ends at a delimiter, with the cursor after it and all the codes, and an error exactly when a
character of the loop raises it. -/
def Obligations.DecodeMessageIsTheUnboundedLoop : Prop :=
  ∀ (d : Decoder) (c : Cursor), singleBit c.shift = true →
    (∀ r, decodeMessage d c = .ok r ↔ MessageWalk d c r) ∧
    (∀ a, decodeMessage d c = .error a ↔ MessageFails d c a)

/-- 42_huffman_core.md R198 and 30_encoding.md R99: a decoded message ends with a delimiter, and no earlier code of it is
one. -/
def Obligations.DelimitersEndMessages : Prop :=
  ∀ (d : Decoder) (c c' : Cursor) (codes : List Code), decodeMessage d c = .ok (c', codes) →
    ∃ init last, codes = init ++ [last] ∧ last ∈ d.cfg.delims ∧ ∀ x ∈ init, x ∉ d.cfg.delims

/-- 42_huffman_core.md R194: from a single-bit mask every character and every message ends, with a result or with
`E_ROM_BOUNDS` or `E_ADDR_OVF`, for any tables and any image; a character consumes at least one bit. -/
def Obligations.EveryWalkEnds : Prop :=
  ∀ (d : Decoder) (c : Cursor), singleBit c.shift = true →
    ((∃ c' code, decodeChar d c = .ok (c', code) ∧ singleBit c'.shift = true ∧
        c.position d.cfg.variant < c'.position d.cfg.variant) ∨
      ∃ info, decodeChar d c = .error (.session .romBounds info) ∨ decodeChar d c = .error (.session .addrOvf info)) ∧
    ((∃ c' codes, decodeMessage d c = .ok (c', codes) ∧ singleBit c'.shift = true ∧
        c.position d.cfg.variant < c'.position d.cfg.variant) ∨
      ∃ info, decodeMessage d c = .error (.session .romBounds info) ∨
        decodeMessage d c = .error (.session .addrOvf info))

/-- 42_huffman_core.md R193 (e): `DecodeChar` reads no configuration but `ROOT`, `READ_SIZE`, `DECODE_MASK`, `VARIANT` and
`MAPPER`, and of the tables not the shift-bit array. -/
def Obligations.DecodeCharReadsFiveRegisters : Prop :=
  ∀ (d e : Decoder) (c : Cursor), d.params = e.params → d.image = e.image → d.tables.off = e.tables.off →
    d.tables.on = e.tables.on → d.cfg.root = e.cfg.root → d.cfg.readSize = e.cfg.readSize →
    d.cfg.decodeMask = e.cfg.decodeMask → d.cfg.variant = e.cfg.variant → d.cfg.mapper = e.cfg.mapper →
    decodeChar d c = decodeChar e c

/-! ### The decoder commands -/

/-- 60_exceptions.md R262: `E_STATE`, with no state change and no ROM access, in its six cases: a mapper command without
`MAPPER`; a decoder command with an incomplete configuration; `WRCFG` or `DETECT` once the configuration is locked; a second
`ENUM`; `NEXT` before `ENUM`; `RDREG` of a register that holds no value. -/
def Obligations.StateErrors : Prop :=
  ∀ (s : State) (i : Instr),
    ((s.fault = none ∧ s.cfg.mapper = none ∧ ((∃ a, i = .rom2cpu a) ∨ (∃ a, i = .cpu2rom a) ∨ ∃ a, i = .incaddr a)) ∨
      (s.fault = none ∧ s.cfg.full = none ∧
        (i = .setup ∨ (∃ id, i = .locate id) ∨ (∃ a m, i = .decchar a m) ∨ ∃ first last, i = .enum first last)) ∨
      (s.fault = none ∧ s.tables.isSome = true ∧
        (i = .detect ∨ ∃ r value, i = .wrcfg r value ∧ r.legal s.params value = true)) ∨
      (s.fault = none ∧ s.enumPos.isSome = true ∧ ∃ first last, i = .enum first last) ∨
      (s.fault = none ∧ s.enumPos = none ∧ i = .next) ∨
      (∃ r, i = .rdreg r ∧ r.present s.params = true ∧ s.readReg r = none)) →
    ∀ rom', exec i { s with rom := rom' } =
      .next (({ s with rom := rom' } : State).answered ⟨.state, 0#24, 0#8, 0#16⟩)

/-- 20_memory.md R78 and 60_exceptions.md R265: with the image absent, a command that would read the ROM, once it has passed
the state and range checks, ends in the session-fatal error `E_IO` with the information 0; `MAPPER` and the tables keep
what they held. The clause on `NEXT` is the model's choice, log 12 (DEDUCED): R232 names no such check, and no state of the
invariant has an enumeration without an image. -/
def Obligations.AbsentImageIsAnIoError : Prop :=
  ∀ (s : State) (i : Instr), s.fault = none → s.rom = none →
    ((i = .detect ∧ s.tables = none) ∨
      (∃ c, s.cfg.full = some c ∧
        ((i = .setup ∧ s.tables = none) ∨ (∃ id, i = .locate id) ∨ (∃ a m, i = .decchar a m) ∨
          (∃ first last, i = .enum first last ∧ s.enumPos = none ∧ c.idFirst.toNat ≤ first.toNat ∧
            first.toNat < last.toNat ∧ last.toNat ≤ c.idLast.toNat) ∨
          (i = .next ∧ s.tables.isSome = true ∧ ∃ e, s.enumPos = some e ∧ e.remain ≠ 0#17)))) →
    exec i s = .next (s.faultedWith .io 0#24)

/-- 42_huffman_core.md R196: `DECCHAR` is refused while `FAULT = 1`, then while the configuration is incomplete; then an absent
image, a failed assertion of the implicit setup, a shift that is no single-bit mask and an error of the character's loop
end it, in that order; else it answers the cursor after the character and its code. It writes nothing but through setup.
The tables are the cached ones while `SETUP_DONE = 1`, else those of `Setup()` (R183); the masks are those of R195. -/
def Obligations.DeccharAnswersTheCharacter : Prop :=
  ∀ (s : State) (address : CpuAddr) (shift : Byte),
    (s.fault.isSome = true → exec (.decchar address shift) s = .next (s.answered ⟨.faulted, 0#24, 0#8, 0#16⟩)) ∧
    (s.fault = none → s.cfg.full = none → exec (.decchar address shift) s = .next (s.answered ⟨.state, 0#24, 0#8, 0#16⟩)) ∧
    (∀ c, s.fault = none → s.cfg.full = some c →
      (s.rom = none → exec (.decchar address shift) s = .next (s.faultedWith .io 0#24)) ∧
      (∀ img, s.rom = some img →
        (∀ info, s.tables = none → runSetup s.params img c = .error (.session .assertion info) →
          exec (.decchar address shift) s = .next (s.faultedWith .assertion info)) ∧
        (∀ tb, (s.tables = some tb ∨ s.tables = none ∧ runSetup s.params img c = .ok tb) →
          (shift.toNat ∉ [0x01, 0x02, 0x04, 0x08, 0x10, 0x20, 0x40, 0x80] → exec (.decchar address shift) s =
            .next (({ s with tables := some tb } : State).faultedWith .badShift (shift.setWidth 24))) ∧
          (shift.toNat ∈ [0x01, 0x02, 0x04, 0x08, 0x10, 0x20, 0x40, 0x80] →
            (∀ e info, CharFails ⟨s.params, img, c, tb⟩ c.root ⟨address, shift⟩ (.session e info) →
              exec (.decchar address shift) s = .next (({ s with tables := some tb } : State).faultedWith e info)) ∧
            (∀ c' code, CharWalk ⟨s.params, img, c, tb⟩ c.root ⟨address, shift⟩ (c', code) →
              exec (.decchar address shift) s =
                .next (({ s with tables := some tb } : State).answered ⟨.ok, c'.address, c'.shift, code⟩))))))

/-- 43_locate_enumerate.md R225: `LOCATE` is refused while `FAULT = 1`, then while the configuration is incomplete; then an
absent image, a failed assertion of the implicit setup and an error of the locate end it, in that order; else it answers
the start of the message. It writes nothing but through setup. The tables are the cached ones while `SETUP_DONE = 1`, else
those of `Setup()` (42_huffman_core.md R183). -/
def Obligations.LocateAnswersTheStart : Prop :=
  ∀ (s : State) (id : MessageId),
    (s.fault.isSome = true → exec (.locate id) s = .next (s.answered ⟨.faulted, 0#24, 0#8, 0#16⟩)) ∧
    (s.fault = none → s.cfg.full = none → exec (.locate id) s = .next (s.answered ⟨.state, 0#24, 0#8, 0#16⟩)) ∧
    (∀ c, s.fault = none → s.cfg.full = some c →
      (s.rom = none → exec (.locate id) s = .next (s.faultedWith .io 0#24)) ∧
      (∀ img, s.rom = some img →
        (∀ info, s.tables = none → runSetup s.params img c = .error (.session .assertion info) →
          exec (.locate id) s = .next (s.faultedWith .assertion info)) ∧
        (∀ tb, (s.tables = some tb ∨ s.tables = none ∧ runSetup s.params img c = .ok tb) →
          (∀ e info, locateMessage ⟨s.params, img, c, tb⟩ id = .error (.session e info) →
            exec (.locate id) s = .next (({ s with tables := some tb } : State).faultedWith e info)) ∧
          (∀ c', locateMessage ⟨s.params, img, c, tb⟩ id = .ok c' →
            exec (.locate id) s =
              .next (({ s with tables := some tb } : State).answered ⟨.ok, c'.address, c'.shift, 0#16⟩)))))

/-- 43_locate_enumerate.md R230: `ENUM` is refused while `FAULT = 1`, then while the configuration is incomplete, then when an
enumeration was started before, then when the window is not inside `[ID_FIRST, ID_LAST)` or is empty; then an absent image,
a failed assertion of the implicit setup and an error of the locate end it; else it writes `CUR_ADDR`, `CUR_SHIFT` and
`REMAIN` from the start of message `first` and the number of messages, and answers them. The tables are the cached ones
while `SETUP_DONE = 1`, else those of `Setup()` (42_huffman_core.md R183). -/
def Obligations.EnumStartsTheEnumeration : Prop :=
  ∀ (s : State) (first last : MessageId),
    (s.fault.isSome = true → exec (.enum first last) s = .next (s.answered ⟨.faulted, 0#24, 0#8, 0#16⟩)) ∧
    (s.fault = none → s.cfg.full = none → exec (.enum first last) s = .next (s.answered ⟨.state, 0#24, 0#8, 0#16⟩)) ∧
    (∀ c, s.fault = none → s.cfg.full = some c →
      (s.enumPos.isSome = true → exec (.enum first last) s = .next (s.answered ⟨.state, 0#24, 0#8, 0#16⟩)) ∧
      (s.enumPos = none →
        ¬ (c.idFirst.toNat ≤ first.toNat ∧ first.toNat < last.toNat ∧ last.toNat ≤ c.idLast.toNat) →
        exec (.enum first last) s = .next (s.answered ⟨.range, 0#24, 0#8, 0#16⟩)) ∧
      (s.enumPos = none → c.idFirst.toNat ≤ first.toNat → first.toNat < last.toNat → last.toNat ≤ c.idLast.toNat →
        (s.rom = none → exec (.enum first last) s = .next (s.faultedWith .io 0#24)) ∧
        (∀ img, s.rom = some img →
          (∀ info, s.tables = none → runSetup s.params img c = .error (.session .assertion info) →
            exec (.enum first last) s = .next (s.faultedWith .assertion info)) ∧
          (∀ tb, (s.tables = some tb ∨ s.tables = none ∧ runSetup s.params img c = .ok tb) →
            (∀ e info, locateMessage ⟨s.params, img, c, tb⟩ first = .error (.session e info) →
              exec (.enum first last) s = .next (({ s with tables := some tb } : State).faultedWith e info)) ∧
            (∀ c', locateMessage ⟨s.params, img, c, tb⟩ first = .ok c' →
              exec (.enum first last) s =
                .next (({ s with tables := some tb,
                                 enumPos := some ⟨c', BitVec.ofNat 17 (last.toNat - first.toNat)⟩ } : State).answered
                  ⟨.ok, c'.address, c'.shift, BitVec.ofNat 16 (last.toNat - first.toNat)⟩))))))

/-- 43_locate_enumerate.md R232: `NEXT` emits the message at the enumeration's cursor, moves the cursor past its delimiter
and lowers `REMAIN` by one; `S_EXHAUSTED` with nothing changed when none is left; on an error nothing is emitted and the
enumeration keeps its place. -/
def Obligations.NextYieldsOneMessage : Prop :=
  (∀ s : State, s.fault.isSome = true → exec .next s = .next (s.answered ⟨.faulted, 0#24, 0#8, 0#16⟩)) ∧
  (∀ s : State, s.fault = none → s.enumPos = none → exec .next s = .next (s.answered ⟨.state, 0#24, 0#8, 0#16⟩)) ∧
  (∀ (s : State) (e : EnumPos), s.fault = none → s.enumPos = some e → e.remain = 0#17 →
    exec .next s = .next (s.answered ⟨.exhausted, 0#24, 0#8, 0#16⟩)) ∧
  (∀ (s : State) (e : EnumPos) (c : FullCfg) (tb : Tables) (img : Image), s.fault = none → s.enumPos = some e →
    e.remain ≠ 0#17 → s.cfg.full = some c → s.tables = some tb → s.rom = some img →
    singleBit e.cursor.shift = true →
    (∀ err info, MessageFails ⟨s.params, img, c, tb⟩ e.cursor (.session err info) →
      exec .next s = .next (s.faultedWith err info)) ∧
    (∀ c' codes, MessageWalk ⟨s.params, img, c, tb⟩ e.cursor (c', codes) →
      exec .next s =
        .next (({ s with enumPos := some ⟨c', e.remain - 1#17⟩,
                         output := s.output ++ [⟨e.cursor.address, e.cursor.shift, codes⟩] } : State).answered
          ⟨.ok, e.cursor.address, e.cursor.shift, BitVec.ofNat 16 codes.length⟩)))

/-! ### Locating -/

/-- 43_locate_enumerate.md R221 and R222 (format R116): Variant W splits an id at 8, Variant V at 16; the group is the byte
offset of its 3-byte record. -/
def Obligations.MessageIdsSplitByVariant : Prop :=
  ∀ id : MessageId,
    (decompose .varW id).1.toNat = id.toNat % 8 ∧ (decompose .varW id).2.toNat = id.toNat / 8 * 3 ∧
    (decompose .varV id).1.toNat = id.toNat % 16 ∧ (decompose .varV id).2.toNat = id.toNat / 16 * 3

/-- 43_locate_enumerate.md R223: a locate reads the record of the id's group, takes the mask from the shift-bit array by the
record's low three bits and the offset from the rest, and skips `count` messages; each step raises its error in order. The
record is read (20_memory.md R66) at `from_cpu` of its address under `TABLE_ADDR_SPACE = CPU`, at the address itself under
`ROM`. -/
def Obligations.LocateFollowsTheGroupRecord : Prop :=
  ∀ (d : Decoder) (id : MessageId),
    let count := (decompose d.cfg.variant id).1.toNat
    let ra := d.cfg.addrGroup.toNat + (decompose d.cfg.variant id).2.toNat
    let off := if d.params.tableSpace = .cpu then (fromCpu d.params d.cfg.mapper (BitVec.ofNat 24 ra)).toNat else ra
    let rec3 := leValue (romRead d.image off 3)
    let shift := d.tables.shiftbit[rec3 % 8]'(Nat.mod_lt _ (by omega))
    let address := rec3 / 8 + d.cfg.addrMessage.toNat
    (0xFFFFFF < ra → locateMessage d id = .error (.session .addrOvf d.cfg.addrGroup)) ∧
    (ra ≤ 0xFFFFFF → d.image.size ≤ off →
      locateMessage d id = .error (.session .romBounds (BitVec.ofNat 24 off))) ∧
    (ra ≤ 0xFFFFFF → off < d.image.size → singleBit shift = false →
      locateMessage d id = .error (.session .badShift (shift.setWidth 24))) ∧
    (ra ≤ 0xFFFFFF → off < d.image.size → singleBit shift = true → 0xFFFFFF < address →
      locateMessage d id = .error (.session .addrOvf d.cfg.addrMessage)) ∧
    (ra ≤ 0xFFFFFF → off < d.image.size → singleBit shift = true → address ≤ 0xFFFFFF →
      (∀ c', locateMessage d id = .ok c' ↔ SkipWalk d count ⟨BitVec.ofNat 24 address, shift⟩ c') ∧
      (∀ a, locateMessage d id = .error a ↔ SkipFails d count ⟨BitVec.ofNat 24 address, shift⟩ a))

/-- 43_locate_enumerate.md R234: from the cursor of an enumeration, a number of `NEXT`s that all find a message leave the
cursor where skipping that many messages leaves it, and put that many records on the output port. -/
def Obligations.NextsFollowTheStream : Prop :=
  ∀ (n : Nat) (s : State) (e : EnumPos) (c : FullCfg) (tb : Tables) (img : Image) (c' : Cursor), s.fault = none →
    s.enumPos = some e → s.cfg.full = some c → s.tables = some tb → s.rom = some img →
    singleBit e.cursor.shift = true → n ≤ e.remain.toNat → SkipWalk ⟨s.params, img, c, tb⟩ n e.cursor c' →
    ∃ t records, nextTimes n s = some t ∧ t.enumPos = some ⟨c', e.remain - BitVec.ofNat 17 n⟩ ∧
      t.output = s.output ++ records ∧ records.length = n ∧ t.fault = none

/-! ### Configuration and registers -/

/-- 43_locate_enumerate.md R236: an accepted `WRCFG` writes its register and no other; a faulted block answers `E_FAULTED`, a
locked configuration `E_STATE`. That `exec` of a `WRCFG` with an illegal register or value answers `E_ILLEGAL` (first clause)
is the model's choice, log 16 (DEDUCED): R236 takes the word as already legal, and R102 refuses it at decode. -/
def Obligations.WrcfgWritesOneRegister : Prop :=
  ∀ (s : State) (r : CfgReg) (value : BitVec 24),
    (r.legal s.params value = false →
      exec (.wrcfg r value) s = .next (s.answered ⟨.illegal, 0#24, 0#8, 0#16⟩)) ∧
    (r.legal s.params value = true → s.fault.isSome = true →
      exec (.wrcfg r value) s = .next (s.answered ⟨.faulted, 0#24, 0#8, 0#16⟩)) ∧
    (r.legal s.params value = true → s.fault = none → s.tables.isSome = true →
      exec (.wrcfg r value) s = .next (s.answered ⟨.state, 0#24, 0#8, 0#16⟩)) ∧
    (r.legal s.params value = true → s.fault = none → s.tables = none →
      ∃ cfg', exec (.wrcfg r value) s = .next (({ s with cfg := cfg' } : State).answered ⟨.ok, 0#24, 0#8, 0#16⟩) ∧
        cfg'.get r = some value ∧ ∀ r', r' ≠ r → cfg'.get r' = s.cfg.get r')

/-- 43_locate_enumerate.md R238: `RDREG` answers the value of its register, also while `FAULT = 1`, and `E_STATE` for a
register that holds none; it changes nothing else. `STATUS` and `FAULT_INFO` always hold a value, and the value of a
configuration register is the one `WRCFG` or `DETECT` wrote (R22). That `exec` of an `RDREG`
of a register that does not exist answers `E_ILLEGAL` is the model's choice, log 16 (DEDUCED): R238 has that
error at decode only. -/
def Obligations.RdregAnswersTheValue : Prop :=
  (∀ (s : State) (r : CfgReg), s.readReg (.cfg r) = s.cfg.get r) ∧
  ∀ (s : State) (r : Reg),
    (∀ value, r.present s.params = true → s.readReg r = some value →
      exec (.rdreg r) s = .next (s.answered ⟨.ok, value, 0#8, 0#16⟩)) ∧
    (r.present s.params = true → s.readReg r = none →
      exec (.rdreg r) s = .next (s.answered ⟨.state, 0#24, 0#8, 0#16⟩)) ∧
    (r.present s.params = false → exec (.rdreg r) s = .next (s.answered ⟨.illegal, 0#24, 0#8, 0#16⟩)) ∧
    (s.readReg .status).isSome = true ∧ (s.readReg .faultInfo).isSome = true

/-- 10_state.md R25 and 60_exceptions.md R251: the layout of `STATUS`, `FAULT_CODE` by the numbers of R251, its reserved bits
0, and what register `STATUS` reads. -/
def Obligations.StatusLayout : Prop :=
  ∀ s : State,
    s.status.getLsbD 0 = s.cfg.mapper.isSome ∧ s.status.getLsbD 1 = s.tables.isSome ∧ s.status.getLsbD 2 = false ∧
    s.status.getLsbD 3 = s.enumPos.isSome ∧ s.status.getLsbD 4 = s.fault.isSome ∧
    s.status.extractLsb' 5 3 = 0#3 ∧
    (s.fault = none → s.status.extractLsb' 8 4 = 0#4) ∧
    (∀ f, s.fault = some f → s.status.extractLsb' 8 4 =
      match f.code with
      | .header => 0x2#4
      | .assertion => 0x3#4
      | .io => 0x4#4
      | .romBounds => 0x5#4
      | .addrOvf => 0x6#4
      | .badShift => 0x7#4) ∧
    s.status.extractLsb' 12 4 = 0#4 ∧ s.readReg .status = some (s.status.setWidth 24)

/-- 10_state.md R23 and R29, 60_exceptions.md R258: what the read-only registers read. -/
def Obligations.ReadOnlyRegisterValues : Prop :=
  ∀ s : State,
    (s.cfg.mapper = some 1#1 → s.readReg .bankSize = some 0x10000#24) ∧
    (s.cfg.mapper = some 0#1 → s.readReg .bankSize = some 0x8000#24) ∧
    (s.cfg.mapper = none → s.readReg .bankSize = none) ∧
    (s.enumPos = none → s.readReg .curAddr = none ∧ s.readReg .curShift = none ∧ s.readReg .remain = none) ∧
    (∀ e, s.enumPos = some e → s.readReg .curAddr = some e.cursor.address ∧
      s.readReg .curShift = some (e.cursor.shift.setWidth 24) ∧ s.readReg .remain = some (e.remain.setWidth 24)) ∧
    (s.fault = none → s.readReg .faultInfo = some 0#24) ∧
    (∀ f, s.fault = some f → s.readReg .faultInfo = some f.info)

/-- 10_state.md R33: once `SETUP_DONE = 1` every legal `WRCFG` and every `DETECT` of a block that has not faulted is refused
with `E_STATE`, and no instruction but `RESET` changes the configuration or the tables. -/
def Obligations.ConfigurationIsLockedBySetup : Prop :=
  (∀ s : State, s.tables.isSome = true → s.fault = none →
    exec .detect s = .next (s.answered ⟨.state, 0#24, 0#8, 0#16⟩) ∧
    ∀ r value, r.legal s.params value = true →
      exec (.wrcfg r value) s = .next (s.answered ⟨.state, 0#24, 0#8, 0#16⟩)) ∧
  (∀ (i : Instr) (s t : State), s.tables.isSome = true → i ≠ .reset → exec i s = .next t →
    t.cfg = s.cfg ∧ t.tables = s.tables)

/-- 10_state.md R22 and R21: `ConfigComplete` holds exactly when registers 0x00 to 0x0B and 0x0F hold a value and so does
`DELIM[i]` for every `i` below `DELIM_COUNT`; and the configuration that the decoder commands then work with has the values
of these registers, HiROM exactly where `MAPPER` is 1 and Variant V exactly where `VARIANT` is 1. A register's value is that
of its own field (second clause). -/
def Obligations.ConfigCompleteMeansWritten : Prop :=
  (∀ c : Cfg, c.full.isSome = true ↔
    (∀ r : CfgReg, (∀ i, r ≠ .delim i) → (c.get r).isSome = true) ∧
    (∀ n, c.delimCount = some n → ∀ i, i < n.toNat → (c.delimAt i).isSome = true)) ∧
  (∀ c : Cfg, c.get .mapper = c.mapper.map (·.setWidth 24) ∧ c.get .variant = c.variant.map (·.setWidth 24) ∧
    c.get .addrGroup = c.addrGroup ∧ c.get .addrShiftbit = c.addrShiftbit ∧ c.get .addrMessage = c.addrMessage ∧
    c.get .addrOff = c.addrOff ∧ c.get .addrOn = c.addrOn ∧ c.get .root = c.root.map (·.setWidth 24) ∧
    c.get .readSize = c.readSize.map (·.setWidth 24) ∧ c.get .decodeMask = c.decodeMask.map (·.setWidth 24) ∧
    c.get .idFirst = c.idFirst.map (·.setWidth 24) ∧ c.get .idLast = c.idLast.map (·.setWidth 24) ∧
    c.get .delimCount = c.delimCount.map (·.setWidth 24) ∧
    ∀ i : Fin 16, c.get (.delim i) = (c.delimAt i.val).map (·.setWidth 24)) ∧
  (∀ (c : Cfg) (f : FullCfg), c.full = some f →
    c.get .mapper = some (if f.mapper = .hirom then 1#24 else 0#24) ∧
    c.get .variant = some (if f.variant = .varV then 1#24 else 0#24) ∧
    c.get .addrGroup = some f.addrGroup ∧ c.get .addrShiftbit = some f.addrShiftbit ∧
    c.get .addrMessage = some f.addrMessage ∧ c.get .addrOff = some f.addrOff ∧ c.get .addrOn = some f.addrOn ∧
    c.get .root = some (f.root.setWidth 24) ∧ c.get .readSize = some (f.readSize.setWidth 24) ∧
    c.get .decodeMask = some (f.decodeMask.setWidth 24) ∧ c.get .idFirst = some (f.idFirst.setWidth 24) ∧
    c.get .idLast = some (f.idLast.setWidth 24))

/-- 10_state.md R28: a code is a delimiter exactly when it is the value of `DELIM[i]` for some `i` below `DELIM_COUNT`; the
decoder holds no other code and one place for each `i`. -/
def Obligations.DelimiterSet : Prop :=
  ∀ (c : Cfg) (f : FullCfg) (n : BitVec 5), c.full = some f → c.delimCount = some n →
    f.delims.length = n.toNat ∧
    (∀ i, i < n.toNat → f.delims[i]? = c.delimAt i) ∧
    (∀ code : Code, code ∈ f.delims ↔ ∃ i, i < n.toNat ∧ c.delimAt i = some code) ∧
    (∀ code : Code, code ∈ f.delims ↔
      ∃ i : Fin 16, i.val < n.toNat ∧ c.get (.delim i) = some (code.setWidth 24))

/-- 43_locate_enumerate.md R240 and 70_reset_and_hazards.md R281: `RESET` is always accepted, takes every value and every flag
away, and withdraws no output record; the image is unchanged. No other instruction clears `FAULT`, `SETUP_DONE` or
`ENUM_USED`. That the past responses stay too is the model's choice, log 7 (DEDUCED; it also reads the empty output port of
R30 as that of power-on, where R240 keeps the records), and that the words not yet accepted stay is log 6. -/
def Obligations.ResetStartsAFreshSession : Prop :=
  (∀ s : State, exec .reset s = .next
    { params := s.params, rom := s.rom, cfg := {}, tables := none, enumPos := none, fault := none, temps := {},
      inbox := s.inbox, responses := s.responses ++ [⟨.ok, 0#24, 0#8, 0#16⟩], output := s.output }) ∧
  (∀ (i : Instr) (s t : State), i ≠ .reset → exec i s = .next t →
    (s.fault.isSome = true → t.fault.isSome = true) ∧ (s.tables.isSome = true → t.tables.isSome = true) ∧
    (s.enumPos.isSome = true → t.enumPos.isSome = true))

/-- 10_state.md R30: after reset no configuration register, table or working register holds a value, `STATUS` and
`FAULT_INFO` are 0, the output port is empty, and the block does nothing until a command arrives. -/
def Obligations.ResetValues : Prop :=
  (∀ r : CfgReg, State.reset.cfg.get r = none) ∧ State.reset.tables = none ∧ State.reset.status = 0x0000#16 ∧
  State.reset.faultInfo = 0x000000#24 ∧ State.reset.readReg .curAddr = none ∧ State.reset.readReg .curShift = none ∧
  State.reset.readReg .remain = none ∧ State.reset.readReg .bankSize = none ∧ State.reset.output = [] ∧
  step State.reset = .next State.reset

/-! ### The register rows and the data rows of the table (the model's choice, log 8 and log 9) -/

/-- The model's choice, log 8: a register row of the table, executed, is the `RDREG` or the `WRCFG` of its register, and
answers a next state: the register's value or `E_STATE` for a read, what `WRCFG` answers for a legal write. -/
def Obligations.RegisterRowsAreAccesses : Prop :=
  (∀ (s : State) (r : Reg), exec (readOf r) s = exec (.rdreg r) s ∧
    (r.present s.params = true →
      (∀ value, s.readReg r = some value → exec (readOf r) s = .next (s.answered ⟨.ok, value, 0#8, 0#16⟩)) ∧
      (s.readReg r = none → exec (readOf r) s = .next (s.answered ⟨.state, 0#24, 0#8, 0#16⟩)))) ∧
  (∀ (s : State) (r : CfgReg) (value : BitVec 24), r.legal s.params value = true →
    exec (writeOf r value) s = exec (.wrcfg r value) s ∧
    (s.fault = none → s.tables = none → exec (writeOf r value) s =
      .next (({ s with cfg := s.cfg.set r value } : State).answered ⟨.ok, 0#24, 0#8, 0#16⟩)))

/-- The model's choice, log 9, over R190 and R191: a leaf entry, executed, adds its masked code to the code list, a branch
entry moves `NODE`; every other field stays. A leaf without `DECODE_MASK` answers `E_STATE`, and a faulted block answers
`E_FAULTED` to each of the four rows; both change nothing else. -/
def Obligations.TreeEntryRowsMoveTheWalk : Prop :=
  (∀ (s : State) (i : Instr), s.fault.isSome = true →
    ((∃ code, i = .nodeWLeaf code) ∨ (∃ target, i = .nodeWBranch target) ∨ (∃ code, i = .nodeVLeaf code) ∨
      ∃ ignored number, i = .nodeVBranch ignored number) →
    exec i s = .next (s.answered ⟨.faulted, 0#24, 0#8, 0#16⟩)) ∧
  (∀ (s : State) (code : BitVec 15), s.fault = none → s.cfg.decodeMask = none →
    exec (.nodeWLeaf code) s = .next (s.answered ⟨.state, 0#24, 0#8, 0#16⟩) ∧
    exec (.nodeVLeaf code) s = .next (s.answered ⟨.state, 0#24, 0#8, 0#16⟩)) ∧
  ∀ s : State, s.fault = none →
    (∀ (code : BitVec 15) (mask : BitVec 16), s.cfg.decodeMask = some mask →
      exec (.nodeWLeaf code) s = .next { s with temps :=
        { s.temps with node := none, codes := s.temps.codes ++ [(0#1 ++ code : BitVec 16) &&& mask] } } ∧
      exec (.nodeVLeaf code) s = .next { s with temps :=
        { s.temps with node := none, codes := s.temps.codes ++ [(1#1 ++ code : BitVec 16) &&& mask] } }) ∧
    (∀ target : BitVec 15, exec (.nodeWBranch target) s = .next { s with temps :=
      { s.temps with node := some (0#1 ++ target : BitVec 16) } }) ∧
    (∀ (ignored : BitVec 2) (number : BitVec 13), exec (.nodeVBranch ignored number) s = .next { s with temps :=
      { s.temps with node := some (0#2 ++ (number ++ 0#1) : BitVec 16) } })

/-- The model's choice, log 9, over R114 to R117, R161, R195, R220 and R98: what each remaining data row does; every field not
named stays. In a faulted block each of them answers `E_FAULTED` but `RESPONSE`, which does the same in every block. In
one that has not faulted, `GROUPREC` ends in `E_STATE` without tables or `ADDR_MESSAGE`, then in `E_BAD_SHIFT` for a
shift-bit entry that is no single-bit mask, then in `E_ADDR_OVF` for a start above 0xFFFFFF; `HEADER.MAKEUP` answers
`E_STATE` once the configuration is locked; `SHIFTBIT` ends in `E_BAD_SHIFT` for no single-bit mask. -/
def Obligations.DataRowsActOnTheTemporaries : Prop :=
  (∀ (s : State) (i : Instr), s.fault.isSome = true →
    ((∃ off idx, i = .grouprec off idx) ∨ (∃ group count, i = .msgidW group count) ∨
      (∃ group count, i = .msgidV group count) ∨ (∃ ignored hirom, i = .headerMakeup ignored hirom) ∨
      (∃ wordB wordA, i = .headerCheckpair wordB wordA) ∨ ∃ mask, i = .shiftbit mask) →
    exec i s = .next (s.answered ⟨.faulted, 0#24, 0#8, 0#16⟩)) ∧
  (∀ (s : State) (code : RespCode) (r0 : BitVec 24) (r1 : BitVec 8) (r2 : BitVec 16),
    exec (.response code r0 r1 r2) s = .next (s.answered ⟨code, r0, r1, r2⟩)) ∧
  ∀ s : State, s.fault = none →
    (∀ (off : BitVec 21) (idx : BitVec 3), s.tables = none ∨ s.cfg.addrMessage = none →
      exec (.grouprec off idx) s = .next (s.answered ⟨.state, 0#24, 0#8, 0#16⟩)) ∧
    (∀ (tb : Tables) (base : CpuAddr) (off : BitVec 21) (idx : BitVec 3), s.tables = some tb →
      s.cfg.addrMessage = some base →
      let mask := tb.shiftbit[idx.toNat]'idx.isLt
      (singleBit mask = false → exec (.grouprec off idx) s = .next (s.faultedWith .badShift (mask.setWidth 24))) ∧
      (singleBit mask = true → 0xFFFFFF < base.toNat + off.toNat →
        exec (.grouprec off idx) s = .next (s.faultedWith .addrOvf base)) ∧
      (singleBit mask = true → base.toNat + off.toNat ≤ 0xFFFFFF → exec (.grouprec off idx) s = .next { s with temps :=
        { s.temps with record := some (off ++ idx : BitVec 24),
                       start := some ⟨BitVec.ofNat 24 (base.toNat + off.toNat), mask⟩ } })) ∧
    (∀ (group : BitVec 13) (count : BitVec 3), exec (.msgidW group count) s = .next { s with temps :=
      { s.temps with count := some (count.setWidth 4), group := some (BitVec.ofNat 15 (group.toNat * 3)) } }) ∧
    (∀ (group : BitVec 12) (count : BitVec 4), exec (.msgidV group count) s = .next { s with temps :=
      { s.temps with count := some count, group := some (BitVec.ofNat 15 (group.toNat * 3)) } }) ∧
    (∀ (ignored : BitVec 7) (hirom : BitVec 1),
      (s.tables = none → exec (.headerMakeup ignored hirom) s =
        .next { s with cfg := { s.cfg with mapper := some hirom } }) ∧
      (s.tables.isSome = true → exec (.headerMakeup ignored hirom) s =
        .next (s.answered ⟨.state, 0#24, 0#8, 0#16⟩))) ∧
    (∀ wordB wordA : BitVec 16, exec (.headerCheckpair wordB wordA) s = .next { s with temps :=
      { s.temps with pairOk := some (wordA ^^^ wordB == 0xFFFF#16) } }) ∧
    (∀ mask : Byte, singleBit mask = true → exec (.shiftbit mask) s = .next { s with temps :=
      { s.temps with shift := some mask } }) ∧
    (∀ mask : Byte, singleBit mask = false →
      exec (.shiftbit mask) s = .next (s.faultedWith .badShift (mask.setWidth 24)))

/-! ### The register map -/

/-- 10_state.md R21, 30_encoding.md R102 and R104: the numbers of the registers, which of them exist, and which values a
write may give each: those that fit its width, for `READ_SIZE` 1 and 2 only, for `DELIM_COUNT` 1 to `DELIM_MAX` only. -/
def Obligations.RegisterMapOfTheTable : Prop :=
  (CfgReg.number .mapper = 0x00#8 ∧ CfgReg.number .variant = 0x01#8 ∧ CfgReg.number .addrGroup = 0x02#8 ∧
    CfgReg.number .addrShiftbit = 0x03#8 ∧ CfgReg.number .addrMessage = 0x04#8 ∧ CfgReg.number .addrOff = 0x05#8 ∧
    CfgReg.number .addrOn = 0x06#8 ∧ CfgReg.number .root = 0x07#8 ∧ CfgReg.number .readSize = 0x08#8 ∧
    CfgReg.number .decodeMask = 0x09#8 ∧ CfgReg.number .idFirst = 0x0A#8 ∧ CfgReg.number .idLast = 0x0B#8 ∧
    CfgReg.number .delimCount = 0x0F#8 ∧ ∀ i : Fin 16, (CfgReg.number (.delim i)).toNat = 0x10 + i.val) ∧
  (Reg.number .status = 0x20#8 ∧ Reg.number .bankSize = 0x21#8 ∧ Reg.number .curAddr = 0x22#8 ∧
    Reg.number .curShift = 0x23#8 ∧ Reg.number .remain = 0x24#8 ∧ Reg.number .faultInfo = 0x25#8 ∧
    ∀ r, Reg.number (.cfg r) = r.number) ∧
  (∀ (p : Params) (n : BitVec 8),
    (∀ r, CfgReg.ofNumber p n = some r ↔ r.number = n ∧ ∀ i, r = .delim i → i.val < p.delimMax) ∧
    (∀ r, Reg.ofNumber p n = some r ↔ r.number = n ∧ ∀ i, r = .cfg (.delim i) → i.val < p.delimMax)) ∧
  (∀ (p : Params) (r : Reg), r.present p = true ↔ ∀ i, r = .cfg (.delim i) → i.val < p.delimMax) ∧
  (∀ (p : Params) (v : BitVec 24),
    (∀ r : CfgReg, r = .mapper ∨ r = .variant → (r.legal p v = true ↔ v = 0#24 ∨ v = 1#24)) ∧
    (∀ r : CfgReg, r = .addrGroup ∨ r = .addrShiftbit ∨ r = .addrMessage ∨ r = .addrOff ∨ r = .addrOn → r.legal p v = true) ∧
    (∀ r : CfgReg, r = .root ∨ r = .decodeMask ∨ r = .idFirst ∨ r = .idLast → (r.legal p v = true ↔ v.toNat ≤ 0xFFFF)) ∧
    (CfgReg.legal p .readSize v = true ↔ v = 1#24 ∨ v = 2#24) ∧
    (CfgReg.legal p .delimCount v = true ↔ 1 ≤ v.toNat ∧ v.toNat ≤ p.delimMax ∧ v.toNat ≤ 0x1F) ∧
    (∀ i : Fin 16, CfgReg.legal p (.delim i) v = true ↔ i.val < p.delimMax ∧ v.toNat ≤ 0xFFFF))
end

