-- ==== Sys2Proof/Laws/State.lean ====
section
/-! SUPPORT. One lemma for each field of State and each named update of it. -/

namespace Sys2Proof.Machine

variable (s : State)

/-! ### `State.respond` -/

@[simp] theorem State.respond_params (code : RespCode) (r0 : BitVec 24) (r1 : BitVec 8) (r2 : BitVec 16) : (s.respond code r0 r1 r2).params = s.params := rfl
@[simp] theorem State.respond_rom (code : RespCode) (r0 : BitVec 24) (r1 : BitVec 8) (r2 : BitVec 16) : (s.respond code r0 r1 r2).rom = s.rom := rfl
@[simp] theorem State.respond_cfg (code : RespCode) (r0 : BitVec 24) (r1 : BitVec 8) (r2 : BitVec 16) : (s.respond code r0 r1 r2).cfg = s.cfg := rfl
@[simp] theorem State.respond_tables (code : RespCode) (r0 : BitVec 24) (r1 : BitVec 8) (r2 : BitVec 16) : (s.respond code r0 r1 r2).tables = s.tables := rfl
@[simp] theorem State.respond_enumPos (code : RespCode) (r0 : BitVec 24) (r1 : BitVec 8) (r2 : BitVec 16) : (s.respond code r0 r1 r2).enumPos = s.enumPos := rfl
@[simp] theorem State.respond_fault (code : RespCode) (r0 : BitVec 24) (r1 : BitVec 8) (r2 : BitVec 16) : (s.respond code r0 r1 r2).fault = s.fault := rfl
@[simp] theorem State.respond_temps (code : RespCode) (r0 : BitVec 24) (r1 : BitVec 8) (r2 : BitVec 16) : (s.respond code r0 r1 r2).temps = {} := rfl
@[simp] theorem State.respond_inbox (code : RespCode) (r0 : BitVec 24) (r1 : BitVec 8) (r2 : BitVec 16) : (s.respond code r0 r1 r2).inbox = s.inbox := rfl
@[simp] theorem State.respond_responses (code : RespCode) (r0 : BitVec 24) (r1 : BitVec 8) (r2 : BitVec 16) : (s.respond code r0 r1 r2).responses = s.responses ++ [⟨code, r0, r1, r2⟩] := rfl
@[simp] theorem State.respond_output (code : RespCode) (r0 : BitVec 24) (r1 : BitVec 8) (r2 : BitVec 16) : (s.respond code r0 r1 r2).output = s.output := rfl

/-! ### `State.emit` -/

@[simp] theorem State.emit_params (r : OutRecord) : (s.emit r).params = s.params := rfl
@[simp] theorem State.emit_rom (r : OutRecord) : (s.emit r).rom = s.rom := rfl
@[simp] theorem State.emit_cfg (r : OutRecord) : (s.emit r).cfg = s.cfg := rfl
@[simp] theorem State.emit_tables (r : OutRecord) : (s.emit r).tables = s.tables := rfl
@[simp] theorem State.emit_enumPos (r : OutRecord) : (s.emit r).enumPos = s.enumPos := rfl
@[simp] theorem State.emit_fault (r : OutRecord) : (s.emit r).fault = s.fault := rfl
@[simp] theorem State.emit_temps (r : OutRecord) : (s.emit r).temps = s.temps := rfl
@[simp] theorem State.emit_inbox (r : OutRecord) : (s.emit r).inbox = s.inbox := rfl
@[simp] theorem State.emit_responses (r : OutRecord) : (s.emit r).responses = s.responses := rfl
@[simp] theorem State.emit_output (r : OutRecord) : (s.emit r).output = s.output ++ [r] := rfl

/-! ### `State.freshSession` -/

@[simp] theorem State.freshSession_params : (s.freshSession).params = s.params := rfl
@[simp] theorem State.freshSession_rom : (s.freshSession).rom = s.rom := rfl
@[simp] theorem State.freshSession_cfg : (s.freshSession).cfg = {} := rfl
@[simp] theorem State.freshSession_tables : (s.freshSession).tables = none := rfl
@[simp] theorem State.freshSession_enumPos : (s.freshSession).enumPos = none := rfl
@[simp] theorem State.freshSession_fault : (s.freshSession).fault = none := rfl
@[simp] theorem State.freshSession_temps : (s.freshSession).temps = {} := rfl
@[simp] theorem State.freshSession_inbox : (s.freshSession).inbox = s.inbox := rfl
@[simp] theorem State.freshSession_responses : (s.freshSession).responses = s.responses := rfl
@[simp] theorem State.freshSession_output : (s.freshSession).output = s.output := rfl

/-! ### `State.attach` -/

@[simp] theorem State.attach_params (img : Image) : (s.attach img).params = s.params := rfl
@[simp] theorem State.attach_rom (img : Image) : (s.attach img).rom = some img := rfl
@[simp] theorem State.attach_cfg (img : Image) : (s.attach img).cfg = s.cfg := rfl
@[simp] theorem State.attach_tables (img : Image) : (s.attach img).tables = s.tables := rfl
@[simp] theorem State.attach_enumPos (img : Image) : (s.attach img).enumPos = s.enumPos := rfl
@[simp] theorem State.attach_fault (img : Image) : (s.attach img).fault = s.fault := rfl
@[simp] theorem State.attach_temps (img : Image) : (s.attach img).temps = s.temps := rfl
@[simp] theorem State.attach_inbox (img : Image) : (s.attach img).inbox = s.inbox := rfl
@[simp] theorem State.attach_responses (img : Image) : (s.attach img).responses = s.responses := rfl
@[simp] theorem State.attach_output (img : Image) : (s.attach img).output = s.output := rfl

/-! ### `State.present` -/

@[simp] theorem State.present_params (w : PortWord) : (s.present w).params = s.params := rfl
@[simp] theorem State.present_rom (w : PortWord) : (s.present w).rom = s.rom := rfl
@[simp] theorem State.present_cfg (w : PortWord) : (s.present w).cfg = s.cfg := rfl
@[simp] theorem State.present_tables (w : PortWord) : (s.present w).tables = s.tables := rfl
@[simp] theorem State.present_enumPos (w : PortWord) : (s.present w).enumPos = s.enumPos := rfl
@[simp] theorem State.present_fault (w : PortWord) : (s.present w).fault = s.fault := rfl
@[simp] theorem State.present_temps (w : PortWord) : (s.present w).temps = s.temps := rfl
@[simp] theorem State.present_inbox (w : PortWord) : (s.present w).inbox = w :: s.inbox := rfl
@[simp] theorem State.present_responses (w : PortWord) : (s.present w).responses = s.responses := rfl
@[simp] theorem State.present_output (w : PortWord) : (s.present w).output = s.output := rfl

/-! ### `State.withTemps` -/

@[simp] theorem State.withTemps_params (t : Temps) : (s.withTemps t).params = s.params := rfl
@[simp] theorem State.withTemps_rom (t : Temps) : (s.withTemps t).rom = s.rom := rfl
@[simp] theorem State.withTemps_cfg (t : Temps) : (s.withTemps t).cfg = s.cfg := rfl
@[simp] theorem State.withTemps_tables (t : Temps) : (s.withTemps t).tables = s.tables := rfl
@[simp] theorem State.withTemps_enumPos (t : Temps) : (s.withTemps t).enumPos = s.enumPos := rfl
@[simp] theorem State.withTemps_fault (t : Temps) : (s.withTemps t).fault = s.fault := rfl
@[simp] theorem State.withTemps_temps (t : Temps) : (s.withTemps t).temps = t := rfl
@[simp] theorem State.withTemps_inbox (t : Temps) : (s.withTemps t).inbox = s.inbox := rfl
@[simp] theorem State.withTemps_responses (t : Temps) : (s.withTemps t).responses = s.responses := rfl
@[simp] theorem State.withTemps_output (t : Temps) : (s.withTemps t).output = s.output := rfl

/-! ### The flags see only what they are made of -/

@[simp] theorem State.respond_faulted (code : RespCode) (r0 : BitVec 24) (r1 : BitVec 8) (r2 : BitVec 16) :
    (s.respond code r0 r1 r2).faulted = s.faulted := rfl
@[simp] theorem State.respond_setupDone (code : RespCode) (r0 : BitVec 24) (r1 : BitVec 8) (r2 : BitVec 16) :
    (s.respond code r0 r1 r2).setupDone = s.setupDone := rfl
@[simp] theorem State.respond_enumUsed (code : RespCode) (r0 : BitVec 24) (r1 : BitVec 8) (r2 : BitVec 16) :
    (s.respond code r0 r1 r2).enumUsed = s.enumUsed := rfl
@[simp] theorem State.respond_mapperValid (code : RespCode) (r0 : BitVec 24) (r1 : BitVec 8) (r2 : BitVec 16) :
    (s.respond code r0 r1 r2).mapperValid = s.mapperValid := rfl

end Sys2Proof.Machine
end

