-- ==== Sys2Proof/Laws/Control.lean ====
section
/-! SUPPORT. What the shared operations of a command can do: sequencing, the checks a command begins with, taking an error,
register accesses, and the shape of a decoder command. -/

namespace Sys2Proof.Machine

/-! ### Sequencing -/

theorem bind_eq_ok {α β : Type} {x : Except Abort α} {f : α → Except Abort β} {b : β} :
    (x >>= f) = .ok b ↔ ∃ a, x = .ok a ∧ f a = .ok b := by
  cases x <;> simp [bind, Except.bind]

theorem bind_eq_error {α β : Type} {x : Except Abort α} {f : α → Except Abort β} {e : Abort} :
    (x >>= f) = .error e ↔ x = .error e ∨ ∃ a, x = .ok a ∧ f a = .error e := by
  cases x <;> simp [bind, Except.bind]

@[simp] theorem ok_bind {α β : Type} (a : α) (f : α → Except Abort β) : (Except.ok a >>= f) = f a := rfl

@[simp] theorem error_bind {α β : Type} (e : Abort) (f : α → Except Abort β) :
    ((Except.error e : Except Abort α) >>= f) = .error e := rfl

@[simp] theorem pure_eq_ok {α : Type} (a : α) : (pure a : Except Abort α) = .ok a := rfl

/-! ### Taking an error (R254, R255) -/

@[simp] theorem State.abort_call (s : State) (e : CallError) : s.abort (.call e) = .next (s.respond e.code 0#24 0#8 0#16) :=
  rfl

@[simp] theorem State.abort_session (s : State) (e : SessionError) (info : BitVec 24) :
    s.abort (.session e info) = .next ({ s with fault := some ⟨e, info⟩ }.respond e.code info 0#8 0#16) := rfl

@[simp] theorem State.abort_endless (s : State) : s.abort .endless = .fault .endlessWalk := rfl

/-- Everything taking an error can answer as a next state. -/
theorem State.abort_next {s t : State} {a : Abort} (h : s.abort a = .next t) :
    (∃ e, a = .call e ∧ t = s.respond e.code 0#24 0#8 0#16) ∨
    (∃ e info, a = .session e info ∧ t = { s with fault := some ⟨e, info⟩ }.respond e.code info 0#8 0#16) := by
  cases a with
  | call e => exact .inl ⟨e, rfl, by simpa [eq_comm] using h⟩
  | session e info => exact .inr ⟨e, info, rfl, by simpa [eq_comm] using h⟩
  | endless => simp at h

@[simp] theorem State.conclude_ok (s t : State) : s.conclude (.ok t) = .next t := rfl
@[simp] theorem State.conclude_error (s : State) (a : Abort) : s.conclude (.error a) = s.abort a := rfl

/-- A command that ends in a next state ran to it, or took an error. -/
theorem State.conclude_next {s t : State} {r : Except Abort State} (h : s.conclude r = .next t) :
    r = .ok t ∨ ∃ a, r = .error a ∧ s.abort a = .next t := by
  cases r with
  | ok u => exact .inl (by simpa using h)
  | error a => exact .inr ⟨a, rfl, h⟩

/-! ### The checks a command begins with (R253) -/

@[simp] theorem State.guardFaulted_of_none {s : State} (h : s.fault = none) : s.guardFaulted = .ok () := by
  simp [State.guardFaulted, State.faulted, h]

@[simp] theorem State.guardFaulted_of_some {s : State} {f : FaultRecord} (h : s.fault = some f) :
    s.guardFaulted = .error (.call .faulted) := by simp [State.guardFaulted, State.faulted, h]

theorem State.guardFaulted_ok {s : State} {u : Unit} (h : s.guardFaulted = .ok u) : s.fault = none := by
  cases hf : s.fault with
  | none => rfl
  | some f => rw [State.guardFaulted_of_some hf] at h; cases h

theorem State.guardFaulted_error {s : State} {a : Abort} (h : s.guardFaulted = .error a) :
    s.fault.isSome = true ∧ a = .call .faulted := by
  cases hf : s.fault with
  | none => rw [State.guardFaulted_of_none hf] at h; cases h
  | some f => rw [State.guardFaulted_of_some hf] at h; cases h; exact ⟨rfl, rfl⟩

theorem State.needMapper_ok {s : State} {m : Mapper} (h : s.needMapper = .ok m) :
    ∃ b, s.cfg.mapper = some b ∧ m = Mapper.ofBit b := by
  unfold State.needMapper at h
  split at h
  · rename_i b hb; cases h; exact ⟨b, hb, rfl⟩
  · cases h

theorem State.needMapper_error {s : State} {a : Abort} (h : s.needMapper = .error a) :
    s.cfg.mapper = none ∧ a = .call .state := by
  unfold State.needMapper at h
  split at h
  · cases h
  · rename_i hb; cases h; exact ⟨hb, rfl⟩

theorem State.needConfig_ok {s : State} {c : FullCfg} : s.needConfig = .ok c ↔ s.cfg.full = some c := by
  unfold State.needConfig
  split <;> simp_all

theorem State.needConfig_error {s : State} {a : Abort} (h : s.needConfig = .error a) :
    s.cfg.full = none ∧ a = .call .state := by
  unfold State.needConfig at h
  split at h
  · cases h
  · rename_i hb; cases h; exact ⟨hb, rfl⟩

theorem State.needUnlocked_ok {s : State} {u : Unit} (h : s.needUnlocked = .ok u) : s.tables = none := by
  unfold State.needUnlocked State.setupDone at h
  split at h
  · cases h
  · exact Option.not_isSome_iff_eq_none.mp ‹¬ s.tables.isSome = true›

theorem State.needUnlocked_error {s : State} {a : Abort} (h : s.needUnlocked = .error a) :
    s.tables.isSome = true ∧ a = .call .state := by
  unfold State.needUnlocked State.setupDone at h
  split at h
  · cases h; exact ⟨‹_›, rfl⟩
  · cases h

theorem State.needEnum_ok {s : State} {e : EnumPos} : s.needEnum = .ok e ↔ s.enumPos = some e := by
  unfold State.needEnum
  split <;> simp_all

theorem State.needEnum_error {s : State} {a : Abort} (h : s.needEnum = .error a) :
    s.enumPos = none ∧ a = .call .state := by
  unfold State.needEnum at h
  split at h
  · cases h
  · rename_i hb; cases h; exact ⟨hb, rfl⟩

theorem State.needTables_ok {s : State} {t : Tables} : s.needTables = .ok t ↔ s.tables = some t := by
  unfold State.needTables
  split <;> simp_all

theorem State.needTables_error {s : State} {a : Abort} (h : s.needTables = .error a) :
    s.tables = none ∧ a = .call .state := by
  unfold State.needTables at h
  split at h
  · cases h
  · rename_i hb; cases h; exact ⟨hb, rfl⟩

theorem State.needImage_ok {s : State} {img : Image} : s.needImage = .ok img ↔ s.rom = some img := by
  unfold State.needImage
  split <;> simp_all

theorem State.needImage_error {s : State} {a : Abort} (h : s.needImage = .error a) :
    s.rom = none ∧ a = .session .io 0#24 := by
  unfold State.needImage at h
  split at h
  · cases h
  · rename_i hb; cases h; exact ⟨hb, rfl⟩

/-- The check of a faulted block, as the statements speak of one. -/
theorem State.guardFaulted_of_isSome {s : State} (h : s.fault.isSome = true) :
    s.guardFaulted = .error (.call .faulted) := by
  obtain ⟨f, hf⟩ := Option.isSome_iff_exists.mp h
  exact State.guardFaulted_of_some hf

/-! ### The configuration (R22, R28) -/

/-- Everything `DELIM[0]` to `DELIM[n - 1]` can be: one code for each of the places, in order. -/
theorem Cfg.delimList_some {c : Cfg} {n : Nat} {ds : List Code} (h : c.delimList n = some ds) :
    ds.length = n ∧ ∀ i, i < n → ds[i]? = c.delimAt i := by
  induction n generalizing ds with
  | zero => cases h; simp
  | succ n ih =>
    obtain ⟨es, he, h⟩ := Option.bind_eq_some_iff.mp h
    obtain ⟨d, hd, h⟩ := Option.bind_eq_some_iff.mp h
    cases h
    obtain ⟨h1, h2⟩ := ih he
    refine ⟨by simp [h1], fun i hi => ?_⟩
    by_cases hl : i < n
    · rw [List.getElem?_append_left (by omega)]
      exact h2 i hl
    · obtain rfl : i = n := by omega
      rw [List.getElem?_append_right (by omega)]
      simp [h1, hd]

/-- Everything a complete configuration can be: each register it needs holds a value, and it has these values. -/
theorem Cfg.full_some {c : Cfg} {f : FullCfg} (h : c.full = some f) :
    ∃ (mapper variant : BitVec 1) (n : BitVec 5),
      c = ⟨some mapper, some variant, some f.addrGroup, some f.addrShiftbit, some f.addrMessage, some f.addrOff,
        some f.addrOn, some f.root, some f.readSize, some f.decodeMask, some f.idFirst, some f.idLast, some n, c.delims⟩ ∧
      f.mapper = Mapper.ofBit mapper ∧ f.variant = Variant.ofBit variant ∧ c.delimList n.toNat = some f.delims := by
  obtain ⟨c1, c2, c3, c4, c5, c6, c7, c8, c9, c10, c11, c12, c13, ds⟩ := c
  obtain ⟨mapper, h1, h⟩ := Option.bind_eq_some_iff.mp h
  obtain ⟨variant, h2, h⟩ := Option.bind_eq_some_iff.mp h
  obtain ⟨a3, h3, h⟩ := Option.bind_eq_some_iff.mp h
  obtain ⟨a4, h4, h⟩ := Option.bind_eq_some_iff.mp h
  obtain ⟨a5, h5, h⟩ := Option.bind_eq_some_iff.mp h
  obtain ⟨a6, h6, h⟩ := Option.bind_eq_some_iff.mp h
  obtain ⟨a7, h7, h⟩ := Option.bind_eq_some_iff.mp h
  obtain ⟨a8, h8, h⟩ := Option.bind_eq_some_iff.mp h
  obtain ⟨a9, h9, h⟩ := Option.bind_eq_some_iff.mp h
  obtain ⟨a10, h10, h⟩ := Option.bind_eq_some_iff.mp h
  obtain ⟨a11, h11, h⟩ := Option.bind_eq_some_iff.mp h
  obtain ⟨a12, h12, h⟩ := Option.bind_eq_some_iff.mp h
  obtain ⟨n, h13, h⟩ := Option.bind_eq_some_iff.mp h
  obtain ⟨ds', h14, h⟩ := Option.bind_eq_some_iff.mp h
  cases h
  dsimp only at h1 h2 h3 h4 h5 h6 h7 h8 h9 h10 h11 h12 h13
  subst h1 h2 h3 h4 h5 h6 h7 h8 h9 h10 h11 h12 h13
  exact ⟨mapper, variant, n, rfl, rfl, rfl, h14⟩

/-! ### Register accesses (R236, R238) -/

/-- A configuration register is read through the configuration (R238). -/
@[simp] theorem State.readReg_cfg (s : State) (r : CfgReg) : s.readReg (.cfg r) = s.cfg.get r := rfl

/-- Everything reading a register can do. -/
theorem State.accessRead_next {s t : State} {r : Reg} (h : s.accessRead r = .next t) :
    (r.present s.params = true ∧ ∃ value, s.readReg r = some value ∧ t = s.respond .ok value 0#8 0#16) ∨
    (r.present s.params = true ∧ s.readReg r = none ∧ t = s.respond .state 0#24 0#8 0#16) ∨
    (r.present s.params = false ∧ t = s.respond .illegal 0#24 0#8 0#16) := by
  unfold State.accessRead at h
  split at h
  · rename_i hp
    split at h
    · rename_i value hv
      exact .inl ⟨hp, value, hv, by simpa [eq_comm] using h⟩
    · rename_i hv
      exact .inr (.inl ⟨hp, hv, by simpa [CallError.code, eq_comm] using h⟩)
  · rename_i hp
    exact .inr (.inr ⟨by simpa using hp, by simpa [CallError.code, eq_comm] using h⟩)

/-- Everything writing a register can do. -/
theorem State.accessWrite_next {s t : State} {r : CfgReg} {value : BitVec 24} (h : s.accessWrite r value = .next t) :
    (r.legal s.params value = true ∧ s.fault = none ∧ s.tables = none ∧
      t = { s with cfg := s.cfg.set r value }.respond .ok 0#24 0#8 0#16) ∨
    (r.legal s.params value = true ∧ s.fault.isSome = true ∧ t = s.respond .faulted 0#24 0#8 0#16) ∨
    (r.legal s.params value = true ∧ s.fault = none ∧ s.tables.isSome = true ∧ t = s.respond .state 0#24 0#8 0#16) ∨
    (r.legal s.params value = false ∧ t = s.respond .illegal 0#24 0#8 0#16) := by
  unfold State.accessWrite at h
  split at h
  · rename_i hl
    obtain hf | ⟨f, hf⟩ := Option.eq_none_or_eq_some s.fault
    · rw [State.guardFaulted_of_none hf] at h
      obtain ht | ⟨tb, ht⟩ := Option.eq_none_or_eq_some s.tables
      · exact .inl ⟨hl, hf, ht, by simpa [State.needUnlocked, State.setupDone, ht, eq_comm] using h⟩
      · exact .inr (.inr (.inl ⟨hl, hf, by simp [ht],
          by simpa [State.needUnlocked, State.setupDone, ht, CallError.code, eq_comm] using h⟩))
    · rw [State.guardFaulted_of_some hf] at h
      exact .inr (.inl ⟨hl, by simp [hf], by simpa [CallError.code, eq_comm] using h⟩)
  · rename_i hl
    exact .inr (.inr (.inr ⟨by simpa using hl, by simpa [CallError.code, eq_comm] using h⟩))

/-! ### The shape of a decoder command (R183, R253) -/

/-- What holds once the checks of a decoder command have passed. -/
theorem State.ready_ok {s : State} {check : FullCfg → Except Abort Unit} {c : FullCfg} {img : Image}
    (h : s.ready check = .ok (c, img)) :
    s.fault = none ∧ s.cfg.full = some c ∧ check c = .ok () ∧ s.rom = some img := by
  unfold State.ready at h
  obtain ⟨u, h1, h⟩ := bind_eq_ok.mp h
  obtain ⟨c', h2, h⟩ := bind_eq_ok.mp h
  obtain ⟨u', h3, h⟩ := bind_eq_ok.mp h
  obtain ⟨img', h4, h⟩ := bind_eq_ok.mp h
  cases h
  exact ⟨State.guardFaulted_ok h1, State.needConfig_ok.mp h2, h3, State.needImage_ok.mp h4⟩

theorem State.ready_of {s : State} {check : FullCfg → Except Abort Unit} {c : FullCfg} {img : Image}
    (hf : s.fault = none) (hc : s.cfg.full = some c) (hk : check c = .ok ()) (hi : s.rom = some img) :
    s.ready check = .ok (c, img) := by
  simp [State.ready, State.guardFaulted_of_none hf, State.needConfig_ok.mpr hc, hk, State.needImage_ok.mpr hi]

/-- Which check of a decoder command fails, and with what error. -/
theorem State.ready_error {s : State} {check : FullCfg → Except Abort Unit} {a : Abort}
    (h : s.ready check = .error a) :
    (s.fault.isSome = true ∧ a = .call .faulted) ∨
    (s.fault = none ∧ s.cfg.full = none ∧ a = .call .state) ∨
    (s.fault = none ∧ ∃ c, s.cfg.full = some c ∧ check c = .error a) ∨
    (s.fault = none ∧ ∃ c, s.cfg.full = some c ∧ check c = .ok () ∧ s.rom = none ∧ a = .session .io 0#24) := by
  unfold State.ready at h
  rcases bind_eq_error.mp h with h | ⟨_, h1, h⟩
  · exact .inl (State.guardFaulted_error h)
  have hf := State.guardFaulted_ok h1
  rcases bind_eq_error.mp h with h | ⟨c, h2, h⟩
  · exact .inr (.inl ⟨hf, State.needConfig_error h⟩)
  have hc := State.needConfig_ok.mp h2
  rcases bind_eq_error.mp h with h | ⟨_, h3, h⟩
  · exact .inr (.inr (.inl ⟨hf, c, hc, h⟩))
  rcases bind_eq_error.mp h with h | ⟨img, h4, h⟩
  · exact .inr (.inr (.inr ⟨hf, c, hc, h3, State.needImage_error h⟩))
  · cases h

/-- Everything a decoder command can do. -/
theorem State.decoderCommand_next {s t : State} {check : FullCfg → Except Abort Unit}
    {body : Decoder → State → Except Abort State} (h : s.decoderCommand check body = .next t) :
    (∃ a, s.ready check = .error a ∧ s.abort a = .next t) ∨
    (∃ c img a, s.ready check = .ok (c, img) ∧ s.ensureSetup c img = .error a ∧ s.abort a = .next t) ∨
    (∃ c img tb, s.ready check = .ok (c, img) ∧ s.ensureSetup c img = .ok tb ∧
      { s with tables := some tb }.conclude (body ⟨s.params, img, c, tb⟩ { s with tables := some tb }) = .next t) := by
  unfold State.decoderCommand at h
  split at h
  · rename_i a ha; exact .inl ⟨a, ha, h⟩
  · rename_i c img hr
    unfold State.withSetup at h
    split at h
    · rename_i a ha; exact .inr (.inl ⟨c, img, a, hr, ha, h⟩)
    · rename_i tb ht; exact .inr (.inr ⟨c, img, tb, hr, ht, h⟩)

theorem State.decoderCommand_of_ready {s : State} {check : FullCfg → Except Abort Unit}
    {body : Decoder → State → Except Abort State} {c : FullCfg} {img : Image} {tb : Tables}
    (hr : s.ready check = .ok (c, img)) (ht : s.ensureSetup c img = .ok tb) :
    s.decoderCommand check body =
      { s with tables := some tb }.conclude (body ⟨s.params, img, c, tb⟩ { s with tables := some tb }) := by
  simp [State.decoderCommand, hr, State.withSetup, ht]

end Sys2Proof.Machine
end

