-- ==== Sys2Proof/Laws/Memory.lean ====
section
/-! SUPPORT. Laws of the ROM image: every operation keeps the canonical form, a byte reads as what was put there, and a
read returns the bytes that exist. -/

namespace Sys2Proof.Machine

/-! ### The canonical form -/

theorem cellsWf_mono {low low' : Nat} {cells : List Host.Cell} (h : cellsWf low cells = true) (hl : low' ≤ low) :
    cellsWf low' cells = true := by
  cases cells with
  | nil => rfl
  | cons c rest =>
    obtain ⟨a, b⟩ := c
    simp only [cellsWf, Bool.and_eq_true, decide_eq_true_eq, bne_iff_ne] at h ⊢
    exact ⟨⟨by omega, h.1.2⟩, h.2⟩

/-- Below the least listed offset every byte is unlisted. -/
theorem cellsRead_of_lt {low off : Nat} {cells : List Host.Cell} (h : cellsWf low cells = true) (hl : off < low) :
    cellsRead cells off = unlistedByte := by
  induction cells generalizing low with
  | nil => rfl
  | cons c rest ih =>
    obtain ⟨a, b⟩ := c
    simp only [cellsWf, Bool.and_eq_true, decide_eq_true_eq, bne_iff_ne] at h
    have : a ≠ off := by omega
    simp only [cellsRead, this, if_false]
    exact ih h.2 (by omega)

/-- Writing a byte keeps the canonical form. -/
theorem cellsWrite_wf {low off : Nat} {cells : List Host.Cell} (b : Byte) (h : cellsWf low cells = true)
    (hl : low ≤ off) : cellsWf low (cellsWrite cells off b) = true := by
  induction cells generalizing low with
  | nil =>
    simp only [cellsWrite]
    split
    · rfl
    · rename_i hb
      simp [cellsWf, hl, hb]
  | cons c rest ih =>
    obtain ⟨a, v⟩ := c
    simp only [cellsWf, Bool.and_eq_true, decide_eq_true_eq, bne_iff_ne] at h
    obtain ⟨⟨h1, h2⟩, h3⟩ := h
    simp only [cellsWrite]
    split
    · rename_i hlt
      simp only [cellsWf, Bool.and_eq_true, decide_eq_true_eq, bne_iff_ne]
      exact ⟨⟨h1, h2⟩, ih h3 (by omega)⟩
    · rename_i hge
      have tail_wf : cellsWf (off + 1) (if a = off then rest else (a, v) :: rest) = true := by
        split
        · rename_i he
          exact he ▸ h3
        · simp only [cellsWf, Bool.and_eq_true, decide_eq_true_eq, bne_iff_ne]
          exact ⟨⟨by omega, h2⟩, h3⟩
      split
      · exact cellsWf_mono tail_wf (by omega)
      · rename_i hb
        simp only [cellsWf, Bool.and_eq_true, decide_eq_true_eq, bne_iff_ne]
        exact ⟨⟨hl, hb⟩, tail_wf⟩

/-- A byte written reads as itself, and every other byte as before. -/
theorem cellsRead_cellsWrite {low off : Nat} {cells : List Host.Cell} (b : Byte) (h : cellsWf low cells = true)
    (at_ : Nat) : cellsRead (cellsWrite cells off b) at_ = if at_ = off then b else cellsRead cells at_ := by
  induction cells generalizing low with
  | nil =>
    by_cases hb : b = unlistedByte
    · simp [cellsWrite, cellsRead, hb]
    · by_cases ha : at_ = off
      · subst ha; simp [cellsWrite, cellsRead, hb]
      · simp [cellsWrite, cellsRead, hb, ha, Ne.symm ha]
  | cons c rest ih =>
    obtain ⟨a, v⟩ := c
    simp only [cellsWf, Bool.and_eq_true, decide_eq_true_eq, bne_iff_ne] at h
    simp only [cellsWrite]
    split
    · rename_i hlt
      simp only [cellsRead, ih h.2]
      by_cases ha : a = at_
      · have : at_ ≠ off := by omega
        simp [ha, this]
      · simp [ha]
    · rename_i hge
      have hrest : ∀ x, x < a + 1 → cellsRead rest x = unlistedByte := fun x hx => cellsRead_of_lt h.2 hx
      by_cases ha : a = off
      · subst ha
        by_cases hb : b = unlistedByte <;> by_cases hx : at_ = a
        · subst hx; simp [hb, hrest]
        · simp [hb, hx, cellsRead, Ne.symm hx]
        · subst hx; simp [hb, cellsRead]
        · simp [hb, hx, cellsRead, Ne.symm hx]
      · by_cases hb : b = unlistedByte <;> by_cases hx : at_ = off
        · subst hx
          simp [hb, ha, cellsRead, hrest at_ (by omega)]
        · simp [hb, ha, hx]
        · subst hx; simp [hb, cellsRead]
        · simp [hb, ha, hx, cellsRead, Ne.symm hx]

theorem cellsWrite_lt {cells : List Host.Cell} {off size : Nat} (b : Byte) (ho : off < size)
    (h : ∀ c ∈ cells, c.1 < size) : ∀ c ∈ cellsWrite cells off b, c.1 < size := by
  induction cells with
  | nil =>
    intro c hc
    simp only [cellsWrite] at hc
    split at hc
    · cases hc
    · rw [List.mem_singleton.mp hc]; exact ho
  | cons x rest ih =>
    obtain ⟨a, v⟩ := x
    have hr : ∀ c ∈ rest, c.1 < size := fun c hc => h c (List.mem_cons_of_mem _ hc)
    have ha : a < size := h (a, v) List.mem_cons_self
    intro c hc
    simp only [cellsWrite] at hc
    split at hc
    · rcases List.mem_cons.mp hc with rfl | hc
      · exact ha
      · exact ih hr c hc
    · have htail : ∀ c ∈ (if a = off then rest else (a, v) :: rest), c.1 < size := by
        intro c hc
        split at hc
        · exact hr c hc
        · exact h c hc
      split at hc
      · exact htail c hc
      · rcases List.mem_cons.mp hc with rfl | hc
        · exact ho
        · exact htail c hc

/-! ### Images -/

/-- Putting a byte into an image keeps its canonical form and its size. -/
theorem Image.load_wf {img : Image} (off : Nat) (b : Byte) (h : img.wf = true) : (img.load off b).wf = true := by
  unfold Image.load
  split
  · rename_i ho
    simp only [Image.wf, Bool.and_eq_true, List.all_eq_true, decide_eq_true_eq] at h ⊢
    exact ⟨⟨cellsWrite_wf b h.1.1 (by omega), cellsWrite_lt b ho h.1.2⟩, h.2⟩
  · exact h

@[simp] theorem Image.load_size (img : Image) (off : Nat) (b : Byte) : (img.load off b).size = img.size := by
  unfold Image.load
  split <;> rfl

/-- Putting bytes into an image keeps its canonical form. -/
theorem Image.loadBytes_wf {img : Image} (off : Nat) (bytes : List Byte) (h : img.wf = true) :
    (img.loadBytes off bytes).wf = true := by
  induction bytes generalizing img off with
  | nil => exact h
  | cons b rest ih => exact ih (off + 1) (Image.load_wf off b h)

theorem Image.blank_wf {size : Nat} (h : size ≤ maxRomSize) : (Image.blank size).wf = true := by
  simp [Image.wf, Image.blank, cellsWf, h]

/-- Read after write on an image: the byte put there, and every other byte as before. -/
theorem Image.byteAt_load {img : Image} (h : img.wf = true) (off : Nat) (b : Byte) (ho : off < img.size) (a : Nat) :
    (img.load off b).byteAt a = if a = off then some b else img.byteAt a := by
  simp only [Image.wf, Bool.and_eq_true] at h
  simp only [Image.byteAt, Image.load, ho, if_true, cellsRead_cellsWrite b h.1.1]
  by_cases hx : a = off
  · subst hx; simp [ho]
  · simp [hx]

/-! ### Reads -/

@[simp] theorem romRead_length (img : Image) (off n : Nat) : (romRead img off n).length = min n (img.size - off) := by
  simp [romRead]

theorem romRead_eq_nil_iff (img : Image) (off n : Nat) (hn : 0 < n) : romRead img off n = [] ↔ img.size ≤ off := by
  rw [← List.length_eq_zero_iff, romRead_length]
  omega

/-- The k-th byte of a read is the byte of the image at that offset. -/
theorem romRead_getElem? (img : Image) (off n k : Nat) (hk : k < n) :
    (romRead img off n)[k]? = img.byteAt (off + k) := by
  simp only [romRead, List.getElem?_map, Image.byteAt]
  by_cases h : off + k < img.size
  · have : k < min n (img.size - off) := by omega
    simp [h, this]
  · have : ¬ k < min n (img.size - off) := by omega
    simp [h, this]

/-- A read is its first byte and the read after it. -/
theorem romRead_succ (img : Image) (off n : Nat) (h : off < img.size) :
    romRead img off (n + 1) = cellsRead img.cells off :: romRead img (off + 1) n := by
  have : min (n + 1) (img.size - off) = min n (img.size - (off + 1)) + 1 := by omega
  simp [romRead, this, List.range'_succ]

theorem romRead_past (img : Image) (off n : Nat) (h : img.size ≤ off) : romRead img off n = [] := by
  have : min n (img.size - off) = 0 := by omega
  simp [romRead, this]

/-! ### Bytes -/

@[simp] theorem leValue_nil : leValue [] = 0 := rfl
@[simp] theorem leValue_cons (b : Byte) (rest : List Byte) : leValue (b :: rest) = b.toNat + 256 * leValue rest := rfl

theorem leValue_lt (bytes : List Byte) : leValue bytes < 256 ^ bytes.length := by
  induction bytes with
  | nil => simp
  | cons b rest ih =>
    have := b.isLt
    simp only [leValue_cons, List.length_cons, Nat.pow_succ]
    omega

theorem getInt_lt (bytes : List Byte) (index length : Nat) : getInt bytes index length < 256 ^ length := by
  refine lt_of_lt_of_le (leValue_lt _) (Nat.pow_le_pow_right (by omega) ?_)
  simp

@[simp] theorem getInt_zero_length (bytes : List Byte) (index : Nat) : getInt bytes index 0 = 0 := by
  simp [getInt]

theorem getInt_past (bytes : List Byte) (index length : Nat) (h : bytes.length ≤ index) :
    getInt bytes index length = 0 := by
  simp [getInt, List.drop_eq_nil_of_le h]

end Sys2Proof.Machine
end

