-- ==== Sys2Proof/Laws/Decoder.lean ====
section
/-! SUPPORT. What the operations of the mapper and of the decoder can do: their successes and their errors, said once. -/

namespace Sys2Proof.Machine

open Sys2Proof

/-! ### Addresses (R153, R157, R159) -/

theorem incrementAddress_top (m : Mapper) : incrementAddress m 0xFFFFFF#24 = .error (.session .addrOvf 0xFFFFFF#24) := by
  simp [incrementAddress]

/-- An increment that answers went up. -/
theorem incrementAddress_ok {m : Mapper} {a b : CpuAddr} (h : incrementAddress m a = .ok b) :
    a ≠ 0xFFFFFF#24 ∧ a.toNat < b.toNat := by
  unfold incrementAddress at h
  split at h
  · cases h
  · rename_i hne
    refine ⟨hne, ?_⟩
    have hlt : a.toNat < 2 ^ 24 - 1 := by
      have := a.isLt
      have : a.toNat ≠ 0xFFFFFF := fun hh => hne (BitVec.eq_of_toNat_eq hh)
      omega
    have hs : (a + 1#24).toNat = a.toNat + 1 := by
      rw [BitVec.toNat_add]
      simp only [BitVec.toNat_ofNat]
      omega
    cases m with
    | hirom => simp only [Except.ok.injEq] at h; rw [← h, hs]; omega
    | lorom =>
      simp only [Except.ok.injEq] at h
      split at h
      · rw [← h, BitVec.toNat_or, hs]
        exact Nat.lt_of_lt_of_le (Nat.lt_succ_self _) Nat.left_le_or
      · rw [← h, hs]; omega

theorem incrementAddress_error {m : Mapper} {a : CpuAddr} {e : Abort} (h : incrementAddress m a = .error e) :
    a = 0xFFFFFF#24 ∧ e = .session .addrOvf a := by
  unfold incrementAddress at h
  split at h
  · rename_i ha; cases h; exact ⟨ha, rfl⟩
  · cases m <;> cases h

theorem addAddress_ok {base a : CpuAddr} {off : Nat} (h : addAddress base off = .ok a) :
    base.toNat + off ≤ 0xFFFFFF ∧ a = BitVec.ofNat 24 (base.toNat + off) := by
  unfold addAddress at h
  split at h
  · cases h
  · cases h; exact ⟨by omega, rfl⟩

theorem addAddress_error {base : CpuAddr} {off : Nat} {e : Abort} (h : addAddress base off = .error e) :
    0xFFFFFF < base.toNat + off ∧ e = .session .addrOvf base := by
  unfold addAddress at h
  split at h
  · cases h; exact ⟨by omega, rfl⟩
  · cases h

/-! ### Shifts (R195) -/

theorem checkShift_ok {m : Byte} {u : Unit} : checkShift m = .ok u ↔ singleBit m = true := by
  unfold checkShift
  split <;> simp_all

theorem checkShift_error {m : Byte} {e : Abort} (h : checkShift m = .error e) :
    singleBit m = false ∧ e = .session .badShift (m.setWidth 24) := by
  unfold checkShift at h
  split at h
  · cases h
  · rename_i hs; cases h; exact ⟨by simpa using hs, rfl⟩

/-- The single-bit masks, one by one. -/
theorem singleBit_iff {m : Byte} : singleBit m = true ↔
    m = 0x01#8 ∨ m = 0x02#8 ∨ m = 0x04#8 ∨ m = 0x08#8 ∨ m = 0x10#8 ∨ m = 0x20#8 ∨ m = 0x40#8 ∨ m = 0x80#8 := by
  simp [singleBit]

/-- The single-bit masks as the set of R195. -/
theorem singleBit_iff_mem {m : Byte} :
    singleBit m = true ↔ m.toNat ∈ [0x01, 0x02, 0x04, 0x08, 0x10, 0x20, 0x40, 0x80] := by
  simp [singleBit_iff, ← BitVec.toNat_inj]

/-! ### One bit of the stream (R184 to R187) -/

theorem readBit_error {d : Decoder} {c : Cursor} {e : Abort} (h : readBit d c = .error e) :
    e = .session .romBounds (fromCpu d.params d.cfg.mapper c.address) := by
  unfold readBit at h
  dsimp only at h
  split at h
  · cases h; rfl
  · cases h

/-- An advance either moves inside the byte or increments the address and starts a byte. -/
theorem advance_ok {d : Decoder} {c c' : Cursor} (h : advance d c = .ok c') :
    (d.cfg.variant = .varW ∧ c.shift >>> 1 ≠ 0#8 ∧ c' = ⟨c.address, c.shift >>> 1⟩) ∨
    (d.cfg.variant = .varW ∧ c.shift >>> 1 = 0#8 ∧
      ∃ a, incrementAddress d.cfg.mapper c.address = .ok a ∧ c' = ⟨a, 0x80#8⟩) ∨
    (d.cfg.variant = .varV ∧ c.shift.toNat * 2 ≤ 0x80 ∧ c' = ⟨c.address, BitVec.ofNat 8 (c.shift.toNat * 2)⟩) ∨
    (d.cfg.variant = .varV ∧ 0x80 < c.shift.toNat * 2 ∧
      ∃ a, incrementAddress d.cfg.mapper c.address = .ok a ∧ c' = ⟨a, 0x01#8⟩) := by
  unfold advance at h
  split at h
  · rename_i hv
    dsimp only at h
    split at h
    · rename_i hs
      obtain ⟨a, ha, h⟩ := bind_eq_ok.mp h
      cases h
      exact .inr (.inl ⟨hv, hs, a, ha, rfl⟩)
    · rename_i hs
      cases h
      exact .inl ⟨hv, hs, rfl⟩
  · rename_i hv
    dsimp only at h
    split at h
    · rename_i hs
      obtain ⟨a, ha, h⟩ := bind_eq_ok.mp h
      cases h
      exact .inr (.inr (.inr ⟨hv, by omega, a, ha, rfl⟩))
    · rename_i hs
      cases h
      exact .inr (.inr (.inl ⟨hv, by omega, rfl⟩))

theorem advance_error {d : Decoder} {c : Cursor} {e : Abort} (h : advance d c = .error e) :
    c.address = 0xFFFFFF#24 ∧ e = .session .addrOvf c.address := by
  unfold advance at h
  split at h <;> dsimp only at h <;> split at h
  · rcases bind_eq_error.mp h with h | ⟨a, _, h⟩
    · exact incrementAddress_error h
    · cases h
  · cases h
  · rcases bind_eq_error.mp h with h | ⟨a, _, h⟩
    · exact incrementAddress_error h
    · cases h
  · cases h

/-! ### Characters and messages (R192, R198) -/

/-- One bit of the walk. -/
theorem walkTree_succ (d : Decoder) (f : Nat) (node : TreeWord) (c : Cursor) :
    walkTree d (f + 1) node c = (do
      let bit ← readBit d c
      let c' ← advance d c
      if isLeaf d.cfg.variant (lookup d bit node) then
        return (c', leafCode (lookup d bit node) d.cfg.decodeMask)
      else walkTree d f (nextNode d.cfg.variant (lookup d bit node)) c') := rfl

/-- A walk that ends in an error ran out of fuel, read past the image or went past the top of the CPU space. -/
theorem walkTree_error {d : Decoder} {f : Nat} {node : TreeWord} {c : Cursor} {e : Abort}
    (h : walkTree d f node c = .error e) :
    e = .endless ∨ ∃ info, e = .session .romBounds info ∨ e = .session .addrOvf info := by
  induction f generalizing node c with
  | zero => cases h; exact .inl rfl
  | succ f ih =>
    rw [walkTree_succ] at h
    rcases bind_eq_error.mp h with h | ⟨bit, _, h⟩
    · exact .inr ⟨_, .inl (readBit_error h)⟩
    rcases bind_eq_error.mp h with h | ⟨c', _, h⟩
    · exact .inr ⟨_, .inr (advance_error h).2⟩
    split at h
    · cases h
    · exact ih h

/-- One character of a message. -/
theorem collectCodes_succ (d : Decoder) (f : Nat) (c : Cursor) :
    collectCodes d (f + 1) c = (do
      let r ← decodeChar d c
      if d.cfg.delims.contains r.2 then return (r.1, [r.2])
      else
        let q ← collectCodes d f r.1
        return (q.1, r.2 :: q.2)) := rfl

theorem collectCodes_error {d : Decoder} {f : Nat} {c : Cursor} {e : Abort} (h : collectCodes d f c = .error e) :
    e = .endless ∨ ∃ info, e = .session .romBounds info ∨ e = .session .addrOvf info := by
  induction f generalizing c with
  | zero => cases h; exact .inl rfl
  | succ f ih =>
    rw [collectCodes_succ] at h
    rcases bind_eq_error.mp h with h | ⟨r, _, h⟩
    · exact walkTree_error h
    split at h
    · cases h
    · rcases bind_eq_error.mp h with h | ⟨q, _, h⟩
      · exact ih h
      · cases h

theorem decodeMessage_error {d : Decoder} {c : Cursor} {e : Abort} (h : decodeMessage d c = .error e) :
    e = .endless ∨ ∃ info, e = .session .romBounds info ∨ e = .session .addrOvf info := collectCodes_error h

/-- A message is never empty. -/
theorem collectCodes_ne_nil {d : Decoder} {f : Nat} {c c' : Cursor} {codes : List Code}
    (h : collectCodes d f c = .ok (c', codes)) : codes ≠ [] := by
  cases f with
  | zero => cases h
  | succ f =>
    rw [collectCodes_succ] at h
    obtain ⟨r, _, h⟩ := bind_eq_ok.mp h
    split at h
    · cases h; simp
    · obtain ⟨q, _, h⟩ := bind_eq_ok.mp h
      cases h; simp

/-! ### Setup and locate (R180, R223) -/

/-- The tables setup loads have the lengths it asserts (R181). -/
theorem runSetup_ok {p : Params} {img : Image} {c : FullCfg} {t : Tables} (h : runSetup p img c = .ok t) :
    shiftbitArray (tabRead p img c.mapper c.addrShiftbit 8) = some t.shiftbit ∧
    t.off = tabRead p img c.mapper c.addrOff (c.root.toNat + 2) ∧
    t.on = tabRead p img c.mapper c.addrOn (c.root.toNat + 2) ∧
    t.off.length = c.root.toNat + 2 ∧ t.on.length = c.root.toNat + 2 ∧ c.idFirst.toNat < c.idLast.toNat := by
  unfold runSetup at h
  dsimp only at h
  split at h
  · cases h
  · rename_i sb hsb
    split at h
    · cases h
    · rename_i h1
      split at h
      · cases h
      · rename_i h2
        split at h
        · cases h
        · rename_i h3
          cases h
          exact ⟨hsb, rfl, rfl, not_not.mp h1, not_not.mp h2, not_not.mp h3⟩

theorem runSetup_error {p : Params} {img : Image} {c : FullCfg} {e : Abort} (h : runSetup p img c = .error e) :
    ∃ info, e = .session .assertion info := by
  unfold runSetup at h
  dsimp only at h
  split at h
  · cases h; exact ⟨_, rfl⟩
  · split at h
    · cases h; exact ⟨_, rfl⟩
    · split at h
      · cases h; exact ⟨_, rfl⟩
      · split at h
        · cases h; exact ⟨_, rfl⟩
        · cases h

/-- The start of a group has a single-bit mask, taken from the shift-bit array. -/
theorem startCursor_ok {t : Tables} {base : CpuAddr} {off : BitVec 21} {idx : BitVec 3} {c : Cursor}
    (h : startCursor t base off idx = .ok c) :
    c.shift = t.shiftbit[idx.toNat]'idx.isLt ∧ singleBit c.shift = true ∧
    base.toNat + off.toNat ≤ 0xFFFFFF ∧ c.address = BitVec.ofNat 24 (base.toNat + off.toNat) := by
  unfold startCursor at h
  obtain ⟨_, h1, h⟩ := bind_eq_ok.mp h
  obtain ⟨a, h2, h⟩ := bind_eq_ok.mp h
  cases h
  exact ⟨rfl, checkShift_ok.mp h1, addAddress_ok h2⟩

theorem startCursor_error {t : Tables} {base : CpuAddr} {off : BitVec 21} {idx : BitVec 3} {e : Abort}
    (h : startCursor t base off idx = .error e) :
    ∃ info, e = .session .badShift info ∨ e = .session .addrOvf info := by
  unfold startCursor at h
  rcases bind_eq_error.mp h with h | ⟨_, _, h⟩
  · exact ⟨_, .inl (checkShift_error h).2⟩
  rcases bind_eq_error.mp h with h | ⟨_, _, h⟩
  · exact ⟨_, .inr (addAddress_error h).2⟩
  · cases h

@[simp] theorem skipMessages_zero (d : Decoder) (c : Cursor) : skipMessages d 0 c = .ok c := rfl

theorem skipMessages_succ (d : Decoder) (n : Nat) (c : Cursor) :
    skipMessages d (n + 1) c = (do
      let r ← decodeMessage d c
      skipMessages d n r.1) := rfl

theorem skipMessages_error {d : Decoder} {n : Nat} {c : Cursor} {e : Abort} (h : skipMessages d n c = .error e) :
    e = .endless ∨ ∃ info, e = .session .romBounds info ∨ e = .session .addrOvf info := by
  induction n generalizing c with
  | zero => cases h
  | succ n ih =>
    rw [skipMessages_succ] at h
    rcases bind_eq_error.mp h with h | ⟨r, _, h⟩
    · exact decodeMessage_error h
    · exact ih h

/-- A locate that ends in an error never ends in a call-fatal one. -/
theorem locateMessage_error {d : Decoder} {id : MessageId} {e : Abort} (h : locateMessage d id = .error e) :
    e = .endless ∨ ∃ info, e = .session .romBounds info ∨ e = .session .addrOvf info ∨ e = .session .badShift info := by
  unfold locateMessage at h
  dsimp only at h
  rcases bind_eq_error.mp h with h | ⟨ra, _, h⟩
  · exact .inr ⟨_, .inr (.inl (addAddress_error h).2)⟩
  split at h
  · cases h; exact .inr ⟨_, .inl rfl⟩
  · rcases bind_eq_error.mp h with h | ⟨start, _, h⟩
    · obtain ⟨info, h | h⟩ := startCursor_error h
      · exact .inr ⟨info, .inr (.inr h)⟩
      · exact .inr ⟨info, .inr (.inl h)⟩
    · rcases skipMessages_error h with h | ⟨info, h | h⟩
      · exact .inl h
      · exact .inr ⟨info, .inl h⟩
      · exact .inr ⟨info, .inr (.inl h)⟩

/-- Everything the tables of a session can be: those cached, or those setup reads. -/
theorem State.ensureSetup_ok {s : State} {c : FullCfg} {img : Image} {t : Tables} (h : s.ensureSetup c img = .ok t) :
    s.tables = some t ∨ (s.tables = none ∧ runSetup s.params img c = .ok t) := by
  unfold State.ensureSetup at h
  split at h
  · rename_i t' ht; cases h; exact .inl ht
  · rename_i ht; exact .inr ⟨ht, h⟩

theorem State.ensureSetup_error {s : State} {c : FullCfg} {img : Image} {e : Abort}
    (h : s.ensureSetup c img = .error e) : s.tables = none ∧ ∃ info, e = .session .assertion info := by
  unfold State.ensureSetup at h
  split at h
  · cases h
  · rename_i ht; exact ⟨ht, runSetup_error h⟩

/-- The hypothesis of the decoder commands' statements, as the meanings ask it: setup gives these tables. -/
theorem State.ensureSetup_ok_iff {s : State} {c : FullCfg} {img : Image} {t : Tables} :
    s.ensureSetup c img = .ok t ↔ s.tables = some t ∨ s.tables = none ∧ runSetup s.params img c = .ok t := by
  unfold State.ensureSetup; cases s.tables <;> simp

/-- The same for an assertion that fails: only a setup that is not yet done can raise it. -/
theorem State.ensureSetup_error_iff {s : State} {c : FullCfg} {img : Image} {e : Abort} :
    s.ensureSetup c img = .error e ↔ s.tables = none ∧ runSetup s.params img c = .error e := by
  unfold State.ensureSetup; cases s.tables <;> simp

/-- Where a table address reads the ROM (R66). -/
theorem tabOffset_eq (p : Params) (m : Mapper) (a : CpuAddr) :
    tabOffset p m a = if p.tableSpace = .cpu then (fromCpu p m a).toNat else a.toNat := by
  unfold tabOffset; cases p.tableSpace <;> simp

/-! ### The step -/

/-- With a word presented, a step is `exec` of the instruction the word decodes to, on the state that has accepted it. -/
theorem step_of_inbox {s : State} {w : PortWord} {rest : List PortWord} (h : s.inbox = w :: rest) :
    step s = exec (decode s.params w) { s with inbox := rest } := by
  simp [step, State.fetch, h]

/-- With no word presented, a step changes nothing. -/
theorem step_of_empty {s : State} (h : s.inbox = []) : step s = .next s := by simp [step, State.fetch, h]

end Sys2Proof.Machine
end

