-- ==== Sys2Proof/Laws/Encoding.lean ====
section
/-! SUPPORT. Laws of the register numbers, the response codes and the fields of words, from which the round trips of the
decoder and the encoder are put together. -/

namespace Sys2Proof

/-! ### Register numbers -/

theorem CfgReg.number_toNat_lt (r : CfgReg) : r.number.toNat < 0x20 := by
  cases r with
  | delim i => simp only [CfgReg.number, BitVec.toNat_ofNat]; omega
  | _ => decide

theorem CfgReg.ofNumber_delim (p : Params) (i : Fin 16) (h : i.val < p.delimMax) :
    CfgReg.ofNumber p (CfgReg.delim i).number = some (.delim i) := by
  have e : (BitVec.ofNat 8 (0x10 + i.val)).toNat = 0x10 + i.val := by
    simp only [BitVec.toNat_ofNat]; omega
  fin_cases i <;> simp_all [CfgReg.ofNumber, CfgReg.number]

/-- A register that exists is found by its number. -/
theorem CfgReg.ofNumber_number (p : Params) (r : CfgReg) (h : r.present p = true) :
    CfgReg.ofNumber p r.number = some r := by
  cases r with
  | delim i => exact CfgReg.ofNumber_delim p i (by simpa [CfgReg.present] using h)
  | _ => rfl

/-- A number names at most one register, which exists and has that number. -/
theorem CfgReg.number_of_ofNumber {p : Params} {n : BitVec 8} {r : CfgReg} (h : CfgReg.ofNumber p n = some r) :
    r.number = n ∧ r.present p = true := by
  have hn : n = BitVec.ofNat 8 n.toNat := by simp
  unfold CfgReg.ofNumber at h
  split at h <;> (try (rename_i hk; cases h; rw [hn, hk]; exact ⟨rfl, rfl⟩))
  split at h
  · split at h
    · rename_i hk hd
      cases h
      refine ⟨?_, by simpa [CfgReg.present] using hd⟩
      apply BitVec.eq_of_toNat_eq
      simp only [CfgReg.number, BitVec.toNat_ofNat]
      omega
    · cases h
  · cases h

theorem CfgReg.ofNumber_none_of_ge (p : Params) (n : BitVec 8) (h : 0x20 ≤ n.toNat) : CfgReg.ofNumber p n = none := by
  cases hr : CfgReg.ofNumber p n with
  | none => rfl
  | some r =>
    have := CfgReg.number_toNat_lt r
    rw [(CfgReg.number_of_ofNumber hr).1] at this
    omega

theorem Reg.ofNumber_of_lt (p : Params) (n : BitVec 8) (h : n.toNat < 0x20) :
    Reg.ofNumber p n = (CfgReg.ofNumber p n).map .cfg := by
  unfold Reg.ofNumber
  split <;> first | omega | rfl

theorem Reg.ofNumber_number (p : Params) (r : Reg) (h : r.present p = true) : Reg.ofNumber p r.number = some r := by
  cases r with
  | cfg c =>
    have hc : c.present p = true := h
    show Reg.ofNumber p c.number = _
    rw [Reg.ofNumber_of_lt p _ (CfgReg.number_toNat_lt c), CfgReg.ofNumber_number p c hc]
    rfl
  | _ => rfl

theorem Reg.number_of_ofNumber {p : Params} {n : BitVec 8} {r : Reg} (h : Reg.ofNumber p n = some r) :
    r.number = n ∧ r.present p = true := by
  have hn : n = BitVec.ofNat 8 n.toNat := by simp
  unfold Reg.ofNumber at h
  split at h <;> (try (rename_i hk; cases h; rw [hn, hk]; exact ⟨rfl, rfl⟩))
  cases hc : CfgReg.ofNumber p n with
  | none => rw [hc] at h; cases h
  | some c =>
    rw [hc] at h
    cases h
    exact CfgReg.number_of_ofNumber hc

/-- What a legal write is (R102). -/
theorem CfgReg.legal_iff {p : Params} {r : CfgReg} {value : BitVec 24} :
    r.legal p value = true ↔
      r.present p = true ∧ value.toNat < 2 ^ r.width ∧ r.inRange p value.toNat = true := by
  simp [CfgReg.legal, and_assoc]

theorem CfgReg.present_of_legal {p : Params} {r : CfgReg} {value : BitVec 24} (h : r.legal p value = true) :
    r.present p = true := by
  simp only [CfgReg.legal, Bool.and_eq_true] at h
  exact h.1.1

theorem CfgReg.lt_of_legal {p : Params} {r : CfgReg} {value : BitVec 24} (h : r.legal p value = true) :
    value.toNat < 2 ^ r.width := by
  simp only [CfgReg.legal, Bool.and_eq_true, decide_eq_true_eq] at h
  exact h.1.2

/-! ### Response codes -/

@[simp] theorem RespCode.ofBits_bits (c : RespCode) : RespCode.ofBits c.bits = some c := by cases c <;> rfl

theorem RespCode.bits_of_ofBits {b : BitVec 4} {c : RespCode} (h : RespCode.ofBits b = some c) : c.bits = b := by
  have hn : b = BitVec.ofNat 4 b.toNat := by simp
  unfold RespCode.ofBits at h
  split at h <;> first | (rename_i hk; cases h; rw [hn, hk]; rfl) | cases h

/-! ### Fields of a word -/

theorem extract_high {m n : Nat} (a : BitVec m) (b : BitVec n) : (a ++ b).extractLsb' n m = a := by
  apply BitVec.eq_of_getLsbD_eq
  intro i hi
  simp [BitVec.getLsbD_append, hi]

theorem extract_low {m n : Nat} (a : BitVec m) (b : BitVec n) : (a ++ b).extractLsb' 0 n = b := by
  apply BitVec.eq_of_getLsbD_eq
  intro i hi
  simp [BitVec.getLsbD_append, hi]

/-- A slice inside the low part of a concatenation is a slice of that part. -/
theorem extract_inner {m n start len : Nat} (a : BitVec m) (b : BitVec n) (h : start + len ≤ n) :
    (a ++ b).extractLsb' start len = b.extractLsb' start len := by
  apply BitVec.eq_of_getLsbD_eq
  intro i hi
  have : start + i < n := by omega
  simp [BitVec.getLsbD_append, hi, this]

/-- A word is its high part and its low part. -/
theorem append_extract {m n : Nat} (w : BitVec (m + n)) : (w.extractLsb' n m ++ w.extractLsb' 0 n : BitVec (m + n)) = w := by
  apply BitVec.eq_of_getLsbD_eq
  intro i hi
  simp only [BitVec.getLsbD_append, BitVec.getLsbD_extractLsb']
  by_cases h : i < n
  · simp [h]
  · have : i - n < m := by omega
    have e : n + (i - n) = i := by omega
    simp [h, this, e]

@[simp] theorem opcodeOf_commandWord (opcode : BitVec 8) (operand : BitVec 32) :
    opcodeOf (opcode ++ operand : BitVec 40) = opcode := extract_high opcode operand

@[simp] theorem operand_commandWord (opcode : BitVec 8) (operand : BitVec 32) :
    (opcode ++ operand : BitVec 40).extractLsb' 0 32 = operand := extract_low opcode operand

/-! ### The rows of the opcode table -/

/-- A word with a row's opcode and zeros wherever the row's mask looks into the operand is matched by the row. -/
theorem row_matches {w : BitVec 40} {c : BitVec 8} {row : BitVec 40 × BitVec 40} (lo len : Nat)
    (ho : (opcodeOf w).toNat = c.toNat) (hz : w.extractLsb' lo len = 0#len)
    (hrow : ∀ i : Fin 40, row.1.getLsbD i = (decide (32 ≤ i.val) && c.getLsbD (i.val - 32)) ∧
      (32 ≤ i.val → row.2.getLsbD i = true) ∧
      (i.val < 32 → row.2.getLsbD i = true → lo ≤ i.val ∧ i.val < lo + len)) :
    w &&& row.2 = row.1 := by
  have hc : opcodeOf w = c := BitVec.eq_of_toNat_eq ho
  apply BitVec.eq_of_getLsbD_eq
  intro i hi
  obtain ⟨h1, h2, h3⟩ := hrow ⟨i, hi⟩
  simp only at h1 h2 h3
  rw [BitVec.getLsbD_and, h1]
  by_cases hup : 32 ≤ i
  · have hb : w.getLsbD i = c.getLsbD (i - 32) := by
      rw [← hc]
      simp only [opcodeOf, BitVec.getLsbD_extractLsb', show i - 32 < 8 by omega, show 32 + (i - 32) = i by omega,
        decide_true, Bool.true_and]
    simp [hup, h2 hup, hb]
  · by_cases hm : row.2.getLsbD i = true
    · obtain ⟨hl, hr⟩ := h3 (by omega) hm
      have hb : w.getLsbD i = false := by
        have := congrArg (fun v => v.getLsbD (i - lo)) hz
        simpa [BitVec.getLsbD_extractLsb', show i - lo < len by omega, show lo + (i - lo) = i by omega] using this
      simp [hup, hb]
    · simp [hup, hm]

/-- A word matched by a row, with legal operands, is a command. -/
theorem isCommand_of_row {p : Params} {w : BitVec 40} (row : BitVec 40 × BitVec 40) (hmem : row ∈ commandRows)
    (h : w &&& row.2 = row.1) (hl : commandOperandsLegal p w = true) : isCommand p w = true := by
  have : commandRows.any (fun r => w &&& r.2 == r.1) = true := List.any_eq_true.mpr ⟨row, hmem, by simpa using h⟩
  simp [isCommand, this, hl]

theorem commandOperandsLegal_of_opcode {p : Params} {w : BitVec 40} (hb : (opcodeOf w).toNat ≠ 0x0B)
    (hc : (opcodeOf w).toNat ≠ 0x0C) : commandOperandsLegal p w = true := by
  have h1 : opcodeOf w ≠ 0x0B#8 := fun h => hb (by rw [h]; rfl)
  have h2 : opcodeOf w ≠ 0x0C#8 := fun h => hc (by rw [h]; rfl)
  simp [commandOperandsLegal, h1, h2]

/-- A word that is no command decodes to `ILLEGAL` (R95, R96, R102, R104). -/
theorem decodeCommand_of_not_command {p : Params} {w : BitVec 40} (h : isCommand p w = false) :
    decodeCommand p w = .illegal (.command w) := by
  have no : ∀ row ∈ commandRows, w &&& row.2 = row.1 → commandOperandsLegal p w = true → False := by
    intro row hmem hw hl
    rw [isCommand_of_row row hmem hw hl] at h
    cases h
  have plain : ∀ k, (opcodeOf w).toNat = k → k ≠ 0x0B → k ≠ 0x0C → commandOperandsLegal p w = true := by
    intro k hk hb hc
    exact commandOperandsLegal_of_opcode (hk ▸ hb) (hk ▸ hc)
  unfold decodeCommand
  dsimp only
  split
  · rename_i ho
    split
    · rename_i hz
      exact (no (0x0100000000#40, 0xFFFFFFFFFF#40) (by simp [commandRows])
        (row_matches (c := 0x01#8) 0 32 ho hz (by decide)) (plain _ ho (by decide) (by decide))).elim
    · rfl
  · rename_i ho
    split
    · rename_i hz
      exact (no (0x0200000000#40, 0xFFFFFFFFFF#40) (by simp [commandRows])
        (row_matches (c := 0x02#8) 0 32 ho hz (by decide)) (plain _ ho (by decide) (by decide))).elim
    · rfl
  · rename_i ho
    split
    · rename_i hz
      exact (no (0x0300000000#40, 0xFFFFC00000#40) (by simp [commandRows])
        (row_matches (c := 0x03#8) 22 10 ho hz (by decide)) (plain _ ho (by decide) (by decide))).elim
    · rfl
  · rename_i ho
    split
    · rename_i hz
      exact (no (0x0400000000#40, 0xFFFF000000#40) (by simp [commandRows])
        (row_matches (c := 0x04#8) 24 8 ho hz (by decide)) (plain _ ho (by decide) (by decide))).elim
    · rfl
  · rename_i ho
    split
    · rename_i hz
      exact (no (0x0500000000#40, 0xFFFF000000#40) (by simp [commandRows])
        (row_matches (c := 0x05#8) 24 8 ho hz (by decide)) (plain _ ho (by decide) (by decide))).elim
    · rfl
  · rename_i ho
    split
    · rename_i hz
      exact (no (0x0600000000#40, 0xFFFFFFFFFF#40) (by simp [commandRows])
        (row_matches (c := 0x06#8) 0 32 ho hz (by decide)) (plain _ ho (by decide) (by decide))).elim
    · rfl
  · rename_i ho
    split
    · rename_i hz
      exact (no (0x0700000000#40, 0xFFFFFF0000#40) (by simp [commandRows])
        (row_matches (c := 0x07#8) 16 16 ho hz (by decide)) (plain _ ho (by decide) (by decide))).elim
    · rfl
  · rename_i ho
    exact (no (0x0800000000#40, 0xFF00000000#40) (by simp [commandRows])
      (row_matches (c := 0x08#8) 0 0 ho (by simp) (by decide)) (plain _ ho (by decide) (by decide))).elim
  · rename_i ho
    exact (no (0x0900000000#40, 0xFF00000000#40) (by simp [commandRows])
      (row_matches (c := 0x09#8) 0 0 ho (by simp) (by decide)) (plain _ ho (by decide) (by decide))).elim
  · rename_i ho
    split
    · rename_i hz
      exact (no (0x0A00000000#40, 0xFFFFFFFFFF#40) (by simp [commandRows])
        (row_matches (c := 0x0A#8) 0 32 ho hz (by decide)) (plain _ ho (by decide) (by decide))).elim
    · rfl
  · rename_i ho
    have ho' : opcodeOf w = 0x0B#8 := BitVec.eq_of_toNat_eq ho
    split
    · rename_i r hr
      split
      · rename_i hl
        exact (no (0x0B00000000#40, 0xFF00000000#40) (by simp [commandRows])
          (row_matches (c := 0x0B#8) 0 0 ho (by simp) (by decide)) (by simp [commandOperandsLegal, ho', hr, hl])).elim
      · rfl
    · rfl
  · rename_i ho
    have ho' : opcodeOf w = 0x0C#8 := BitVec.eq_of_toNat_eq ho
    split
    · rename_i hz
      split
      · rename_i r hr
        exact (no (0x0C00000000#40, 0xFF00FFFFFF#40) (by simp [commandRows])
          (row_matches (c := 0x0C#8) 0 24 ho hz (by decide)) (by simp [commandOperandsLegal, ho', hr])).elim
      · rfl
    · rfl
  · rfl

end Sys2Proof
end

