-- ==== Sys2Proof/Laws/PerInstr.lean ====
section
/-! SUPPORT. The family RoundTrip: one lemma for each constructor of Instr. -/

namespace Sys2Proof.Laws

open Sys2Proof

/-- Decoding the encoding of a well-formed instruction gives it back, under any parameters. -/
def RoundTrip.Statement (i : Instr) : Prop := ∀ p : Params, i.wf p = true → decode p (encode i) = i

/-! ### Commands -/

theorem RoundTrip.reset : RoundTrip.Statement .reset := by
  intro p _
  rfl

theorem RoundTrip.detect : RoundTrip.Statement .detect := by
  intro p _
  rfl

theorem RoundTrip.setup : RoundTrip.Statement .setup := by
  intro p _
  rfl

theorem RoundTrip.next : RoundTrip.Statement .next := by
  intro p _
  rfl

theorem RoundTrip.rom2cpu (rom : RomAddr) : RoundTrip.Statement (.rom2cpu rom) := by
  intro p _
  have hi : (0#10 ++ rom : BitVec 32).extractLsb' 22 10 = 0#10 := extract_high _ _
  have lo : (0#10 ++ rom : BitVec 32).extractLsb' 0 22 = rom := extract_low _ _
  have hi' : (0x03#8 ++ (0#10 ++ rom : BitVec 32) : BitVec 40).extractLsb' 22 10 = 0#10 := by
    rw [extract_inner _ _ (by omega), hi]
  have lo' : (0x03#8 ++ (0#10 ++ rom : BitVec 32) : BitVec 40).extractLsb' 0 22 = rom := by
    rw [extract_inner _ _ (by omega), lo]
  simp only [encode, commandWord, decode, decodeCommand, opcodeOf_commandWord, hi', lo']
  rfl

theorem RoundTrip.cpu2rom (cpu : CpuAddr) : RoundTrip.Statement (.cpu2rom cpu) := by
  intro p _
  have hi : (0#8 ++ cpu : BitVec 32).extractLsb' 24 8 = 0#8 := extract_high _ _
  have lo : (0#8 ++ cpu : BitVec 32).extractLsb' 0 24 = cpu := extract_low _ _
  have hi' : (0x04#8 ++ (0#8 ++ cpu : BitVec 32) : BitVec 40).extractLsb' 24 8 = 0#8 := by
    rw [extract_inner _ _ (by omega), hi]
  have lo' : (0x04#8 ++ (0#8 ++ cpu : BitVec 32) : BitVec 40).extractLsb' 0 24 = cpu := by
    rw [extract_inner _ _ (by omega), lo]
  simp only [encode, commandWord, decode, decodeCommand, opcodeOf_commandWord, hi', lo']
  rfl

theorem RoundTrip.incaddr (cpu : CpuAddr) : RoundTrip.Statement (.incaddr cpu) := by
  intro p _
  have hi : (0#8 ++ cpu : BitVec 32).extractLsb' 24 8 = 0#8 := extract_high _ _
  have lo : (0#8 ++ cpu : BitVec 32).extractLsb' 0 24 = cpu := extract_low _ _
  have hi' : (0x05#8 ++ (0#8 ++ cpu : BitVec 32) : BitVec 40).extractLsb' 24 8 = 0#8 := by
    rw [extract_inner _ _ (by omega), hi]
  have lo' : (0x05#8 ++ (0#8 ++ cpu : BitVec 32) : BitVec 40).extractLsb' 0 24 = cpu := by
    rw [extract_inner _ _ (by omega), lo]
  simp only [encode, commandWord, decode, decodeCommand, opcodeOf_commandWord, hi', lo']
  rfl

theorem RoundTrip.locate (id : MessageId) : RoundTrip.Statement (.locate id) := by
  intro p _
  have hi : (0#16 ++ id : BitVec 32).extractLsb' 16 16 = 0#16 := extract_high _ _
  have lo : (0#16 ++ id : BitVec 32).extractLsb' 0 16 = id := extract_low _ _
  have hi' : (0x07#8 ++ (0#16 ++ id : BitVec 32) : BitVec 40).extractLsb' 16 16 = 0#16 := by
    rw [extract_inner _ _ (by omega), hi]
  have lo' : (0x07#8 ++ (0#16 ++ id : BitVec 32) : BitVec 40).extractLsb' 0 16 = id := by
    rw [extract_inner _ _ (by omega), lo]
  simp only [encode, commandWord, decode, decodeCommand, opcodeOf_commandWord, hi', lo']
  rfl

theorem RoundTrip.decchar (address : CpuAddr) (shift : Byte) : RoundTrip.Statement (.decchar address shift) := by
  intro p _
  have hi : (0x08#8 ++ (address ++ shift : BitVec 32) : BitVec 40).extractLsb' 8 24 = address := by
    rw [extract_inner _ _ (by omega)]; exact extract_high _ _
  have lo : (0x08#8 ++ (address ++ shift : BitVec 32) : BitVec 40).extractLsb' 0 8 = shift := by
    rw [extract_inner _ _ (by omega)]; exact extract_low _ _
  simp only [encode, commandWord, decode, decodeCommand, opcodeOf_commandWord, hi, lo]
  rfl

theorem RoundTrip.enum (first : MessageId) (last : MessageId) : RoundTrip.Statement (.enum first last) := by
  intro p _
  have hi : (0x09#8 ++ (first ++ last : BitVec 32) : BitVec 40).extractLsb' 16 16 = first := by
    rw [extract_inner _ _ (by omega)]; exact extract_high _ _
  have lo : (0x09#8 ++ (first ++ last : BitVec 32) : BitVec 40).extractLsb' 0 16 = last := by
    rw [extract_inner _ _ (by omega)]; exact extract_low _ _
  simp only [encode, commandWord, decode, decodeCommand, opcodeOf_commandWord, hi, lo]
  rfl

theorem regnoOf_commandWord (opcode regno : BitVec 8) (value : BitVec 24) :
    regnoOf (opcode ++ (regno ++ value : BitVec 32) : BitVec 40) = regno := by
  unfold regnoOf
  rw [extract_inner _ _ (by omega)]
  exact extract_high _ _

theorem valueOf_commandWord (opcode regno : BitVec 8) (value : BitVec 24) :
    valueOf (opcode ++ (regno ++ value : BitVec 32) : BitVec 40) = value := by
  unfold valueOf
  rw [extract_inner _ _ (by omega)]
  exact extract_low _ _

theorem RoundTrip.wrcfg (r : CfgReg) (value : BitVec 24) : RoundTrip.Statement (.wrcfg r value) := by
  intro p h
  have hl : r.legal p value = true := h
  simp only [encode, commandWord, decode, decodeCommand, opcodeOf_commandWord, regnoOf_commandWord,
    valueOf_commandWord, CfgReg.ofNumber_number p r (CfgReg.present_of_legal hl)]
  simp [hl]

theorem RoundTrip.rdreg (r : Reg) : RoundTrip.Statement (.rdreg r) := by
  intro p h
  simp only [encode, commandWord, decode, decodeCommand, opcodeOf_commandWord, regnoOf_commandWord,
    valueOf_commandWord, Reg.ofNumber_number p r h]
  rfl

/-! ### Words that are nothing else -/

theorem RoundTrip.illegal (w : PortWord) : RoundTrip.Statement (.illegal w) := by
  intro p h
  have hm : w.meaningful p = false := by simpa [Instr.wf] using h
  cases w with
  | command c => exact decodeCommand_of_not_command hm
  | regRead n =>
    simp only [PortWord.meaningful, Option.isSome_eq_false_iff, Option.isNone_iff_eq_none] at hm
    simp [encode, decode, hm]
  | regWrite n value =>
    cases hr : CfgReg.ofNumber p n with
    | none => simp [encode, decode, hr]
    | some r =>
      have hl : r.legal p value = false := by simpa [PortWord.meaningful, hr] using hm
      simp [encode, decode, hr, hl]
  | responseRecord r =>
    simp only [PortWord.meaningful, Option.isSome_eq_false_iff, Option.isNone_iff_eq_none] at hm
    simp [encode, decode, hm]
  | _ => simp [PortWord.meaningful] at hm

/-! ### Register rows -/

theorem readOf_decode (p : Params) (r : Reg) (h : r.present p = true) :
    decode p (.regRead r.number) = readOf r := by
  simp only [decode, Reg.ofNumber_number p r h]

theorem writeOf_decode (p : Params) (r : CfgReg) (value : BitVec 24) (h : r.legal p value = true) :
    decode p (.regWrite r.number value) = writeOf r value := by
  simp only [decode, CfgReg.ofNumber_number p r (CfgReg.present_of_legal h), h]
  rfl

/-- A value no wider than the register is legal where the register exists and has no other restriction. -/
theorem legal_of_width {p : Params} {r : CfgReg} {n : Nat} (value : BitVec n) (hw : r.width = n) (hn : n ≤ 24)
    (hp : r.present p = true) (hr : ∀ k, r.inRange p k = true) : r.legal p (value.setWidth 24) = true := by
  have : value.toNat < 2 ^ n := value.isLt
  have h24 : (2 : Nat) ^ n ≤ 2 ^ 24 := Nat.pow_le_pow_right (by omega) hn
  simp [CfgReg.legal, hp, hr, hw, BitVec.toNat_setWidth]
  omega

theorem RoundTrip.mapper (op : RegOp 1) : RoundTrip.Statement (.mapper op) := by
  intro p _
  cases op with
  | read => exact readOf_decode p (.cfg .mapper) rfl
  | write value =>
    refine (writeOf_decode p .mapper _ (legal_of_width value rfl (by omega) rfl (fun _ => rfl))).trans ?_
    simp [writeOf]

theorem RoundTrip.variant (op : RegOp 1) : RoundTrip.Statement (.variant op) := by
  intro p _
  cases op with
  | read => exact readOf_decode p (.cfg .variant) rfl
  | write value =>
    refine (writeOf_decode p .variant _ (legal_of_width value rfl (by omega) rfl (fun _ => rfl))).trans ?_
    simp [writeOf]

theorem RoundTrip.addrGroup (op : RegOp 24) : RoundTrip.Statement (.addrGroup op) := by
  intro p _
  cases op with
  | read => exact readOf_decode p (.cfg .addrGroup) rfl
  | write value =>
    refine (writeOf_decode p .addrGroup _ (legal_of_width value rfl (by omega) rfl (fun _ => rfl))).trans ?_
    simp [writeOf]

theorem RoundTrip.addrShiftbit (op : RegOp 24) : RoundTrip.Statement (.addrShiftbit op) := by
  intro p _
  cases op with
  | read => exact readOf_decode p (.cfg .addrShiftbit) rfl
  | write value =>
    refine (writeOf_decode p .addrShiftbit _ (legal_of_width value rfl (by omega) rfl (fun _ => rfl))).trans ?_
    simp [writeOf]

theorem RoundTrip.addrMessage (op : RegOp 24) : RoundTrip.Statement (.addrMessage op) := by
  intro p _
  cases op with
  | read => exact readOf_decode p (.cfg .addrMessage) rfl
  | write value =>
    refine (writeOf_decode p .addrMessage _ (legal_of_width value rfl (by omega) rfl (fun _ => rfl))).trans ?_
    simp [writeOf]

theorem RoundTrip.addrOff (op : RegOp 24) : RoundTrip.Statement (.addrOff op) := by
  intro p _
  cases op with
  | read => exact readOf_decode p (.cfg .addrOff) rfl
  | write value =>
    refine (writeOf_decode p .addrOff _ (legal_of_width value rfl (by omega) rfl (fun _ => rfl))).trans ?_
    simp [writeOf]

theorem RoundTrip.addrOn (op : RegOp 24) : RoundTrip.Statement (.addrOn op) := by
  intro p _
  cases op with
  | read => exact readOf_decode p (.cfg .addrOn) rfl
  | write value =>
    refine (writeOf_decode p .addrOn _ (legal_of_width value rfl (by omega) rfl (fun _ => rfl))).trans ?_
    simp [writeOf]

theorem RoundTrip.root (op : RegOp 16) : RoundTrip.Statement (.root op) := by
  intro p _
  cases op with
  | read => exact readOf_decode p (.cfg .root) rfl
  | write value =>
    refine (writeOf_decode p .root _ (legal_of_width value rfl (by omega) rfl (fun _ => rfl))).trans ?_
    simp [writeOf]

theorem RoundTrip.decodeMask (op : RegOp 16) : RoundTrip.Statement (.decodeMask op) := by
  intro p _
  cases op with
  | read => exact readOf_decode p (.cfg .decodeMask) rfl
  | write value =>
    refine (writeOf_decode p .decodeMask _ (legal_of_width value rfl (by omega) rfl (fun _ => rfl))).trans ?_
    simp [writeOf]

theorem RoundTrip.idFirst (op : RegOp 16) : RoundTrip.Statement (.idFirst op) := by
  intro p _
  cases op with
  | read => exact readOf_decode p (.cfg .idFirst) rfl
  | write value =>
    refine (writeOf_decode p .idFirst _ (legal_of_width value rfl (by omega) rfl (fun _ => rfl))).trans ?_
    simp [writeOf]

theorem RoundTrip.idLast (op : RegOp 16) : RoundTrip.Statement (.idLast op) := by
  intro p _
  cases op with
  | read => exact readOf_decode p (.cfg .idLast) rfl
  | write value =>
    refine (writeOf_decode p .idLast _ (legal_of_width value rfl (by omega) rfl (fun _ => rfl))).trans ?_
    simp [writeOf]

theorem RoundTrip.readSize (op : RegOp 2) : RoundTrip.Statement (.readSize op) := by
  intro p h
  cases op with
  | read => exact readOf_decode p (.cfg .readSize) rfl
  | write value =>
    refine (writeOf_decode p .readSize _ h).trans ?_
    simp [writeOf]

theorem RoundTrip.delimCount (op : RegOp 5) : RoundTrip.Statement (.delimCount op) := by
  intro p h
  cases op with
  | read => exact readOf_decode p (.cfg .delimCount) rfl
  | write value =>
    refine (writeOf_decode p .delimCount _ h).trans ?_
    simp [writeOf]

theorem RoundTrip.delim (i : Fin 16) (op : RegOp 16) : RoundTrip.Statement (.delim i op) := by
  intro p h
  cases op with
  | read => exact readOf_decode p (.cfg (.delim i)) h
  | write value =>
    refine (writeOf_decode p (.delim i) _ h).trans ?_
    simp [writeOf]

theorem RoundTrip.status : RoundTrip.Statement .status := by
  intro p _
  rfl

theorem RoundTrip.bankSize : RoundTrip.Statement .bankSize := by
  intro p _
  rfl

theorem RoundTrip.curAddr : RoundTrip.Statement .curAddr := by
  intro p _
  rfl

theorem RoundTrip.curShift : RoundTrip.Statement .curShift := by
  intro p _
  rfl

theorem RoundTrip.remain : RoundTrip.Statement .remain := by
  intro p _
  rfl

theorem RoundTrip.faultInfo : RoundTrip.Statement .faultInfo := by
  intro p _
  rfl

/-! ### Data formats -/

theorem RoundTrip.nodeWLeaf (x : BitVec 15) : RoundTrip.Statement (.nodeWLeaf x) := by
  intro p _
  have top : (0#1 ++ x : BitVec 16).getLsbD 15 = false := by
    rw [BitVec.getLsbD_append]; rfl
  have low : (0#1 ++ x : BitVec 16).extractLsb' 0 15 = x := extract_low _ _
  simp only [encode, decode, decodeEntry, top, low]
  rfl

theorem RoundTrip.nodeWBranch (x : BitVec 15) : RoundTrip.Statement (.nodeWBranch x) := by
  intro p _
  have top : (1#1 ++ x : BitVec 16).getLsbD 15 = true := by
    rw [BitVec.getLsbD_append]; rfl
  have low : (1#1 ++ x : BitVec 16).extractLsb' 0 15 = x := extract_low _ _
  simp only [encode, decode, decodeEntry, top, low]
  rfl

theorem RoundTrip.nodeVLeaf (x : BitVec 15) : RoundTrip.Statement (.nodeVLeaf x) := by
  intro p _
  have top : (1#1 ++ x : BitVec 16).getLsbD 15 = true := by
    rw [BitVec.getLsbD_append]; rfl
  have low : (1#1 ++ x : BitVec 16).extractLsb' 0 15 = x := extract_low _ _
  simp only [encode, decode, decodeEntry, top, low]
  rfl

theorem RoundTrip.nodeVBranch (x : BitVec 2) (y : BitVec 13) : RoundTrip.Statement (.nodeVBranch x y) := by
  intro p _
  have top : (0#1 ++ (x ++ y) : BitVec 16).getLsbD 15 = false := by
    rw [BitVec.getLsbD_append]; rfl
  have mid : (0#1 ++ (x ++ y) : BitVec 16).extractLsb' 13 2 = x := by
    rw [extract_inner _ _ (by omega)]; exact extract_high _ _
  have low : (0#1 ++ (x ++ y) : BitVec 16).extractLsb' 0 13 = y := by
    rw [extract_inner _ _ (by omega)]; exact extract_low _ _
  simp only [encode, decode, decodeEntry, top, mid, low]
  rfl

theorem RoundTrip.grouprec (x : BitVec 21) (y : BitVec 3) : RoundTrip.Statement (.grouprec x y) := by
  intro p _
  have high : (x ++ y : BitVec 24).extractLsb' 3 21 = x := extract_high _ _
  have low : (x ++ y : BitVec 24).extractLsb' 0 3 = y := extract_low _ _
  simp [encode, decode, high, low]

theorem RoundTrip.msgidW (x : BitVec 13) (y : BitVec 3) : RoundTrip.Statement (.msgidW x y) := by
  intro p _
  have high : (x ++ y : BitVec 16).extractLsb' 3 13 = x := extract_high _ _
  have low : (x ++ y : BitVec 16).extractLsb' 0 3 = y := extract_low _ _
  simp [encode, decode, decodeMessageId, high, low]

theorem RoundTrip.msgidV (x : BitVec 12) (y : BitVec 4) : RoundTrip.Statement (.msgidV x y) := by
  intro p _
  have high : (x ++ y : BitVec 16).extractLsb' 4 12 = x := extract_high _ _
  have low : (x ++ y : BitVec 16).extractLsb' 0 4 = y := extract_low _ _
  simp [encode, decode, decodeMessageId, high, low]

theorem RoundTrip.headerMakeup (x : BitVec 7) (y : BitVec 1) : RoundTrip.Statement (.headerMakeup x y) := by
  intro p _
  have high : (x ++ y : BitVec 8).extractLsb' 1 7 = x := extract_high _ _
  have low : (x ++ y : BitVec 8).extractLsb' 0 1 = y := extract_low _ _
  simp [encode, decode, high, low]

theorem RoundTrip.headerCheckpair (x y : BitVec 16) : RoundTrip.Statement (.headerCheckpair x y) := by
  intro p _
  have high : (x ++ y : BitVec 32).extractLsb' 16 16 = x := extract_high _ _
  have low : (x ++ y : BitVec 32).extractLsb' 0 16 = y := extract_low _ _
  simp [encode, decode, high, low]

theorem RoundTrip.shiftbit (mask : Byte) : RoundTrip.Statement (.shiftbit mask) := by
  intro p _
  rfl

theorem RoundTrip.response (code : RespCode) (r0 : BitVec 24) (r1 : BitVec 8) (r2 : BitVec 16) : RoundTrip.Statement (.response code r0 r1 r2) := by
  intro p _
  have h0 : (code.bits ++ (r0 ++ (r1 ++ r2)) : BitVec 52).extractLsb' 48 4 = code.bits := extract_high _ _
  have h1 : (code.bits ++ (r0 ++ (r1 ++ r2)) : BitVec 52).extractLsb' 24 24 = r0 := by
    rw [extract_inner _ _ (by omega)]; exact extract_high _ _
  have h2 : (code.bits ++ (r0 ++ (r1 ++ r2)) : BitVec 52).extractLsb' 16 8 = r1 := by
    rw [extract_inner _ _ (by omega), extract_inner _ _ (by omega)]; exact extract_high _ _
  have h3 : (code.bits ++ (r0 ++ (r1 ++ r2)) : BitVec 52).extractLsb' 0 16 = r2 := by
    rw [extract_inner _ _ (by omega), extract_inner _ _ (by omega)]; exact extract_low _ _
  simp only [encode, decode, h0, h1, h2, h3, RespCode.ofBits_bits]

end Sys2Proof.Laws
end

