-- ==== Sys2Proof/Tests/Slice0.lean ====
section
/-! SUPPORT. The model's own tests: the well-formedness checks, one word of every row of the table written out from the
spec's encoding, one or two steps of every instruction on the images of spec/95_test_vectors.md part 2, and for every
statement with hypotheses a state and operands that meet them. Expected values are those of spec/95_test_vectors.md unless
a docstring says that they follow from a rule by hand. -/

namespace Sys2Proof.Tests

open Sys2Proof Sys2Proof.Machine

-- The proofs below are kernel evaluations, each waiting for the ones before it: one at a time needs the fewest threads.
set_option Elab.async false

/-! ### The two images and configurations of spec/95_test_vectors.md part 2 -/

def imageA : Image :=
  (((((((Image.blank 0x10002).loadBytes 0x100 [0x80, 0x40, 0x20, 0x10, 0x08, 0x04, 0x02, 0x01]).loadBytes 0x110
    [0x00, 0x00, 0x22, 0x00, 0x11, 0x00]).loadBytes 0x120 [0x00, 0x00, 0xAC, 0x00, 0x02, 0x80]).loadBytes 0x130
    [0x75, 0x00, 0x00, 0x80, 0x00, 0x00]).loadBytes 0xFFD5 [0x21]).loadBytes 0xFFDC [0xCB, 0xED, 0x34, 0x12]).loadBytes
    0xFFFE [0x02, 0xE3, 0xD8, 0x00]

def imageB : Image :=
  (((((((Image.blank 0x10000).loadBytes 0x200 [0x01, 0x02, 0x04, 0x08, 0x10, 0x20, 0x40, 0x80]).loadBytes 0x210
    [0x00, 0x00, 0xAE, 0x80, 0x42, 0x81, 0x41, 0x80]).loadBytes 0x220
    [0x00, 0x00, 0xAF, 0x80, 0x01, 0x60, 0x02, 0x00]).loadBytes 0x230
    [0xFF, 0xFF, 0xFF, 0x7E, 0x00, 0x00, 0x8D, 0x00, 0x04]).loadBytes 0x7FD5 [0x20]).loadBytes 0x7FDC
    [0xF0, 0x0F, 0x0F, 0xF0]).loadBytes 0x7FFF [0x7F, 0x76, 0x7D, 0x00]

def cfgA : Cfg where
  mapper := some 1#1
  variant := some 0#1
  addrGroup := some 0xC00130#24
  addrShiftbit := some 0xC00100#24
  addrMessage := some 0xC0FFF0#24
  addrOff := some 0xC00110#24
  addrOn := some 0xC00120#24
  root := some 4#16
  readSize := some 1#2
  decodeMask := some 0x7FFF#16
  idFirst := some 0#16
  idLast := some 0x10#16
  delimCount := some 1#5
  delims := (Vector.replicate 16 none).set 0 (some 0x00AC#16)

def cfgB : Cfg where
  mapper := some 0#1
  variant := some 1#1
  addrGroup := some 0x008230#24
  addrShiftbit := some 0x008200#24
  addrMessage := some 0x00FFF0#24
  addrOff := some 0x008210#24
  addrOn := some 0x008220#24
  root := some 6#16
  readSize := some 2#2
  decodeMask := some 0x7FFF#16
  idFirst := some 0x10#16
  idLast := some 0x30#16
  delimCount := some 2#5
  delims := ((Vector.replicate 16 none).set 0 (some 0x00AE#16)).set 1 (some 0x00AF#16)

/-- Configuration A as `ConfigComplete` gives it. -/
def fullA : FullCfg where
  mapper := .hirom
  variant := .varW
  addrGroup := 0xC00130#24
  addrShiftbit := 0xC00100#24
  addrMessage := 0xC0FFF0#24
  addrOff := 0xC00110#24
  addrOn := 0xC00120#24
  root := 4#16
  readSize := 1#2
  decodeMask := 0x7FFF#16
  idFirst := 0#16
  idLast := 0x10#16
  delims := [0x00AC#16]

/-- The tables of V-SET-1. -/
def tablesA : Tables where
  shiftbit := #v[0x80#8, 0x40#8, 0x20#8, 0x10#8, 0x08#8, 0x04#8, 0x02#8, 0x01#8]
  off := [0x00#8, 0x00#8, 0x22#8, 0x00#8, 0x11#8, 0x00#8]
  on := [0x00#8, 0x00#8, 0xAC#8, 0x00#8, 0x02#8, 0x80#8]

/-- Tables whose shift-bit entries are all 0 (R195: no single-bit mask). -/
def tablesZero : Tables := { tablesA with shiftbit := Vector.replicate 8 0x00#8 }

def decoderA : Decoder := ⟨Params.standard, imageA, fullA, tablesA⟩

/-- The block with image A attached, nothing written. -/
def attachedA : State := State.reset.attach imageA

/-- Configuration A written, no setup yet. -/
def readyA : State := { attachedA with cfg := cfgA }

/-- Configuration B written over image B, no setup yet. -/
def readyB : State := { State.reset.attach imageB with cfg := cfgB }

/-- Image A after setup. -/
def loadedA : State := { readyA with tables := some tablesA }

/-- The start of message 2 of image A. -/
def cursor2 : Cursor := ⟨0xC10000#24, 0x80#8⟩

/-- An enumeration of image A that stands at message 2, with one message left. -/
def enumA : State := { loadedA with enumPos := some ⟨cursor2, 1#17⟩ }

/-- Configuration A with an empty id range, which setup refuses. -/
def narrowA : State := { readyA with cfg := { cfgA with idFirst := some 0x10#16 } }

/-- A block stopped at a session-fatal error. -/
def faultedA : State := { loadedA with fault := some ⟨.romBounds, 0x010002#24⟩ }

/-! ### Looking at an outcome -/

/-- The response record of a step, none where the step does not answer a next state. -/
def answer : Host.Outcome State Fault Refusal → Option Response
  | .next t => t.responses.getLast?
  | .fault _ => none
  | .refused _ => none

/-- Something of the next state, none where there is none. -/
def look {α : Type} (f : State → α) : Host.Outcome State Fault Refusal → Option α
  | .next t => some (f t)
  | .fault _ => none
  | .refused _ => none

/-- Whether a computation that may raise answers this value. -/
def answers {α : Type} [DecidableEq α] (a : α) : Except Abort α → Bool
  | .ok b => a == b
  | .error _ => false

theorem eq_of_answers {α : Type} [DecidableEq α] {a : α} {r : Except Abort α} (h : answers a r = true) : r = .ok a := by
  cases r with
  | ok b => rw [beq_iff_eq.mp h]
  | error e => cases h

/-- Whether a computation that may raise raises this. -/
def raises {α : Type} (a : Abort) : Except Abort α → Bool
  | .ok _ => false
  | .error b => a == b

theorem eq_of_raises {α : Type} {a : Abort} {r : Except Abort α} (h : raises a r = true) : r = .error a := by
  cases r with
  | ok b => cases h
  | error e => rw [beq_iff_eq.mp h]

theorem next_of_look {α : Type} {f : State → α} {o : Host.Outcome State Fault Refusal} {a : α} (h : look f o = some a) :
    ∃ t, o = .next t ∧ f t = a := by
  cases o with
  | next t => exact ⟨t, rfl, Option.some.inj h⟩
  | fault _ => cases h
  | refused _ => cases h

/-! ### Well-formedness: each check refuses an ill-formed term -/

theorem test_wf_refuses_wide_value : (Instr.wrcfg .root 0x10000#24).wf Params.standard = false := by decide
theorem test_wf_refuses_read_size_3 : (Instr.wrcfg .readSize 3#24).wf Params.standard = false := by decide
theorem test_wf_refuses_delim_count_5 : (Instr.wrcfg .delimCount 5#24).wf Params.standard = false := by decide
theorem test_wf_refuses_absent_delim : (Instr.wrcfg (.delim 4) 0#24).wf Params.standard = false := by decide
theorem test_wf_refuses_rdreg_of_absent_delim : (Instr.rdreg (.cfg (.delim 4))).wf Params.standard = false := by decide
theorem test_wf_refuses_illegal_of_a_command :
    (Instr.illegal (.command 0x0100000000#40)).wf Params.standard = false := by decide
theorem test_wf_refuses_read_size_row : (Instr.readSize (.write 0#2)).wf Params.standard = false := by decide
theorem test_wf_refuses_delim_count_row : (Instr.delimCount (.write 0#5)).wf Params.standard = false := by decide
theorem test_wf_refuses_delim_row : (Instr.delim 15 .read).wf Params.standard = false := by decide

/-! ### Decoding: one word of every row, written out from 30_encoding.md sections 1, 4 and 5 and 10_state.md R21 -/

/-- `decode` at the default parameters. -/
def dec (w : PortWord) : Instr := decode Params.standard w

theorem test_decode_reset : dec (.command 0x0100000000#40) = .reset := by decide
theorem test_decode_detect : dec (.command 0x0200000000#40) = .detect := by decide
theorem test_decode_rom2cpu : dec (.command 0x0300008000#40) = .rom2cpu 0x008000#22 := by decide
theorem test_decode_cpu2rom : dec (.command 0x0400FCBD36#40) = .cpu2rom 0xFCBD36#24 := by decide
theorem test_decode_incaddr : dec (.command 0x0500C0FFFF#40) = .incaddr 0xC0FFFF#24 := by decide
theorem test_decode_setup : dec (.command 0x0600000000#40) = .setup := by decide
theorem test_decode_locate : dec (.command 0x0700000141#40) = .locate 0x0141#16 := by decide
theorem test_decode_decchar : dec (.command 0x08C0FFFF20#40) = .decchar 0xC0FFFF#24 0x20#8 := by decide
theorem test_decode_enum : dec (.command 0x0901410142#40) = .enum 0x0141#16 0x0142#16 := by decide
theorem test_decode_next : dec (.command 0x0A00000000#40) = .next := by decide
theorem test_decode_wrcfg : dec (.command 0x0B100000AC#40) = .wrcfg (.delim 0) 0xAC#24 := by decide
theorem test_decode_rdreg : dec (.command 0x0C20000000#40) = .rdreg .status := by decide
theorem test_decode_illegal : dec (.command 0x0D00000000#40) = .illegal (.command 0x0D00000000#40) := by decide
theorem test_decode_reserved_bit : dec (.command 0x0700010000#40) = .illegal (.command 0x0700010000#40) := by decide
theorem test_decode_mapper : dec (.regWrite 0x00#8 1#24) = .mapper (.write 1#1) := by decide
theorem test_decode_variant : dec (.regWrite 0x01#8 1#24) = .variant (.write 1#1) := by decide
theorem test_decode_addr_group : dec (.regRead 0x02#8) = .addrGroup .read := by decide
theorem test_decode_addr_shiftbit : dec (.regRead 0x03#8) = .addrShiftbit .read := by decide
theorem test_decode_addr_message : dec (.regWrite 0x04#8 0xC0FFF0#24) = .addrMessage (.write 0xC0FFF0#24) := by decide
theorem test_decode_addr_off : dec (.regRead 0x05#8) = .addrOff .read := by decide
theorem test_decode_addr_on : dec (.regRead 0x06#8) = .addrOn .read := by decide
theorem test_decode_root : dec (.regWrite 0x07#8 4#24) = .root (.write 4#16) := by decide
theorem test_decode_read_size : dec (.regWrite 0x08#8 2#24) = .readSize (.write 2#2) := by decide
theorem test_decode_decode_mask : dec (.regWrite 0x09#8 0x7FFF#24) = .decodeMask (.write 0x7FFF#16) := by decide
theorem test_decode_id_first : dec (.regRead 0x0A#8) = .idFirst .read := by decide
theorem test_decode_id_last : dec (.regRead 0x0B#8) = .idLast .read := by decide
theorem test_decode_delim_count : dec (.regWrite 0x0F#8 4#24) = .delimCount (.write 4#5) := by decide
theorem test_decode_delim : dec (.regRead 0x13#8) = .delim 3 .read := by decide
theorem test_decode_status : dec (.regRead 0x20#8) = .status := by decide
theorem test_decode_bank_size : dec (.regRead 0x21#8) = .bankSize := by decide
theorem test_decode_cur_addr : dec (.regRead 0x22#8) = .curAddr := by decide
theorem test_decode_cur_shift : dec (.regRead 0x23#8) = .curShift := by decide
theorem test_decode_remain : dec (.regRead 0x24#8) = .remain := by decide
theorem test_decode_fault_info : dec (.regRead 0x25#8) = .faultInfo := by decide
theorem test_decode_node_w_leaf : dec (.treeEntry .varW 0x0022#16) = .nodeWLeaf 0x22#15 := by decide
theorem test_decode_node_w_branch : dec (.treeEntry .varW 0x8002#16) = .nodeWBranch 2#15 := by decide
theorem test_decode_node_v_leaf : dec (.treeEntry .varV 0x8142#16) = .nodeVLeaf 0x142#15 := by decide
theorem test_decode_node_v_branch : dec (.treeEntry .varV 0x6001#16) = .nodeVBranch 3#2 1#13 := by decide
theorem test_decode_grouprec : dec (.groupRecord 0x04008D#24) = .grouprec 0x8011#21 5#3 := by decide
theorem test_decode_msgid_w : dec (.messageId .varW 0x0141#16) = .msgidW 40#13 1#3 := by decide
theorem test_decode_msgid_v : dec (.messageId .varV 0x0141#16) = .msgidV 20#12 1#4 := by decide
theorem test_decode_header_makeup : dec (.makeupByte 0x21#8) = .headerMakeup 0x10#7 1#1 := by decide
theorem test_decode_header_checkpair : dec (.checkPair 0x1234EDCB#32) = .headerCheckpair 0x1234#16 0xEDCB#16 := by
  decide
theorem test_decode_shiftbit : dec (.shiftEntry 0x40#8) = .shiftbit 0x40#8 := by decide
theorem test_decode_response :
    dec (.responseRecord 0x6FFFFFF000000#52) = .response .addrOvf 0xFFFFFF#24 0x00#8 0x0000#16 := by decide

/-- A word of the table, presented, is what the next step runs (30_encoding.md R91): `INCADDR 0xFFFFFF` with
`MAPPER = 1`, then `STATUS = 0x0611`. -/
theorem test_withFetchWord_runs : look State.status (step (readyA.withFetchWord 40 0x0500FFFFFF)) = some 0x0611#16 := by
  decide +kernel

/-! ### One step of every instruction -/

theorem test_reset : answer (exec .reset faultedA) = some ⟨.ok, 0#24, 0#8, 0#16⟩ := by decide +kernel
theorem test_reset_clears_status : look State.status (exec .reset faultedA) = some 0x0000#16 := by decide +kernel
theorem test_detect : answer (exec .detect attachedA) = some ⟨.ok, 0x00FFC0#24, 1#8, 0#16⟩ := by decide +kernel
theorem test_detect_no_header :
    look State.status (exec .detect (State.reset.attach (Image.blank 0x7FDF))) = some 0x0210#16 := by decide +kernel
theorem test_rom2cpu : answer (exec (.rom2cpu 0x008000#22) readyB) = some ⟨.ok, 0x018000#24, 0#8, 0#16⟩ := by
  decide +kernel
theorem test_cpu2rom : answer (exec (.cpu2rom 0xFCBD36#24) readyA) = some ⟨.ok, 0x3CBD36#24, 0#8, 0#16⟩ := by
  decide +kernel
theorem test_incaddr : answer (exec (.incaddr 0x00FFFF#24) readyB) = some ⟨.ok, 0x018000#24, 0#8, 0#16⟩ := by
  decide +kernel
theorem test_setup : look State.tables (exec .setup readyA) = some (some tablesA) := by decide +kernel
theorem test_setup_asserts_the_id_range :
    answer (exec .setup narrowA) =
      some ⟨.assertion, 1#24, 0#8, 0#16⟩ := by decide +kernel
theorem test_locate : answer (exec (.locate 1#16) readyA) = some ⟨.ok, 0xC0FFFF#24, 0x20#8, 0#16⟩ := by decide +kernel
theorem test_locate_unchecked_range :
    answer (exec (.locate 0#16) readyB) = some ⟨.ok, 0x20FFEF#24, 0x80#8, 0#16⟩ := by decide +kernel
theorem test_decchar : answer (exec (.decchar 0x00FFFF#24 0x40#8) readyB) =
    some ⟨.ok, 0x018000#24, 0x01#8, 0x0142#16⟩ := by decide +kernel
theorem test_decchar_bad_shift : look State.status (exec (.decchar 0xC0FFFE#24 0x03#8) readyA) = some 0x0713#16 := by
  decide +kernel
theorem test_enum : answer (exec (.enum 0#16 3#16) readyA) = some ⟨.ok, 0xC0FFFE#24, 0x04#8, 3#16⟩ := by decide +kernel
theorem test_enum_range : answer (exec (.enum 3#16 3#16) readyA) = some ⟨.range, 0#24, 0#8, 0#16⟩ := by decide +kernel
theorem test_next : look State.output (exec .next enumA) = some [⟨0xC10000#24, 0x80#8, [0x00AC#16]⟩] := by
  decide +kernel
theorem test_next_moves : look State.enumPos (exec .next enumA) = some (some ⟨⟨0xC10000#24, 0x20#8⟩, 0#17⟩) := by
  decide +kernel
theorem test_wrcfg : look (fun t => t.cfg.root) (exec (.wrcfg .root 4#24) attachedA) = some (some 4#16) := by
  decide +kernel
theorem test_wrcfg_locked : answer (exec (.wrcfg .root 6#24) loadedA) = some ⟨.state, 0#24, 0#8, 0#16⟩ := by
  decide +kernel
theorem test_rdreg : answer (exec (.rdreg .bankSize) readyA) = some ⟨.ok, 0x010000#24, 0#8, 0#16⟩ := by decide +kernel
theorem test_rdreg_unwritten : answer (exec (.rdreg (.cfg .root)) attachedA) = some ⟨.state, 0#24, 0#8, 0#16⟩ := by
  decide +kernel
theorem test_illegal : answer (exec (.illegal (.command 0#40)) faultedA) = some ⟨.illegal, 0#24, 0#8, 0#16⟩ := by
  decide +kernel

/-! The register rows (log 8): a write as `WRCFG` does it, a read as `RDREG` does it. -/

theorem test_mapper_row : look (fun t => t.cfg.mapper) (exec (.mapper (.write 0#1)) readyA) = some (some 0#1) := by
  decide +kernel
theorem test_variant_row : answer (exec (.variant .read) readyB) = some ⟨.ok, 1#24, 0#8, 0#16⟩ := by decide +kernel
theorem test_addr_group_row : answer (exec (.addrGroup .read) readyA) = some ⟨.ok, 0xC00130#24, 0#8, 0#16⟩ := by
  decide +kernel
theorem test_addr_shiftbit_row : answer (exec (.addrShiftbit .read) readyA) = some ⟨.ok, 0xC00100#24, 0#8, 0#16⟩ := by
  decide +kernel
theorem test_addr_message_row : answer (exec (.addrMessage .read) readyA) = some ⟨.ok, 0xC0FFF0#24, 0#8, 0#16⟩ := by
  decide +kernel
theorem test_addr_off_row : answer (exec (.addrOff .read) readyA) = some ⟨.ok, 0xC00110#24, 0#8, 0#16⟩ := by
  decide +kernel
theorem test_addr_on_row : answer (exec (.addrOn .read) readyA) = some ⟨.ok, 0xC00120#24, 0#8, 0#16⟩ := by
  decide +kernel
theorem test_root_row : answer (exec (.root .read) readyB) = some ⟨.ok, 6#24, 0#8, 0#16⟩ := by decide +kernel
theorem test_read_size_row : look (fun t => t.cfg.readSize) (exec (.readSize (.write 2#2)) readyA) = some (some 2#2) := by
  decide +kernel
theorem test_decode_mask_row : answer (exec (.decodeMask .read) readyA) = some ⟨.ok, 0x7FFF#24, 0#8, 0#16⟩ := by
  decide +kernel
theorem test_id_first_row : answer (exec (.idFirst .read) readyB) = some ⟨.ok, 0x10#24, 0#8, 0#16⟩ := by decide +kernel
theorem test_id_last_row : answer (exec (.idLast .read) readyB) = some ⟨.ok, 0x30#24, 0#8, 0#16⟩ := by decide +kernel
theorem test_delim_count_row : answer (exec (.delimCount .read) readyB) = some ⟨.ok, 2#24, 0#8, 0#16⟩ := by
  decide +kernel
theorem test_delim_row : answer (exec (.delim 1 .read) readyB) = some ⟨.ok, 0xAF#24, 0#8, 0#16⟩ := by decide +kernel
theorem test_status_row : answer (exec .status enumA) = some ⟨.ok, 0x00000B#24, 0#8, 0#16⟩ := by decide +kernel
theorem test_bank_size_row : answer (exec .bankSize readyB) = some ⟨.ok, 0x008000#24, 0#8, 0#16⟩ := by decide +kernel
theorem test_cur_addr_row : answer (exec .curAddr enumA) = some ⟨.ok, 0xC10000#24, 0#8, 0#16⟩ := by decide +kernel
theorem test_cur_shift_row : answer (exec .curShift enumA) = some ⟨.ok, 0x80#24, 0#8, 0#16⟩ := by decide +kernel
theorem test_remain_row : answer (exec .remain enumA) = some ⟨.ok, 1#24, 0#8, 0#16⟩ := by decide +kernel
theorem test_fault_info_row : answer (exec .faultInfo faultedA) = some ⟨.ok, 0x010002#24, 0#8, 0#16⟩ := by decide +kernel

/-! The data rows (log 9), with the values of V-NODE, V-DCP, V-LOC and V-DET. -/

theorem test_node_w_leaf : look (fun t => t.temps.codes) (exec (.nodeWLeaf 0x7FFF#15)
    { readyA with cfg := { cfgA with decodeMask := some 0x00FF#16 } }) = some [0x00FF#16] := by decide +kernel
theorem test_node_w_branch : look (fun t => t.temps.node) (exec (.nodeWBranch 0x7FFF#15) readyA) =
    some (some 0x7FFF#16) := by decide +kernel
theorem test_node_v_leaf : look (fun t => t.temps.codes) (exec (.nodeVLeaf 0x142#15) readyB) = some [0x0142#16] := by
  decide +kernel
theorem test_node_v_branch : look (fun t => t.temps.node) (exec (.nodeVBranch 3#2 1#13) readyB) = some (some 2#16) := by
  decide +kernel
theorem test_grouprec : look (fun t => t.temps.start) (exec (.grouprec 0x0E#21 5#3) loadedA) =
    some (some ⟨0xC0FFFE#24, 0x04#8⟩) := by decide +kernel
theorem test_msgid_w : look (fun t => (t.temps.count, t.temps.group)) (exec (.msgidW 40#13 1#3) readyA) =
    some (some 1#4, some 120#15) := by decide +kernel
theorem test_msgid_v : look (fun t => (t.temps.count, t.temps.group)) (exec (.msgidV 4095#12 15#4) readyA) =
    some (some 15#4, some 12285#15) := by decide +kernel
theorem test_header_makeup : look (fun t => t.cfg.mapper) (exec (.headerMakeup 0x10#7 1#1) attachedA) =
    some (some 1#1) := by decide +kernel
theorem test_header_checkpair : look (fun t => t.temps.pairOk) (exec (.headerCheckpair 0x1234#16 0xEDCB#16) attachedA) =
    some (some true) := by decide +kernel
theorem test_shiftbit : look (fun t => t.temps.shift) (exec (.shiftbit 0x40#8) attachedA) = some (some 0x40#8) := by
  decide +kernel
theorem test_response : answer (exec (.response .addrOvf 0xFFFFFF#24 0#8 0#16) attachedA) =
    some ⟨.addrOvf, 0xFFFFFF#24, 0#8, 0#16⟩ := by decide +kernel

/-! ### Witnesses: a state and operands that meet all the hypotheses of a statement, clause by clause

Where a clause's hypothesis has a boundary, the witness stands on it. -/

theorem test_witness_DecodeEncodeIdentity : (Instr.delim 3 (.write 0xFFFF#16)).wf Params.standard = true := by decide

theorem test_witness_StepRunsTheDecodedInstruction :
    (Instr.enum 0#16 3#16).wf readyA.params = true ∧
    (readyA.present (encode (.enum 0#16 3#16))).inbox = [encode (.enum 0#16 3#16)] ∧ readyA.inbox = [] := by
  decide +kernel

theorem test_witness_IllegalWordsAreRefused :
    (faultedA.present (.command 0x0D00000000#40)).inbox = [.command 0x0D00000000#40] ∧
    isCommand faultedA.params 0x0D00000000#40 = false := by decide +kernel

theorem imageA_wf : imageA.wf = true := by decide +kernel

/-- A state in the middle of an enumeration meets the invariant. -/
theorem test_witness_Inv : enumA.Inv where
  params := by decide
  image := fun img h => by rw [← Option.some.inj (show some imageA = some img from h)]; exact imageA_wf
  readSize := by rintro v ⟨⟩; exact .inl rfl
  delimCount := by rintro v ⟨⟩; decide
  delims := by decide +kernel
  tables := by rintro t ⟨⟩; exact ⟨rfl, fullA, by decide +kernel, by decide, by decide, by decide⟩
  enumPos := by rintro e ⟨⟩; exact ⟨rfl, by decide, by decide⟩
  start := by rintro c ⟨⟩
  shift := by rintro m ⟨⟩
  output := by rintro r ⟨⟩

/-- The hypotheses of EveryStepKeepsTheInvariant and of EveryStepCompletes: the invariant, and a step that answers. -/
theorem test_witness_EveryStepKeepsTheInvariant :
    (enumA.present (encode .next)).Inv ∧
    ∃ t, step (enumA.present (encode .next)) = .next t ∧ t.enumPos = some ⟨⟨0xC10000#24, 0x20#8⟩, 0#17⟩ :=
  ⟨{ test_witness_Inv with }, next_of_look (by decide +kernel)⟩

theorem test_witness_NoInstructionWritesTheRom :
    enumA.rom = some imageA ∧ ∃ t, exec .next enumA = .next t ∧ t.rom = some imageA :=
  ⟨rfl, next_of_look (by decide +kernel)⟩

/-- Both endings of CommandsAnswerOnce: a `NEXT` that yields, and a command that does not. -/
theorem test_witness_CommandsAnswerOnce :
    (commandInstr .next = true ∧ ∃ t, exec .next enumA = .next t ∧ t.output.length = 1) ∧
    (commandInstr .setup = true ∧ ∃ t, exec .setup readyA = .next t ∧ t.output.length = 0) :=
  ⟨⟨by decide, next_of_look (by decide +kernel)⟩, ⟨by decide, next_of_look (by decide +kernel)⟩⟩

theorem test_witness_FaultedBlockRefusesCommands :
    faultedA.fault.isSome = true ∧ commandInstr (.wrcfg .mapper 1#24) = true ∧
    (Instr.wrcfg .mapper 1#24).wf faultedA.params = true ∧ (Instr.wrcfg .mapper 1#24) ≠ .reset ∧
    ∃ t, exec (.wrcfg .mapper 1#24) faultedA = .next t ∧ t.fault.isSome = true :=
  ⟨by decide, by decide, by decide, by decide, next_of_look (by decide +kernel)⟩

/-- Both endings of SessionFatalErrorsAreRecorded: with the tables as they were, and with those of a completed setup. -/
theorem test_witness_SessionFatalErrorsAreRecorded :
    readyA.fault = none ∧
    (commandInstr (.incaddr 0xFFFFFF#24) = true ∧ ∃ t, exec (.incaddr 0xFFFFFF#24) readyA = .next t ∧
      (t.fault, t.tables) = (some ⟨.addrOvf, 0xFFFFFF#24⟩, none)) ∧
    (commandInstr (.decchar 0#24 0#8) = true ∧ ∃ t, exec (.decchar 0#24 0#8) readyA = .next t ∧
      (t.fault, t.tables) = (some ⟨.badShift, 0#24⟩, some tablesA)) :=
  ⟨rfl, ⟨by decide, next_of_look (f := fun t => (t.fault, t.tables)) (by decide +kernel)⟩,
    ⟨by decide, next_of_look (f := fun t => (t.fault, t.tables)) (by decide +kernel)⟩⟩

/-- Each of the four codes of CallFatalErrorsChangeNothing. -/
theorem test_witness_CallFatalErrorsChangeNothing :
    (∃ t, exec (.enum 3#16 3#16) readyA = .next t ∧ t.responses = [⟨.range, 0#24, 0#8, 0#16⟩]) ∧
    (∃ t, exec .next readyA = .next t ∧ t.responses = [⟨.state, 0#24, 0#8, 0#16⟩]) ∧
    (∃ t, exec (.wrcfg .readSize 0#24) readyA = .next t ∧ t.responses = [⟨.illegal, 0#24, 0#8, 0#16⟩]) ∧
    (∃ t, exec .next faultedA = .next t ∧ t.responses = [⟨.faulted, 0#24, 0#8, 0#16⟩]) :=
  ⟨next_of_look (by decide +kernel), next_of_look (by decide +kernel), next_of_look (by decide +kernel),
    next_of_look (by decide +kernel)⟩

/-- The window one past `ID_LAST`, and the empty window, are not inside the range; the code of the second clause. -/
theorem test_witness_RangeErrorsPrecedeRomAccess :
    (readyA.fault = none ∧ readyA.cfg.full = some fullA ∧ readyA.enumPos = none ∧
      ¬ (fullA.idFirst.toNat ≤ (0#16).toNat ∧ (0#16).toNat < (0x11#16).toNat ∧ (0x11#16).toNat ≤ fullA.idLast.toNat) ∧
      ¬ (fullA.idFirst.toNat ≤ (3#16).toNat ∧ (3#16).toNat < (3#16).toNat ∧ (3#16).toNat ≤ fullA.idLast.toNat)) ∧
    (∃ t, exec (.enum 0#16 0x11#16) readyA = .next t ∧ t.responses = [⟨.range, 0#24, 0#8, 0#16⟩]) :=
  ⟨by decide +kernel, next_of_look (by decide +kernel)⟩

theorem test_witness_RomFreeCommandsIgnoreTheImage :
    (∃ t, exec (.rom2cpu 0#22) readyA = .next t ∧ t.status = 0x0001#16) ∧
    (∃ t, exec (.cpu2rom 0#24) readyA = .next t ∧ t.status = 0x0001#16) ∧
    (∃ t, exec (.incaddr 0#24) readyA = .next t ∧ t.status = 0x0001#16) ∧
    (∃ t, exec (.wrcfg .root 4#24) readyA = .next t ∧ t.status = 0x0001#16) ∧
    (∃ t, exec (.rdreg .status) readyA = .next t ∧ t.status = 0x0001#16) ∧
    (∃ t, exec .reset readyA = .next t ∧ t.status = 0x0000#16) :=
  ⟨next_of_look (by decide +kernel), next_of_look (by decide +kernel), next_of_look (by decide +kernel),
    next_of_look (by decide +kernel), next_of_look (by decide +kernel), next_of_look (by decide +kernel)⟩

/-- The constants of HiromMapsIntoTheTopBanks, LoromMapsIntoUpperHalves, MapperRoundTrip and IncrementFollowsTheRom. -/
theorem test_witness_mapper_constants :
    Params.standard.hiromBase = 0xC00000#24 ∧ Params.standard.hiromMask = 0x3FFFFF#24 ∧
    Params.standard.loromBankMask = 0x7F#8 := by decide

/-- The last address that increments, the crossing of a bank, the first sum that overflows and the last that does not. -/
theorem test_witness_IncrementWrapsAtBanks :
    (0xFFFFFE#24 : CpuAddr) ≠ 0xFFFFFF#24 ∧ ((0x00FFFF#24 : CpuAddr).toNat + 1) % 0x10000 = 0 ∧
    0xFFFFFF < (0xFFFFFF#24 : CpuAddr).toNat + 1 ∧ (0xFFFFFE#24 : CpuAddr).toNat + 1 ≤ 0xFFFFFF := by decide

theorem test_witness_IncrementFollowsTheRom :
    (0x00FFFF#24 : CpuAddr).getLsbD 15 = true ∧
    answers 0x018000#24 (incrementAddress .lorom 0x00FFFF#24) = true ∧
    answers 0x001235#24 (incrementAddress .hirom 0x001234#24) = true := by decide

theorem test_witness_MapperCommandsAnswerTheirFunction :
    faultedA.fault.isSome = true ∧ (attachedA.fault = none ∧ attachedA.cfg.mapper = none) ∧
    (readyB.fault = none ∧ readyB.cfg.mapper = some 0#1) ∧
    answers 0x018000#24 (incrementAddress (Mapper.ofBit 0#1) 0x00FFFF#24) = true ∧
    (opcodeOf 0x0300400000#40 = 0x03#8 ∧ (0x0300400000#40 : BitVec 40).extractLsb' 22 10 ≠ 0#10) := by decide +kernel

/-- Image B has a header at the first candidate, image A at the second only, an image of 0x7FDF bytes at neither. -/
theorem test_witness_DetectTakesTheFirstValidHeader :
    faultedA.fault.isSome = true ∧ (loadedA.fault = none ∧ loadedA.tables.isSome = true) ∧
    (State.reset.fault = none ∧ State.reset.tables = none ∧ State.reset.rom = none) ∧
    (attachedA.fault = none ∧ attachedA.tables = none ∧ attachedA.rom = some imageA) ∧
    headerValid imageB 0x7FC0 ∧ (¬ headerValid imageA 0x7FC0 ∧ headerValid imageA 0xFFC0) ∧
    (¬ headerValid (Image.blank 0x7FDF) 0x7FC0 ∧ ¬ headerValid (Image.blank 0x7FDF) 0xFFC0) := by
  unfold headerValid
  decide +kernel

/-- The last byte of image A is inside a read of two, the next is past it. -/
theorem test_witness_RomReadReturnsTheBytesThatExist :
    (0 < 2 ∧ (romRead imageA 0x10001 2)[0]? = some 0x00#8) ∧ (2 ≤ 2 ∧ (romRead imageA 0x10001 2)[2]? = none) ∧
    imageA.wf = true ∧ (0x10000, 0xD8#8) ∈ imageA.cells ∧ (0x10001 < imageA.size ∧ imageA.size ≤ 0x10002) ∧
    (imageA.cells.all fun c => c.1 != 0x10001) = true := by
  decide +kernel

theorem test_witness_GetBitsRightJustifies : 2 ^ 3 ∣ 0xFFFFF8 ∧ ¬ 2 ^ (3 + 1) ∣ 0xFFFFF8 := by decide

/-- Each assertion of SetupAssertsInOrder fails in turn, one byte short of the table or of the range, and then none, with
the table addresses CPU addresses; and image A has the same shift-bit array at the ROM offset 0x100. -/
theorem test_witness_SetupAssertsInOrder :
    let place := fun (a : CpuAddr) => (fromCpu Params.standard .hirom a).toNat
    Params.standard.tableSpace = .cpu ∧
    (romRead imageA (place 0xC0FFFB#24) 8).length = 7 ∧
    (romRead imageA (place fullA.addrShiftbit) 8).length = 8 ∧
    (romRead imageA (place 0xC0FFFD#24) (fullA.root.toNat + 2)).length = 5 ∧
    (romRead imageA (place fullA.addrOff) (fullA.root.toNat + 2)).length = 6 ∧
    (romRead imageA (place 0xC0FFFC#24) (fullA.root.toNat + 2)).length = 6 ∧
    (0x10#16 : MessageId).toNat ≤ (0x10#16 : MessageId).toNat ∧ fullA.idFirst.toNat < fullA.idLast.toNat ∧
    ({ Params.standard with tableSpace := .rom } : Params).tableSpace ≠ .cpu ∧
    (romRead imageA (0x000100#24 : CpuAddr).toNat 8).length = 8 := by
  decide +kernel

theorem test_witness_SetupCommandLoadsTheTables :
    faultedA.fault.isSome = true ∧ (attachedA.fault = none ∧ attachedA.cfg.full = none) ∧
    (loadedA.fault = none ∧ loadedA.cfg.full = some fullA ∧ loadedA.tables.isSome = true) ∧
    (({ readyA with rom := none } : State).rom = none ∧ ({ readyA with rom := none } : State).tables = none) ∧
    (readyA.fault = none ∧ readyA.cfg.full = some fullA ∧ readyA.tables = none ∧ readyA.rom = some imageA) := by
  decide +kernel

/-- Setup of configuration A gives its tables; with `ID_FIRST = ID_LAST` it asserts. -/
theorem test_witness_setup_of_A :
    runSetup Params.standard imageA fullA = .ok tablesA ∧
    runSetup Params.standard imageA { fullA with idFirst := 0x10#16 } = .error (.session .assertion 1#24) :=
  ⟨eq_of_answers (by decide +kernel), eq_of_raises (by decide +kernel)⟩

theorem test_witness_ReadBitReadsOneBit :
    singleBit 0x80#8 = true ∧ decoderA.cfg.readSize = 1#2 ∧ ({ fullA with readSize := 2#2 } : FullCfg).readSize = 2#2 ∧
    decoderA.image.size ≤ (fromCpu decoderA.params decoderA.cfg.mapper 0xC10002#24).toNat ∧
    (fromCpu decoderA.params decoderA.cfg.mapper 0xC10001#24).toNat < decoderA.image.size := by decide +kernel

/-- The masks where a byte ends and the masks just before, in both variants. -/
theorem test_witness_AdvanceMovesOneBit :
    (0x01#8 : Byte) >>> 1 = 0#8 ∧ (0x02#8 : Byte) >>> 1 ≠ 0#8 ∧ 0x80 < 2 * (0x80#8 : Byte).toNat ∧
    2 * (0x40#8 : Byte).toNat ≤ 0x80 ∧ singleBit 0x20#8 = true ∧ decoderA.cfg.variant = .varW ∧
    ({ fullA with variant := .varV } : FullCfg).variant = .varV := by decide

theorem test_witness_advance_answers :
    advance decoderA ⟨0xC0FFFF#24, 0x01#8⟩ = .ok ⟨0xC10000#24, 0x80#8⟩ :=
  eq_of_answers (by decide +kernel)

/-- The character 0x11 of image A: one bit, a leaf. -/
theorem witness_char_leaf : CharWalk decoderA 4#16 ⟨0xC0FFFE#24, 0x04#8⟩ (⟨0xC0FFFE#24, 0x02#8⟩, 0x0011#16) :=
  .leaf (bit := false) (eq_of_answers (by decide +kernel)) (eq_of_answers (by decide +kernel))
    (by decide +kernel)

/-- The character 0xAC of image A: two bits, a branch and a leaf. -/
theorem witness_char_branch : CharWalk decoderA 4#16 cursor2 (⟨0xC10000#24, 0x20#8⟩, 0x00AC#16) :=
  .branch (bit := true) (c' := ⟨0xC10000#24, 0x40#8⟩) (eq_of_answers (by decide +kernel))
    (eq_of_answers (by decide +kernel)) (by decide +kernel)
    (.leaf (bit := true) (eq_of_answers (by decide +kernel)) (eq_of_answers (by decide +kernel))
      (by decide +kernel))

/-- A character past the end of image A, read at the first offset that does not exist. -/
theorem witness_char_fails :
    CharFails decoderA 4#16 ⟨0xC10002#24, 0x80#8⟩ (.session .romBounds 0x010002#24) :=
  .read (eq_of_raises (by decide +kernel))

theorem witness_message : MessageWalk decoderA cursor2 (⟨0xC10000#24, 0x20#8⟩, [0x00AC#16]) :=
  .last witness_char_branch (by decide)

theorem witness_message_fails : MessageFails decoderA ⟨0xC10002#24, 0x80#8⟩ (.session .romBounds 0x010002#24) :=
  .char witness_char_fails

/-- The mask of DecodeCharIsTheUnboundedLoop, DecodeMessageIsTheUnboundedLoop and EveryWalkEnds, with both endings. -/
theorem test_witness_walks :
    singleBit cursor2.shift = true ∧ singleBit (0x80#8 : Byte) = true ∧
    (∃ r, CharWalk decoderA decoderA.cfg.root cursor2 r) ∧ (∃ r, MessageWalk decoderA cursor2 r) ∧
    (∃ a, CharFails decoderA decoderA.cfg.root ⟨0xC10002#24, 0x80#8⟩ a) ∧
    (∃ a, MessageFails decoderA ⟨0xC10002#24, 0x80#8⟩ a) :=
  ⟨by decide, by decide, ⟨_, witness_char_branch⟩, ⟨_, witness_message⟩, ⟨_, witness_char_fails⟩,
    ⟨_, witness_message_fails⟩⟩

theorem test_witness_DelimitersEndMessages :
    decodeMessage decoderA cursor2 = .ok (⟨0xC10000#24, 0x20#8⟩, [0x00AC#16]) := eq_of_answers (by decide +kernel)

/-- Two decoders that differ in the shift-bit array and in a table address only. -/
theorem test_witness_DecodeCharReadsFiveRegisters :
    let e : Decoder := ⟨Params.standard, imageA, { fullA with addrOff := 0#24 }, tablesZero⟩
    decoderA.params = e.params ∧ decoderA.image = e.image ∧ decoderA.tables.off = e.tables.off ∧
      decoderA.tables.on = e.tables.on ∧ decoderA.cfg.root = e.cfg.root ∧ decoderA.cfg.readSize = e.cfg.readSize ∧
      decoderA.cfg.decodeMask = e.cfg.decodeMask ∧ decoderA.cfg.variant = e.cfg.variant ∧
      decoderA.cfg.mapper = e.cfg.mapper ∧ decoderA ≠ e := by decide +kernel

/-- The checks of a decoder command, one failing in each state: `FAULT`, `ConfigComplete`, the image, the assertions. -/
theorem test_witness_decoder_checks :
    faultedA.fault.isSome = true ∧ (attachedA.fault = none ∧ attachedA.cfg.full = none) ∧
    (({ readyA with rom := none } : State).fault = none ∧ ({ readyA with rom := none } : State).cfg.full = some fullA ∧
      ({ readyA with rom := none } : State).rom = none) ∧
    (narrowA.fault = none ∧ narrowA.cfg.full = some { fullA with idFirst := 0x10#16 } ∧ narrowA.rom = some imageA ∧
      narrowA.tables = none ∧
      runSetup narrowA.params imageA { fullA with idFirst := 0x10#16 } = .error (.session .assertion 1#24)) :=
  ⟨by decide, by decide +kernel, by decide +kernel, rfl, by decide +kernel, rfl, rfl, test_witness_setup_of_A.2⟩

/-- What holds once the checks have passed, before setup and after it; the clauses of DeccharAnswersTheCharacter are met by
the masks 0x03 and 0x80, witness_char_fails and witness_char_branch. -/
theorem test_witness_decoder_command :
    (readyA.fault = none ∧ readyA.cfg.full = some fullA ∧ readyA.rom = some imageA ∧
      readyA.tables = none ∧ runSetup readyA.params imageA fullA = .ok tablesA) ∧
    (loadedA.fault = none ∧ loadedA.cfg.full = some fullA ∧ loadedA.rom = some imageA ∧ loadedA.tables = some tablesA) ∧
    (0x03#8 : Byte).toNat ∉ [0x01, 0x02, 0x04, 0x08, 0x10, 0x20, 0x40, 0x80] ∧
    (0x80#8 : Byte).toNat ∈ [0x01, 0x02, 0x04, 0x08, 0x10, 0x20, 0x40, 0x80] :=
  ⟨⟨rfl, by decide +kernel, rfl, rfl, test_witness_setup_of_A.1⟩, ⟨rfl, by decide +kernel, rfl, rfl⟩, by decide,
    by decide⟩

/-- A locate that answers and one that runs off the image. -/
theorem test_witness_LocateAnswersTheStart :
    (readyA.fault = none ∧ readyA.cfg.full = some fullA ∧ readyA.rom = some imageA ∧
      readyA.tables = none ∧ runSetup readyA.params imageA fullA = .ok tablesA) ∧
    locateMessage decoderA 8#16 = .ok cursor2 ∧
    locateMessage decoderA 0x0B#16 = .error (.session .romBounds 0x010002#24) :=
  ⟨test_witness_decoder_command.1, eq_of_answers (by decide +kernel), eq_of_raises (by decide +kernel)⟩

/-- An enumeration already started; a window that is empty, one past the range; the largest window inside it, and the last
window of one message, whose locate runs off the image. -/
theorem test_witness_EnumStartsTheEnumeration :
    (enumA.fault = none ∧ enumA.cfg.full = some fullA ∧ enumA.enumPos.isSome = true) ∧
    (readyA.fault = none ∧ readyA.cfg.full = some fullA ∧ readyA.enumPos = none ∧ readyA.rom = some imageA) ∧
    ¬ (fullA.idFirst.toNat ≤ (3#16).toNat ∧ (3#16).toNat < (3#16).toNat ∧ (3#16).toNat ≤ fullA.idLast.toNat) ∧
    ¬ (fullA.idFirst.toNat ≤ (0#16).toNat ∧ (0#16).toNat < (0x11#16).toNat ∧ (0x11#16).toNat ≤ fullA.idLast.toNat) ∧
    (readyA.tables = none ∧ runSetup readyA.params imageA fullA = .ok tablesA) ∧
    (fullA.idFirst.toNat ≤ (0#16).toNat ∧ (0#16).toNat < (0x10#16).toNat ∧ (0x10#16).toNat ≤ fullA.idLast.toNat) ∧
    locateMessage decoderA 0#16 = .ok ⟨0xC0FFFE#24, 0x04#8⟩ ∧
    (fullA.idFirst.toNat ≤ (0x0F#16).toNat ∧ (0x0F#16).toNat < (0x10#16).toNat ∧
      (0x10#16).toNat ≤ fullA.idLast.toNat) ∧
    locateMessage decoderA 0x0F#16 = .error (.session .romBounds 0x010002#24) :=
  ⟨by decide +kernel, by decide +kernel, by decide, by decide, ⟨rfl, test_witness_setup_of_A.1⟩, by decide,
    eq_of_answers (by decide +kernel), by decide, eq_of_raises (by decide +kernel)⟩

/-- A state for each of the six cases of StateErrors. -/
theorem test_witness_StateErrors :
    (attachedA.fault = none ∧ attachedA.cfg.mapper = none ∧ attachedA.cfg.full = none) ∧
    (loadedA.fault = none ∧ loadedA.tables.isSome = true ∧ CfgReg.root.legal loadedA.params 6#24 = true) ∧
    (enumA.fault = none ∧ enumA.enumPos.isSome = true) ∧ (readyA.fault = none ∧ readyA.enumPos = none) ∧
    ((Reg.cfg .root).present attachedA.params = true ∧ attachedA.readReg (.cfg .root) = none) := by decide +kernel

/-- Every case of AbsentImageIsAnIoError. -/
theorem test_witness_AbsentImageIsAnIoError :
    let s : State := { readyA with rom := none }
    let u : State := { enumA with rom := none }
    (s.fault = none ∧ s.rom = none ∧ s.tables = none ∧ s.cfg.full = some fullA ∧ s.enumPos = none ∧
      fullA.idFirst.toNat ≤ (0#16).toNat ∧ (0#16).toNat < (3#16).toNat ∧ (3#16).toNat ≤ fullA.idLast.toNat) ∧
    (u.fault = none ∧ u.rom = none ∧ u.tables.isSome = true ∧ u.cfg.full = some fullA ∧
      u.enumPos = some ⟨cursor2, 1#17⟩ ∧ (1#17 : BitVec 17) ≠ 0#17) := by
  decide +kernel

/-- The clauses of NextYieldsOneMessage; a message that is there is witness_message, one that is not is
witness_message_fails. -/
theorem test_witness_NextYieldsOneMessage :
    faultedA.fault.isSome = true ∧ (loadedA.fault = none ∧ loadedA.enumPos = none) ∧
    (({ loadedA with enumPos := some ⟨cursor2, 0#17⟩ } : State).enumPos = some ⟨cursor2, 0#17⟩) ∧
    (enumA.fault = none ∧ enumA.enumPos = some ⟨cursor2, 1#17⟩ ∧ (1#17 : BitVec 17) ≠ 0#17 ∧
      enumA.cfg.full = some fullA ∧ enumA.tables = some tablesA ∧ enumA.rom = some imageA ∧
      singleBit cursor2.shift = true) ∧
    enumA.params = decoderA.params ∧ decoderA.cfg = fullA ∧ decoderA.tables = tablesA := by decide +kernel

/-- The five cases of LocateFollowsTheGroupRecord: the record past the CPU space, the record at the first offset past the
image, a mask that is no single bit, a start one past the CPU space, and a start on its last byte. -/
theorem test_witness_LocateFollowsTheGroupRecord :
    let group := (decompose .varW 8#16).2.toNat
    let rec3 := leValue (romRead imageA 0x0130 3)
    0xFFFFFF < (0xFFFFFD#24 : CpuAddr).toNat + group ∧ (0xFFFFFC#24 : CpuAddr).toNat + group ≤ 0xFFFFFF ∧
    Params.standard.tableSpace = .cpu ∧
    imageA.size ≤ (fromCpu Params.standard .hirom (BitVec.ofNat 24 (0xC10002#24 : CpuAddr).toNat)).toNat ∧
    (fromCpu Params.standard .hirom (BitVec.ofNat 24 (0xC10001#24 : CpuAddr).toNat)).toNat < imageA.size ∧
    singleBit (tablesZero.shiftbit[rec3 % 8]'(Nat.mod_lt _ (by omega))) = false ∧
    singleBit (tablesA.shiftbit[rec3 % 8]'(Nat.mod_lt _ (by omega))) = true ∧
    0xFFFFFF < rec3 / 8 + (0xFFFFF2#24 : CpuAddr).toNat ∧ rec3 / 8 + (0xFFFFF1#24 : CpuAddr).toNat ≤ 0xFFFFFF := by
  decide +kernel

theorem test_witness_NextsFollowTheStream :
    (enumA.fault = none ∧ enumA.enumPos = some ⟨cursor2, 1#17⟩ ∧ enumA.cfg.full = some fullA ∧
      enumA.tables = some tablesA ∧ enumA.rom = some imageA ∧ singleBit cursor2.shift = true ∧
      1 ≤ (1#17 : BitVec 17).toNat) ∧ SkipWalk ⟨enumA.params, imageA, fullA, tablesA⟩ 1 cursor2 ⟨0xC10000#24, 0x20#8⟩ :=
  ⟨by decide +kernel, _, _, witness_message, rfl⟩

theorem test_witness_WrcfgWritesOneRegister :
    CfgReg.readSize.legal readyA.params 3#24 = false ∧ CfgReg.readSize.legal readyA.params 2#24 = true ∧
    faultedA.fault.isSome = true ∧ (loadedA.fault = none ∧ loadedA.tables.isSome = true) ∧
    (readyA.fault = none ∧ readyA.tables = none) ∧ (CfgReg.root ≠ .readSize) := by decide +kernel

/-- The second clause of ResetStartsAFreshSession, each of its three flags set. -/
theorem test_witness_ResetStartsAFreshSession :
    (Instr.rdreg .status) ≠ .reset ∧
    (∃ t, exec (.rdreg .status) { enumA with fault := some ⟨.io, 0#24⟩ } = .next t ∧ t.status = 0x041B#16) ∧
    ({ enumA with fault := some ⟨.io, 0#24⟩ } : State).status = 0x041B#16 :=
  ⟨by decide, next_of_look (by decide +kernel), by decide +kernel⟩

theorem test_witness_RdregAnswersTheValue :
    ((Reg.cfg .root).present readyA.params = true ∧ readyA.readReg (.cfg .root) = some 4#24) ∧
    ((Reg.curAddr).present readyA.params = true ∧ readyA.readReg .curAddr = none) ∧
    (Reg.cfg (.delim 4)).present readyA.params = false := by decide +kernel

/-- The clauses of StatusLayout and of ReadOnlyRegisterValues. -/
theorem test_witness_ReadOnlyRegisterValues :
    readyA.cfg.mapper = some 1#1 ∧ readyB.cfg.mapper = some 0#1 ∧ attachedA.cfg.mapper = none ∧ readyA.enumPos = none ∧
    enumA.enumPos = some ⟨cursor2, 1#17⟩ ∧ readyA.fault = none ∧ faultedA.fault = some ⟨.romBounds, 0x010002#24⟩ := by
  decide +kernel

theorem test_witness_ConfigurationIsLockedBySetup :
    (loadedA.tables.isSome = true ∧ loadedA.fault = none ∧ CfgReg.root.legal loadedA.params 0xFFFF#24 = true) ∧
    (Instr.setup ≠ .reset ∧ ∃ t, exec .setup loadedA = .next t ∧ t.tables = some tablesA) :=
  ⟨by decide +kernel, by decide, next_of_look (by decide +kernel)⟩

/-- The two configurations are complete, each with the other mapper and the other variant. -/
theorem test_witness_ConfigCompleteMeansWritten :
    cfgA.full = some fullA ∧ cfgB.full.map (fun f => (f.mapper, f.variant)) = some (.lorom, .varV) := by decide +kernel

/-- Configuration B is complete with two delimiters; its set has the second one. -/
theorem test_witness_DelimiterSet :
    (cfgB.full.isSome = true ∧ cfgB.delimCount = some 2#5) ∧ (1 < (2#5 : BitVec 5).toNat ∧ cfgB.delimAt 1 = some 0x00AF#16) ∧
    (cfgA.full = some fullA ∧ cfgA.delimCount = some 1#5) := by decide +kernel

/-- The clauses of RegisterMapOfTheTable: the last register that exists and the first number that is none, and the largest
legal value of a register and the smallest that is none. -/
theorem test_witness_RegisterMapOfTheTable :
    CfgReg.ofNumber Params.standard 0x13#8 = some (.delim 3) ∧ CfgReg.ofNumber Params.standard 0x14#8 = none ∧
    Reg.ofNumber Params.standard 0x25#8 = some .faultInfo ∧ Reg.ofNumber Params.standard 0x26#8 = none ∧
    CfgReg.legal Params.standard .mapper 1#24 = true ∧ CfgReg.legal Params.standard .mapper 2#24 = false ∧
    CfgReg.legal Params.standard .delimCount 4#24 = true ∧ CfgReg.legal Params.standard .delimCount 5#24 = false ∧
    CfgReg.legal Params.standard .root 0xFFFF#24 = true ∧ CfgReg.legal Params.standard .root 0x10000#24 = false := by decide

theorem test_witness_RegisterRowsAreAccesses :
    ((Reg.cfg .root).present readyA.params = true ∧ readyA.readReg (.cfg .root) = some 4#24) ∧
    ((Reg.cfg .root).present attachedA.params = true ∧ attachedA.readReg (.cfg .root) = none) ∧
    (CfgReg.root.legal readyA.params 0xFFFF#24 = true ∧ readyA.fault = none ∧ readyA.tables = none) := by decide +kernel

theorem test_witness_TreeEntryRowsMoveTheWalk :
    (readyA.fault = none ∧ readyA.cfg.decodeMask = some 0x7FFF#16) ∧ faultedA.fault.isSome = true ∧
    (attachedA.fault = none ∧ attachedA.cfg.decodeMask = none) := by decide +kernel

/-- Each clause of DataRowsActOnTheTemporaries; the start of a group on the last byte of the CPU space and one past it. -/
theorem test_witness_DataRowsActOnTheTemporaries :
    (loadedA.fault = none ∧ loadedA.tables = some tablesA ∧
      ({ loadedA with cfg := { cfgA with addrMessage := some 0xFFFFF1#24 } } : State).cfg.addrMessage =
        some 0xFFFFF1#24 ∧
      singleBit (tablesA.shiftbit[(5#3 : BitVec 3).toNat]'(5#3 : BitVec 3).isLt) = true ∧
      (0xFFFFF1#24 : CpuAddr).toNat + (0x0E#21 : BitVec 21).toNat ≤ 0xFFFFFF ∧
      0xFFFFFF < (0xFFFFF1#24 : CpuAddr).toNat + (0x0F#21 : BitVec 21).toNat) ∧
    faultedA.fault.isSome = true ∧ (loadedA.tables.isSome = true ∧ readyA.tables = none) ∧
    ({ loadedA with cfg := { cfgA with addrMessage := none } } : State).cfg.addrMessage = none ∧
    singleBit (tablesZero.shiftbit[(5#3 : BitVec 3).toNat]'(5#3 : BitVec 3).isLt) = false ∧
    (attachedA.fault = none ∧ attachedA.tables = none) ∧ singleBit 0x40#8 = true ∧ singleBit 0x03#8 = false := by
  decide +kernel

end Sys2Proof.Tests
end

section
/-! PROOFS. The family of 10_state.md: the values after reset (R30), and the lock that setup puts on the configuration and
the tables (R33). -/

namespace Sys2Proof.Machine

/-! ### What a command that runs to a state makes true of it -/

/-- Every state that `r` runs to has `P`. An error says nothing: what taking one leaves unchanged is said once, for
`State.abort`. -/
def Yields (P : State → Prop) (r : Except Abort State) : Prop := ∀ u, r = .ok u → P u

theorem yields_pure {P : State → Prop} {u : State} (h : P u) : Yields P (pure u) := by
  rintro _ ⟨⟩
  exact h

theorem yields_error (P : State → Prop) (a : Abort) : Yields P (.error a) := by
  rintro _ ⟨⟩

theorem yields_bind {P : State → Prop} {α : Type} {x : Except Abort α} {f : α → Except Abort State}
    (h : ∀ a, x = .ok a → Yields P (f a)) : Yields P (x >>= f) := by
  intro u hu
  obtain ⟨a, hx, hf⟩ := bind_eq_ok.mp hu
  exact h a hx u hf

/-! ### Steps that leave the configuration and the tables alone -/

/-- `t` has the configuration and the tables of `s`. -/
def State.SameSetup (s t : State) : Prop := t.cfg = s.cfg ∧ t.tables = s.tables

theorem State.respond_sameSetup (s : State) (code : RespCode) (r0 : BitVec 24) (r1 : BitVec 8) (r2 : BitVec 16) :
    s.SameSetup (s.respond code r0 r1 r2) := ⟨rfl, rfl⟩

theorem State.withTemps_sameSetup (s : State) (ts : Temps) : s.SameSetup (s.withTemps ts) := ⟨rfl, rfl⟩

/-- No error, call-fatal or session-fatal, touches the configuration or the tables (R254, R255). -/
theorem State.abort_sameSetup {s t : State} {a : Abort} (h : s.abort a = .next t) : s.SameSetup t := by
  obtain ⟨e, -, rfl⟩ | ⟨e, info, -, rfl⟩ := State.abort_next h
  · exact ⟨rfl, rfl⟩
  · exact ⟨rfl, rfl⟩

theorem State.conclude_sameSetup {s t : State} {r : Except Abort State} (h : s.conclude r = .next t)
    (hr : Yields s.SameSetup r) : s.SameSetup t := by
  obtain hok | ⟨a, -, ha⟩ := State.conclude_next h
  · exact hr t hok
  · exact State.abort_sameSetup ha

theorem State.accessRead_sameSetup {s t : State} {r : Reg} (h : s.accessRead r = .next t) : s.SameSetup t := by
  obtain ⟨-, _, -, rfl⟩ | ⟨-, -, rfl⟩ | ⟨-, rfl⟩ := State.accessRead_next h
  · exact ⟨rfl, rfl⟩
  · exact ⟨rfl, rfl⟩
  · exact ⟨rfl, rfl⟩

/-! ### The lock (R33) -/

/-- The check that `DETECT`, `WRCFG` and `HEADER.MAKEUP` begin with fails once `SETUP_DONE = 1`. -/
theorem State.needUnlocked_of_isSome {s : State} (hl : s.tables.isSome = true) :
    s.needUnlocked = .error (.call .state) := by
  simp [State.needUnlocked, State.setupDone, hl]

/-- Nothing behind the lock's check is reached once `SETUP_DONE = 1`. -/
theorem State.yields_needUnlocked {s : State} (hl : s.tables.isSome = true) (P : State → Prop)
    (f : Unit → Except Abort State) : Yields P (s.needUnlocked >>= f) := by
  rw [State.needUnlocked_of_isSome hl]
  exact yields_error P _

theorem execDetect_of_locked {s : State} (hl : s.tables.isSome = true) (hf : s.fault = none) :
    execDetect s = .next (s.respond .state 0#24 0#8 0#16) := by
  simp [execDetect, hf, State.needUnlocked_of_isSome hl, CallError.code]

theorem State.accessWrite_of_locked {s : State} {r : CfgReg} {value : BitVec 24} (hl : s.tables.isSome = true)
    (hf : s.fault = none) (hv : r.legal s.params value = true) :
    s.accessWrite r value = .next (s.respond .state 0#24 0#8 0#16) := by
  simp [State.accessWrite, hv, hf, State.needUnlocked_of_isSome hl, CallError.code]

theorem State.accessWrite_sameSetup {s t : State} {r : CfgReg} {value : BitVec 24} (hl : s.tables.isSome = true)
    (h : s.accessWrite r value = .next t) : s.SameSetup t := by
  obtain ⟨-, -, hn, -⟩ | ⟨-, -, rfl⟩ | ⟨-, -, -, rfl⟩ | ⟨-, rfl⟩ := State.accessWrite_next h
  · simp [hn] at hl
  · exact ⟨rfl, rfl⟩
  · exact ⟨rfl, rfl⟩
  · exact ⟨rfl, rfl⟩

theorem State.access_sameSetup {s t : State} {n : Nat} {r : CfgReg} {op : RegOp n} (hl : s.tables.isSome = true)
    (h : s.access r op = .next t) : s.SameSetup t := by
  cases op with
  | read => exact State.accessRead_sameSetup h
  | write value => exact State.accessWrite_sameSetup hl h

/-- Once `SETUP_DONE = 1` the implicit setup of a decoder command is the cached one (R183), so its body runs on the state
as it was. -/
theorem State.decoderCommand_sameSetup {s t : State} {check : FullCfg → Except Abort Unit}
    {body : Decoder → State → Except Abort State} (hl : s.tables.isSome = true)
    (h : s.decoderCommand check body = .next t) (hbody : ∀ d, Yields s.SameSetup (body d s)) : s.SameSetup t := by
  obtain ⟨a, -, ha⟩ | ⟨c, img, a, -, -, ha⟩ | ⟨c, img, tb, -, htb, ht⟩ := State.decoderCommand_next h
  · exact State.abort_sameSetup ha
  · exact State.abort_sameSetup ha
  · have hcached : s.tables = some tb := by
      obtain hs | ⟨hn, -⟩ := State.ensureSetup_ok htb
      · exact hs
      · simp [hn] at hl
    have hself : { s with tables := some tb } = s := by rw [← hcached]
    rw [hself] at ht
    exact State.conclude_sameSetup ht (hbody _)

theorem execDetect_sameSetup {s t : State} (hl : s.tables.isSome = true) (h : execDetect s = .next t) :
    s.SameSetup t :=
  State.conclude_sameSetup h (yields_bind fun _ _ => State.yields_needUnlocked hl _ _)

theorem execHeaderMakeup_sameSetup {s t : State} {ignored : BitVec 7} {hirom : BitVec 1}
    (hl : s.tables.isSome = true) (h : execHeaderMakeup ignored hirom s = .next t) : s.SameSetup t :=
  State.conclude_sameSetup h (yields_bind fun _ _ => State.yields_needUnlocked hl _ _)

/-- A second `SETUP` answers before it reads anything (R182). -/
theorem execSetup_sameSetup {s t : State} (hl : s.tables.isSome = true) (h : execSetup s = .next t) :
    s.SameSetup t := by
  refine State.conclude_sameSetup h (yields_bind fun _ _ => yields_bind fun c _ => ?_)
  rw [if_pos (show s.setupDone = true from hl)]
  exact yields_pure (s.respond_sameSetup ..)

/-! ### The commands that only answer -/

theorem execRom2cpu_sameSetup {s t : State} {rom : RomAddr} (h : execRom2cpu rom s = .next t) : s.SameSetup t :=
  State.conclude_sameSetup h (yields_bind fun _ _ => yields_bind fun _ _ => yields_pure (s.respond_sameSetup ..))

theorem execCpu2rom_sameSetup {s t : State} {cpu : CpuAddr} (h : execCpu2rom cpu s = .next t) : s.SameSetup t :=
  State.conclude_sameSetup h (yields_bind fun _ _ => yields_bind fun _ _ => yields_pure (s.respond_sameSetup ..))

theorem execIncaddr_sameSetup {s t : State} {cpu : CpuAddr} (h : execIncaddr cpu s = .next t) : s.SameSetup t :=
  State.conclude_sameSetup h (yields_bind fun _ _ => yields_bind fun _ _ => yields_bind fun _ _ =>
    yields_pure (s.respond_sameSetup ..))

theorem execLocate_sameSetup {s t : State} {id : MessageId} (hl : s.tables.isSome = true)
    (h : execLocate id s = .next t) : s.SameSetup t :=
  State.decoderCommand_sameSetup hl h fun _ => yields_bind fun _ _ => yields_pure (s.respond_sameSetup ..)

theorem execDecchar_sameSetup {s t : State} {address : CpuAddr} {shift : Byte} (hl : s.tables.isSome = true)
    (h : execDecchar address shift s = .next t) : s.SameSetup t :=
  State.decoderCommand_sameSetup hl h fun _ => yields_bind fun _ _ => yields_bind fun _ _ =>
    yields_pure (s.respond_sameSetup ..)

/-- `ENUM` writes the working registers, which are neither configuration nor tables (R230). -/
theorem execEnum_sameSetup {s t : State} {first last : MessageId} (hl : s.tables.isSome = true)
    (h : execEnum first last s = .next t) : s.SameSetup t :=
  State.decoderCommand_sameSetup hl h fun _ => yields_bind fun _ _ => yields_pure ⟨rfl, rfl⟩

/-- `NEXT` writes the working registers and the output port (R232). -/
theorem execNext_sameSetup {s t : State} (h : execNext s = .next t) : s.SameSetup t := by
  refine State.conclude_sameSetup h (yields_bind fun _ _ => yields_bind fun e _ => ?_)
  split
  · exact yields_pure (s.respond_sameSetup ..)
  · exact yields_bind fun _ _ => yields_bind fun _ _ => yields_bind fun _ _ => yields_bind fun _ _ =>
      yields_pure ⟨rfl, rfl⟩

/-! ### The data rows, which act on the temporaries -/

theorem State.reachLeaf_sameSetup {s t : State} {entry : TreeWord} (h : s.reachLeaf entry = .next t) :
    s.SameSetup t := by
  refine State.conclude_sameSetup h (yields_bind fun _ _ => ?_)
  split
  · exact yields_pure (s.withTemps_sameSetup _)
  · exact yields_error _ _

theorem State.takeBranch_sameSetup {s t : State} {v : Variant} {entry : TreeWord}
    (h : s.takeBranch v entry = .next t) : s.SameSetup t :=
  State.conclude_sameSetup h (yields_bind fun _ _ => yields_pure (s.withTemps_sameSetup _))

theorem State.splitId_sameSetup {s t : State} {v : Variant} {id : MessageId} (h : s.splitId v id = .next t) :
    s.SameSetup t :=
  State.conclude_sameSetup h (yields_bind fun _ _ => yields_pure (s.withTemps_sameSetup _))

theorem execGrouprec_sameSetup {s t : State} {off : BitVec 21} {idx : BitVec 3}
    (h : execGrouprec off idx s = .next t) : s.SameSetup t := by
  refine State.conclude_sameSetup h (yields_bind fun _ _ => yields_bind fun _ _ => ?_)
  split
  · exact yields_bind fun _ _ => yields_pure (s.withTemps_sameSetup _)
  · exact yields_error _ _

theorem execHeaderCheckpair_sameSetup {s t : State} {wordB wordA : BitVec 16}
    (h : execHeaderCheckpair wordB wordA s = .next t) : s.SameSetup t :=
  State.conclude_sameSetup h (yields_bind fun _ _ => yields_pure (s.withTemps_sameSetup _))

theorem execShiftbit_sameSetup {s t : State} {mask : Byte} (h : execShiftbit mask s = .next t) : s.SameSetup t :=
  State.conclude_sameSetup h (yields_bind fun _ _ => yields_bind fun _ _ => yields_pure (s.withTemps_sameSetup _))

theorem execResponse_sameSetup {s t : State} {code : RespCode} {r0 : BitVec 24} {r1 : BitVec 8} {r2 : BitVec 16}
    (h : execResponse code r0 r1 r2 s = .next t) : s.SameSetup t := by
  cases h
  exact s.respond_sameSetup ..

/-! ### Every instruction -/

/-- The lock, for the whole instruction set: only `RESET` gets past it. -/
theorem exec_sameSetup_of_locked {i : Instr} {s t : State} (hl : s.tables.isSome = true) (hi : i ≠ .reset)
    (h : exec i s = .next t) : s.SameSetup t := by
  cases i with
  | reset => exact absurd rfl hi
  | detect => exact execDetect_sameSetup hl h
  | rom2cpu rom => exact execRom2cpu_sameSetup h
  | cpu2rom cpu => exact execCpu2rom_sameSetup h
  | incaddr cpu => exact execIncaddr_sameSetup h
  | setup => exact execSetup_sameSetup hl h
  | locate id => exact execLocate_sameSetup hl h
  | decchar address shift => exact execDecchar_sameSetup hl h
  | enum first last => exact execEnum_sameSetup hl h
  | next => exact execNext_sameSetup h
  | wrcfg r value => exact State.accessWrite_sameSetup hl h
  | illegal w => exact State.abort_sameSetup (a := .call .illegal) h
  | mapper op | variant op | addrGroup op | addrShiftbit op | addrMessage op | addrOff op | addrOn op | root op
  | readSize op | decodeMask op | idFirst op | idLast op | delimCount op | delim _ op =>
    exact State.access_sameSetup hl h
  | rdreg r => exact State.accessRead_sameSetup h
  | status => exact State.accessRead_sameSetup (r := .status) h
  | bankSize => exact State.accessRead_sameSetup (r := .bankSize) h
  | curAddr => exact State.accessRead_sameSetup (r := .curAddr) h
  | curShift => exact State.accessRead_sameSetup (r := .curShift) h
  | remain => exact State.accessRead_sameSetup (r := .remain) h
  | faultInfo => exact State.accessRead_sameSetup (r := .faultInfo) h
  | nodeWLeaf _ | nodeVLeaf _ => exact State.reachLeaf_sameSetup h
  | nodeWBranch _ | nodeVBranch _ _ => exact State.takeBranch_sameSetup h
  | msgidW _ _ | msgidV _ _ => exact State.splitId_sameSetup h
  | grouprec off idx => exact execGrouprec_sameSetup h
  | headerMakeup ignored hirom => exact execHeaderMakeup_sameSetup hl h
  | headerCheckpair wordB wordA => exact execHeaderCheckpair_sameSetup h
  | shiftbit mask => exact execShiftbit_sameSetup h
  | response code r0 r1 r2 => exact execResponse_sameSetup h

/-- Settles O52: `DETECT` and `WRCFG` fail the lock's check, and every other instruction but `RESET` writes elsewhere. -/
theorem configurationIsLockedBySetup : Obligations.ConfigurationIsLockedBySetup := by
  refine ⟨fun s hl hf => ⟨execDetect_of_locked hl hf, fun r value hv => ?_⟩, fun i s t hl hi h => ?_⟩
  · exact State.accessWrite_of_locked hl hf hv
  · exact exec_sameSetup_of_locked hl hi h

/-! ### After reset (R30) -/

/-- Without a configuration no register reads a value, the sixteen `DELIM` places among them. -/
theorem Cfg.get_empty (r : CfgReg) : ({} : Cfg).get r = none := by
  cases r with
  | delim i => simp [Cfg.get]
  | _ => rfl

/-- Settles O56: nothing is written yet, and with no word presented the block waits. -/
theorem resetValues : Obligations.ResetValues := by
  have waits : step State.reset = .next State.reset := step_of_empty rfl
  exact ⟨Cfg.get_empty, rfl, rfl, rfl, rfl, rfl, rfl, rfl, rfl, waits⟩

end Sys2Proof.Machine
end

section
/-! PROOFS. The family of 40_primitives.md: the little-endian reads (R130, R131) and the bit-fields (R133, R134). -/

namespace Sys2Proof.Machine

/-! ### Little-endian integers -/

/-- A byte past the end counts as zero, and so does every byte after it. -/
theorem getInt_succ (bytes : List Byte) (index length : Nat) :
    getInt bytes index (length + 1) =
      (bytes[index]?.getD 0#8).toNat + 256 * getInt bytes (index + 1) length := by
  by_cases h : index < bytes.length
  · rw [getInt, List.drop_eq_getElem_cons h, List.take_succ_cons, leValue_cons, List.getElem?_eq_getElem h,
      Option.getD_some, getInt]
  · have hend : bytes.length ≤ index := Nat.le_of_not_lt h
    have hnext : bytes.length ≤ index + 1 := Nat.le_succ_of_le hend
    simp [getInt_past, hend, hnext]

/-- Settles O26: the read's first byte, if it exists, is the low digit. -/
theorem getIntIsLittleEndian : Obligations.GetIntIsLittleEndian :=
  fun bytes index length => ⟨getInt_zero_length bytes index, getInt_succ bytes index length⟩

/-! ### Bit-fields -/

theorem trailingZeros_of_odd (fuel : Nat) {mask : Nat} (h : ¬ 2 ∣ mask) : trailingZeros fuel mask = 0 := by
  cases fuel with
  | zero => rfl
  | succ f => simp [trailingZeros, Nat.two_dvd_ne_zero.mp h]

theorem trailingZeros_two_mul (fuel mask : Nat) :
    trailingZeros (fuel + 1) (2 * mask) = trailingZeros fuel mask + 1 := by
  simp [trailingZeros]

/-- With fuel for each of the trailing zeros, the count is the position of the lowest set bit. -/
theorem trailingZeros_eq {t fuel mask : Nat} (hfuel : t ≤ fuel) (hdvd : 2 ^ t ∣ mask) (hlow : ¬ 2 ^ (t + 1) ∣ mask) :
    trailingZeros fuel mask = t := by
  induction t generalizing fuel mask with
  | zero => exact trailingZeros_of_odd fuel hlow
  | succ t ih =>
    obtain ⟨f, rfl⟩ : ∃ f, fuel = f + 1 := Nat.exists_eq_add_of_le' (Nat.le_of_add_left_le hfuel)
    obtain ⟨half, rfl⟩ : 2 ∣ mask := dvd_trans (Dvd.intro_left _ rfl) hdvd
    rw [Nat.pow_succ', Nat.mul_dvd_mul_iff_left Nat.two_pos] at hdvd hlow
    rw [trailingZeros_two_mul, ih (Nat.le_of_succ_le_succ hfuel) hdvd hlow]

@[simp] theorem getBits_zero_mask (bytes : List Byte) (index : Nat) : getBits bytes index 0 = none := rfl

/-- The fuel `getBits` gives the count is the mask itself, and a mask has fewer trailing zeros than its value. -/
theorem getBits_eq {mask t : Nat} (hdvd : 2 ^ t ∣ mask) (hlow : ¬ 2 ^ (t + 1) ∣ mask)
    (bytes : List Byte) (index : Nat) :
    getBits bytes index mask = some ((getInt bytes index 3 &&& mask) / 2 ^ t) := by
  have hne : mask ≠ 0 := fun h => hlow (h ▸ Nat.dvd_zero _)
  have hfuel : t ≤ mask :=
    calc t ≤ 2 ^ t := Nat.lt_two_pow_self.le
      _ ≤ mask := Nat.le_of_dvd (Nat.pos_of_ne_zero hne) hdvd
  rw [getBits, if_neg hne, trailingZeros_eq hfuel hdvd hlow, Nat.shiftRight_eq_div_pow]

/-- Settles O27: the shift count is the position of the mask's lowest set bit. -/
theorem getBitsRightJustifies : Obligations.GetBitsRightJustifies :=
  ⟨fun bytes index _ _ hdvd hlow => getBits_eq hdvd hlow bytes index, getBits_zero_mask⟩

end Sys2Proof.Machine
end

section
/-! PROOFS. The family of 41_mapper.md: the two mappings bit by bit (R151, R152, R155, R156), the increment and the
plain addition (R153, R157, R159), header detection (R163), and the commands that answer a mapper function (R164 to R166). -/

namespace Sys2Proof.Machine

/-! ### The mappings, bit by bit (R151, R152, R155, R156) -/

theorem getLsbD_fromRom_hirom {p : Params} (hbase : p.hiromBase = 0xC00000#24) (rom : RomAddr) {i : Nat} (hi : i < 24) :
    (fromRom p .hirom rom).getLsbD i = (rom.getLsbD i || decide (22 ≤ i)) := by
  have hbits : ∀ j < 24, (0xC00000#24).getLsbD j = decide (22 ≤ j) := by decide
  simp only [fromRom, hbase, BitVec.getLsbD_or, BitVec.getLsbD_setWidth, hbits i hi, hi, decide_true, Bool.true_and]

theorem getLsbD_fromCpu_hirom {p : Params} (hmask : p.hiromMask = 0x3FFFFF#24) (cpu : CpuAddr) {i : Nat} (hi : i < 24) :
    (fromCpu p .hirom cpu).getLsbD i = (cpu.getLsbD i && decide (i < 22)) := by
  have hbits : ∀ j < 24, (0x3FFFFF#24).getLsbD j = decide (j < 22) := by decide
  simp only [fromCpu, hmask, BitVec.getLsbD_and, hbits i hi]

/-- The bank bits move up by one, past bit 15, which is set. -/
theorem getLsbD_fromRom_lorom (p : Params) (rom : RomAddr) {i : Nat} (hi : i < 24) :
    (fromRom p .lorom rom).getLsbD i =
      if i < 15 then rom.getLsbD i else if i = 15 then true else rom.getLsbD (i - 1) := by
  have hbank : ∀ j < 24, (0x3F8000#24).getLsbD j = decide (15 ≤ j ∧ j < 22) := by decide
  have hhalf : ∀ j < 24, (0x008000#24).getLsbD j = decide (j = 15) := by decide
  have hoff : ∀ j < 24, (0x007FFF#24).getLsbD j = decide (j < 15) := by decide
  simp only [fromRom, BitVec.getLsbD_or, BitVec.getLsbD_and, BitVec.getLsbD_shiftLeft, BitVec.getLsbD_setWidth,
    hbank (i - 1) (by omega), hhalf i hi, hoff i hi]
  split
  · rename_i h
    simp [h, hi, show ¬ 15 ≤ i - 1 by omega, show i ≠ 15 by omega]
  · split
    · rename_i h
      simp [h]
    · rename_i hlow hne
      have hge : 15 ≤ i - 1 := by omega
      have hpast : 22 ≤ i - 1 → rom.getLsbD (i - 1) = false := BitVec.getLsbD_of_ge rom (i - 1)
      by_cases htop : i - 1 < 22
      · simp [hlow, hne, hge, htop, hi, show i ≠ 0 by omega, show i - 1 < 24 by omega]
      · simp [hlow, hne, hpast (Nat.le_of_not_lt htop)]

/-- The bank bits move down by one, over bit 15; bits 15 and 23 are not read. -/
theorem getLsbD_fromCpu_lorom {p : Params} (hmask : p.loromBankMask = 0x7F#8) (cpu : CpuAddr) {i : Nat} (hi : i < 24) :
    (fromCpu p .lorom cpu).getLsbD i =
      if i < 15 then cpu.getLsbD i else if i < 22 then cpu.getLsbD (i + 1) else false := by
  have hbank : ∀ j < 25, ((0x7F#8).setWidth 24 <<< 16).getLsbD j = decide (16 ≤ j ∧ j < 23) := by decide
  have hoff : ∀ j < 24, (0x007FFF#24).getLsbD j = decide (j < 15) := by decide
  simp only [fromCpu, hmask, BitVec.getLsbD_or, BitVec.getLsbD_and, BitVec.getLsbD_ushiftRight,
    hbank (1 + i) (by omega), hoff i hi]
  split
  · rename_i h
    simp [h, show ¬ 16 ≤ 1 + i by omega]
  · rename_i h
    have hge : 16 ≤ 1 + i := by omega
    have hlt : 1 + i < 23 ↔ i < 22 := by omega
    simp [h, hge, hlt, Nat.add_comm i 1, Bool.and_comm]

/-- Settles O18: bit by bit, on either side of bit 22. -/
theorem hiromMapsIntoTheTopBanks : Obligations.HiromMapsIntoTheTopBanks := by
  intro p hbase hmask
  refine ⟨fun rom => BitVec.eq_of_getLsbD_eq fun i hi => ?_, fun cpu => BitVec.eq_of_getLsbD_eq fun i hi => ?_⟩
  · have hones : ∀ j < 2, (3#2).getLsbD j = true := by decide
    rw [getLsbD_fromRom_hirom hbase rom hi, BitVec.getLsbD_append]
    by_cases h : i < 22
    · simp [h]
    · simp [h, Nat.le_of_not_lt h, hones (i - 22) (by omega)]
  · rw [getLsbD_fromCpu_hirom hmask cpu hi, BitVec.getLsbD_append]
    by_cases h : i < 22
    · simp [h]
    · simp [h]

/-- Settles O19: bit by bit, field by field. -/
theorem loromMapsIntoUpperHalves : Obligations.LoromMapsIntoUpperHalves := by
  intro p hmask
  refine ⟨fun rom => BitVec.eq_of_getLsbD_eq fun i hi => ?_, fun cpu => BitVec.eq_of_getLsbD_eq fun i hi => ?_⟩
  · rw [getLsbD_fromRom_lorom p rom hi]
    simp only [BitVec.getLsbD_append, BitVec.getLsbD_extractLsb']
    obtain h | rfl | h | rfl : i < 15 ∨ i = 15 ∨ (16 ≤ i ∧ i < 23) ∨ i = 23 := by omega
    · simp [h, Nat.lt_succ_of_lt h]
    · rfl
    · have hbank : 15 + (i - 16) = i - 1 := by omega
      simp [hbank, show ¬ i < 15 by omega, show i ≠ 15 by omega, show ¬ i < 16 by omega, show i - 16 < 7 by omega]
    · exact BitVec.getLsbD_of_ge rom 22 (Nat.le_refl 22)
  · rw [getLsbD_fromCpu_lorom hmask cpu hi]
    simp only [BitVec.getLsbD_append, BitVec.getLsbD_extractLsb']
    obtain h | ⟨hlow, hbank⟩ | h : i < 15 ∨ (15 ≤ i ∧ i < 22) ∨ 22 ≤ i := by omega
    · simp [h, Nat.lt_trans h (by decide : 15 < 22)]
    · have hbit : 16 + (i - 15) = i + 1 := by omega
      simp [hbit, hbank, Nat.not_lt.mpr hlow, show i - 15 < 7 by omega]
    · simp [Nat.not_lt.mpr h, show ¬ i < 15 by omega]

/-! ### The increment and the plain addition (R153, R157, R159) -/

theorem toNat_add_one_of_ne_top {a : CpuAddr} (h : a ≠ 0xFFFFFF#24) : (a + 1#24).toNat = a.toNat + 1 := by
  have hne : a.toNat ≠ 0xFFFFFF := fun htop => h (BitVec.eq_of_toNat_eq htop)
  bv_omega

theorem low16_eq_zero_iff (a : CpuAddr) : a.extractLsb' 0 16 = 0#16 ↔ a.toNat % 0x10000 = 0 := by
  simp [← BitVec.toNat_inj]

/-- At the start of a bank bit 15 is clear, so setting it adds 0x8000. -/
theorem toNat_or_upperHalf {a : CpuAddr} (h : a.toNat % 0x10000 = 0) :
    (a ||| 0x008000#24).toNat = a.toNat + 0x8000 := by
  have hbank : a.toNat = 2 ^ 16 * (a.toNat / 0x10000) := by omega
  have hlow : 0x8000 < 2 ^ 16 := by omega
  rw [BitVec.toNat_or, hbank]
  exact (Nat.two_pow_add_eq_or_of_lt hlow _).symm

theorem incrementAddress_hirom {a : CpuAddr} (h : a ≠ 0xFFFFFF#24) :
    ∃ b, incrementAddress .hirom a = .ok b ∧ b.toNat = a.toNat + 1 :=
  ⟨a + 1#24, by simp [incrementAddress, h], toNat_add_one_of_ne_top h⟩

/-- The increment that leaves a bank reaches the upper half of the next one (R157). -/
theorem incrementAddress_lorom {a : CpuAddr} (h : a ≠ 0xFFFFFF#24) :
    ∃ b, incrementAddress .lorom a = .ok b ∧
      b.toNat = if (a.toNat + 1) % 0x10000 = 0 then a.toNat + 1 + 0x8000 else a.toNat + 1 := by
  have hsucc := toNat_add_one_of_ne_top h
  refine ⟨_, if_neg h, ?_⟩
  simp only [low16_eq_zero_iff, hsucc]
  split
  · rename_i hcross
    rw [toNat_or_upperHalf (hsucc ▸ hcross), hsucc]
  · exact hsucc

theorem addAddress_of_overflow {base : CpuAddr} {off : Nat} (h : 0xFFFFFF < base.toNat + off) :
    addAddress base off = .error (.session .addrOvf base) := if_pos h

theorem addAddress_of_le {base : CpuAddr} {off : Nat} (h : base.toNat + off ≤ 0xFFFFFF) :
    ∃ a, addAddress base off = .ok a ∧ a.toNat = base.toNat + off :=
  ⟨_, if_neg (Nat.not_lt.mpr h), (BitVec.toNat_ofNat _ 24).trans (Nat.mod_eq_of_lt (by omega))⟩

/-- Settles O21: the top address overflows, and below it each variant has its own sum; a plain addition is one
comparison. -/
theorem incrementWrapsAtBanks : Obligations.IncrementWrapsAtBanks :=
  ⟨incrementAddress_top, fun _ => incrementAddress_hirom, fun _ => incrementAddress_lorom,
    fun _ _ => addAddress_of_overflow, fun _ _ => addAddress_of_le⟩

/-! ### Headers (R163) -/

/-- The little-endian 16-bit value of two bytes is their concatenation. -/
theorem ofNat_leValue_pair (lo hi : Byte) : BitVec.ofNat 16 (leValue [lo, hi]) = hi ++ lo := by
  apply BitVec.eq_of_toNat_eq
  have := lo.isLt
  have := hi.isLt
  rw [BitVec.toNat_append, Nat.shiftLeft_eq, Nat.mul_comm, ← Nat.two_pow_add_eq_or_of_lt lo.isLt]
  simp only [leValue_cons, leValue_nil, BitVec.toNat_ofNat]
  omega

/-- The two words of a header's pair, where its four bytes exist. -/
theorem romRead_pair {img : Image} {h : Nat} (hsize : h + 0x20 ≤ img.size) :
    romRead img (h + 0x1C) 4 = [cellsRead img.cells (h + 0x1C), cellsRead img.cells (h + 0x1D),
      cellsRead img.cells (h + 0x1E), cellsRead img.cells (h + 0x1F)] := by
  rw [romRead_succ _ _ _ (by omega), romRead_succ _ _ _ (by omega), romRead_succ _ _ _ (by omega),
    romRead_succ _ _ _ (by omega)]
  simp [romRead]

theorem headerAt_of_short {img : Image} {h : Nat} (hsize : img.size < h + 0x20) : headerAt img h = none := by
  have hlen : (romRead img (h + 0x1C) 4).length ≠ 4 := by rw [romRead_length]; omega
  simp only [headerAt, hlen, false_and, if_false]

theorem headerAt_of_size {img : Image} {h : Nat} (hsize : h + 0x20 ≤ img.size) :
    headerAt img h = if romWord img (h + 0x1C) ^^^ romWord img (h + 0x1E) = 0xFFFF#16 then
      some (headerMapper img h) else none := by
  have hlow (lo hi x y : Byte) : BitVec.ofNat 16 (getInt [lo, hi, x, y] 0 2) = hi ++ lo := ofNat_leValue_pair lo hi
  have hhigh (x y lo hi : Byte) : BitVec.ofNat 16 (getInt [x, y, lo, hi] 2 2) = hi ++ lo := ofNat_leValue_pair lo hi
  have hmakeup : makeupMapper (BitVec.ofNat 8 (getInt (romRead img (h + 0x15) 1) 0 1)) = headerMapper img h := by
    rw [romRead_succ _ _ _ (by omega)]
    simp [getInt, makeupMapper, headerMapper]
  simp [headerAt, romRead_pair hsize, hmakeup, hlow, hhigh, pairValid, romWord, Nat.add_assoc]

theorem headerAt_of_valid {img : Image} {h : Nat} (hv : headerValid img h) :
    headerAt img h = some (headerMapper img h) := by
  obtain ⟨hsize, hpair⟩ := hv
  rw [headerAt_of_size hsize, if_pos hpair]

theorem headerAt_of_not_valid {img : Image} {h : Nat} (hv : ¬ headerValid img h) : headerAt img h = none := by
  by_cases hsize : h + 0x20 ≤ img.size
  · rw [headerAt_of_size hsize, if_neg fun hpair => hv ⟨hsize, hpair⟩]
  · exact headerAt_of_short (Nat.lt_of_not_le hsize)

/-- The scan takes the header at its first candidate if there is one, and goes on if not. -/
theorem firstHeader_cons (img : Image) (h : Nat) (rest : List Nat) :
    firstHeader img (h :: rest) = ((headerAt img h).map (Prod.mk h)).or (firstHeader img rest) := by
  change (match headerAt img h with | some m => some (h, m) | none => firstHeader img rest) = _
  cases headerAt img h with
  | none => rfl
  | some m => rfl

theorem firstHeader_cons_of_valid {img : Image} {h : Nat} (hv : headerValid img h) (rest : List Nat) :
    firstHeader img (h :: rest) = some (h, headerMapper img h) := by
  rw [firstHeader_cons, headerAt_of_valid hv, Option.map_some, Option.some_or]

theorem firstHeader_cons_of_not_valid {img : Image} {h : Nat} (hv : ¬ headerValid img h) (rest : List Nat) :
    firstHeader img (h :: rest) = firstHeader img rest := by
  rw [firstHeader_cons, headerAt_of_not_valid hv, Option.map_none, Option.none_or]

/-! ### `DETECT` (R163) -/

theorem State.needUnlocked_of_none {s : State} (ht : s.tables = none) : s.needUnlocked = .ok () := by
  simp [State.needUnlocked, State.setupDone, ht]

theorem execDetect_of_faulted {s : State} (hf : s.fault.isSome = true) :
    execDetect s = .next (s.answered ⟨.faulted, 0#24, 0#8, 0#16⟩) := by
  rw [execDetect, State.guardFaulted_of_isSome hf]
  rfl

theorem execDetect_of_no_image {s : State} (hf : s.fault = none) (ht : s.tables = none) (hr : s.rom = none) :
    execDetect s = .next (s.faultedWith .io 0#24) := by
  have himage : s.needImage = .error (.session .io 0#24) := by simp [State.needImage, hr]
  rw [execDetect, State.guardFaulted_of_none hf, State.needUnlocked_of_none ht, himage]
  rfl

section
variable {s : State} {img : Image}

/-- Past its checks, `DETECT` takes what the scan finds. -/
theorem execDetect_of_header {h : Nat} {m : BitVec 1} (hf : s.fault = none) (ht : s.tables = none)
    (hr : s.rom = some img) (hscan : firstHeader img headerCandidates = some (h, m)) :
    execDetect s = .next (({ s with cfg := { s.cfg with mapper := some m } } : State).answered
      ⟨.ok, BitVec.ofNat 24 h, m.setWidth 8, 0#16⟩) := by
  rw [execDetect, State.guardFaulted_of_none hf, State.needUnlocked_of_none ht, State.needImage_ok.mpr hr, ok_bind,
    ok_bind, ok_bind, hscan]
  rfl

theorem execDetect_of_no_header (hf : s.fault = none) (ht : s.tables = none)
    (hr : s.rom = some img) (hscan : firstHeader img headerCandidates = none) :
    execDetect s = .next (s.faultedWith .header 0#24) := by
  rw [execDetect, State.guardFaulted_of_none hf, State.needUnlocked_of_none ht, State.needImage_ok.mpr hr, ok_bind,
    ok_bind, ok_bind, hscan]
  rfl

end

/-- Settles O24: the checks in their order, then the scan of the two candidates, which a valid header ends. -/
theorem detectTakesTheFirstValidHeader : Obligations.DetectTakesTheFirstValidHeader := by
  refine ⟨fun s => execDetect_of_faulted, fun s hf hl => execDetect_of_locked hl hf,
    fun s => execDetect_of_no_image, fun s img hf ht hr => ⟨fun hfirst => ?_, fun hfirst hsecond => ?_,
    fun hfirst hsecond => ?_⟩⟩
  · exact execDetect_of_header hf ht hr (firstHeader_cons_of_valid hfirst _)
  · have hscan : firstHeader img headerCandidates = some (0xFFC0, headerMapper img 0xFFC0) := by
      rw [headerCandidates, firstHeader_cons_of_not_valid hfirst, firstHeader_cons_of_valid hsecond]
    exact execDetect_of_header hf ht hr hscan
  · have hscan : firstHeader img headerCandidates = none := by
      rw [headerCandidates, firstHeader_cons_of_not_valid hfirst, firstHeader_cons_of_not_valid hsecond]
      rfl
    exact execDetect_of_no_header hf ht hr hscan

/-! ### `ROM2CPU`, `CPU2ROM` and `INCADDR` (R164 to R166) -/

theorem State.needMapper_of_none {s : State} (hm : s.cfg.mapper = none) : s.needMapper = .error (.call .state) := by
  simp [State.needMapper, hm]

theorem State.needMapper_of_some {s : State} {b : BitVec 1} (hm : s.cfg.mapper = some b) :
    s.needMapper = .ok (Mapper.ofBit b) := by
  simp [State.needMapper, hm]

/-- The shape of the three commands: check (2) of R253, the mapper in force, and then an answer or an error. -/
def State.mapperCommand (s : State) (f : Mapper → Except Abort CpuAddr) : Host.Outcome State Fault Refusal :=
  s.conclude (do
    s.guardFaulted
    let m ← s.needMapper
    let a ← f m
    return s.respond .ok a 0#8 0#16)

theorem execRom2cpu_eq (rom : RomAddr) (s : State) :
    execRom2cpu rom s = s.mapperCommand fun m => .ok (fromRom s.params m rom) := rfl

theorem execCpu2rom_eq (cpu : CpuAddr) (s : State) :
    execCpu2rom cpu s = s.mapperCommand fun m => .ok (fromCpu s.params m cpu) := rfl

theorem execIncaddr_eq (cpu : CpuAddr) (s : State) :
    execIncaddr cpu s = s.mapperCommand fun m => incrementAddress m cpu := rfl

section
variable {s : State} {f : Mapper → Except Abort CpuAddr}

theorem State.mapperCommand_of_faulted (hf : s.fault.isSome = true) :
    s.mapperCommand f = .next (s.answered ⟨.faulted, 0#24, 0#8, 0#16⟩) := by
  rw [State.mapperCommand, State.guardFaulted_of_isSome hf]
  rfl

theorem State.mapperCommand_of_no_mapper (hf : s.fault = none) (hm : s.cfg.mapper = none) :
    s.mapperCommand f = .next (s.answered ⟨.state, 0#24, 0#8, 0#16⟩) := by
  rw [State.mapperCommand, State.guardFaulted_of_none hf, State.needMapper_of_none hm]
  rfl

theorem State.mapperCommand_of_ok {b : BitVec 1} {a : CpuAddr} (hf : s.fault = none) (hm : s.cfg.mapper = some b)
    (ha : f (Mapper.ofBit b) = .ok a) : s.mapperCommand f = .next (s.answered ⟨.ok, a, 0#8, 0#16⟩) := by
  simp only [State.mapperCommand, State.guardFaulted_of_none hf, State.needMapper_of_some hm, ok_bind, ha]
  rfl

theorem State.mapperCommand_of_session {b : BitVec 1} {e : SessionError} {info : BitVec 24} (hf : s.fault = none)
    (hm : s.cfg.mapper = some b) (he : f (Mapper.ofBit b) = .error (.session e info)) :
    s.mapperCommand f = .next (s.faultedWith e info) := by
  simp only [State.mapperCommand, State.guardFaulted_of_none hf, State.needMapper_of_some hm, ok_bind, he]
  rfl

end

/-- The three commands are mapper commands. -/
theorem exec_eq_mapperCommand {s : State} {i : Instr} {rom : RomAddr} {cpu : CpuAddr}
    (hi : i = .rom2cpu rom ∨ i = .cpu2rom cpu ∨ i = .incaddr cpu) : ∃ f, exec i s = s.mapperCommand f := by
  obtain rfl | rfl | rfl := hi
  · exact ⟨_, execRom2cpu_eq rom s⟩
  · exact ⟨_, execCpu2rom_eq cpu s⟩
  · exact ⟨_, execIncaddr_eq cpu s⟩

/-- An operand of `ROM2CPU` above 22 bits makes the word illegal (R95). -/
theorem decode_rom2cpu_of_large {p : Params} {w : BitVec 40} (hop : opcodeOf w = 0x03#8)
    (hlarge : w.extractLsb' 22 10 ≠ 0#10) : decode p (.command w) = .illegal (.command w) := by
  have hnat : (opcodeOf w).toNat = 3 := by rw [hop]; rfl
  simp only [decode, decodeCommand, hnat, if_neg hlarge]

/-- Settles O23: the three commands have one shape, and differ in the mapper function. -/
theorem mapperCommandsAnswerTheirFunction : Obligations.MapperCommandsAnswerTheirFunction := by
  refine ⟨fun s rom cpu i hi => ?_, fun s b hf hm => ⟨fun rom => ?_, fun cpu => ?_, fun cpu a ha => ?_, ?_⟩,
    fun p w => decode_rom2cpu_of_large⟩
  · obtain ⟨f, hexec⟩ := exec_eq_mapperCommand hi
    rw [hexec]
    exact ⟨State.mapperCommand_of_faulted, State.mapperCommand_of_no_mapper⟩
  · exact (execRom2cpu_eq rom s).trans (State.mapperCommand_of_ok hf hm rfl)
  · exact (execCpu2rom_eq cpu s).trans (State.mapperCommand_of_ok hf hm rfl)
  · exact (execIncaddr_eq cpu s).trans (State.mapperCommand_of_ok hf hm ha)
  · exact (execIncaddr_eq _ s).trans (State.mapperCommand_of_session hf hm (incrementAddress_top _))

end Sys2Proof.Machine
end

section
/-! PROOFS. The family of 42_huffman_core.md: the command `SETUP` (R182), tree entries and the tables they are read from
(R188 to R191), the loops of characters and of messages (R192, R194, R198), and the command `DECCHAR` (R196). -/

namespace Sys2Proof.Machine

/-! ### Tree entries and branch tables (R188 to R191) -/

theorem getLsbD_15_eq (e : TreeWord) : e.getLsbD 15 = decide (0x8000 ≤ e.toNat) :=
  BitVec.msb_eq_decide e

theorem isLeaf_varW_iff (e : TreeWord) : isLeaf .varW e = true ↔ e.toNat < 0x8000 := by
  simp only [isLeaf, getLsbD_15_eq, Bool.not_eq_true', decide_eq_false_iff_not, Nat.not_le]

theorem isLeaf_varV_iff (e : TreeWord) : isLeaf .varV e = true ↔ 0x8000 ≤ e.toNat := by
  simp only [isLeaf, getLsbD_15_eq, decide_eq_true_eq]

theorem toNat_nextNode_varW (e : TreeWord) : (nextNode .varW e).toNat = e.toNat % 0x8000 := by
  rw [nextNode, BitVec.toNat_and]
  exact Nat.and_two_pow_sub_one_eq_mod e.toNat 15

/-- Twice 13 bits stay inside the word. -/
theorem toNat_nextNode_varV (e : TreeWord) : (nextNode .varV e).toNat = 2 * (e.toNat % 0x2000) := by
  have hlow : (e &&& 0x1FFF#16).toNat = e.toNat % 0x2000 := by
    rw [BitVec.toNat_and]
    exact Nat.and_two_pow_sub_one_eq_mod e.toNat 13
  rw [nextNode, BitVec.toNat_shiftLeft, hlow, Nat.shiftLeft_eq]
  omega

/-- Settles O32: each variant has its own sense of bit 15 and its own mask. -/
theorem treeEntriesAreReadByBit15 : Obligations.TreeEntriesAreReadByBit15 :=
  fun e _ => ⟨isLeaf_varW_iff e, isLeaf_varV_iff e, toNat_nextNode_varW e, toNat_nextNode_varV e,
    fun _ => BitVec.getLsbD_and⟩

theorem getInt_two (bytes : List Byte) (index : Nat) :
    getInt bytes index 2 = (bytes[index]?.getD 0#8).toNat + 256 * (bytes[index + 1]?.getD 0#8).toNat := by
  rw [getInt_succ, getInt_succ, getInt_zero_length, Nat.mul_zero, Nat.add_zero]

/-- An entry is two bytes, so it fits its word. -/
theorem toNat_lookup (d : Decoder) (bit : Bool) (node : TreeWord) :
    (lookup d bit node).toNat = getInt (if bit then d.tables.on else d.tables.off) node.toNat 2 :=
  (BitVec.toNat_ofNat _ 16).trans (Nat.mod_eq_of_lt (getInt_lt _ _ 2))

/-- Settles O33: the entry is a `get_int` of length 2 from the table the bit selects. -/
theorem lookupReadsTheSelectedTable : Obligations.LookupReadsTheSelectedTable :=
  fun d node => ⟨(toNat_lookup d true node).trans (getInt_two _ _), (toNat_lookup d false node).trans (getInt_two _ _)⟩

/-! ### The cursor moves forward (R194) -/

/-- The single-bit masks are the powers of two of a byte. -/
theorem singleBit_iff_two_pow {m : Byte} : singleBit m = true ↔ ∃ k < 8, m.toNat = 2 ^ k := by
  have hpowers : [0x01, 0x02, 0x04, 0x08, 0x10, 0x20, 0x40, 0x80] = (List.range 8).map (2 ^ ·) := rfl
  simp only [singleBit_iff_mem, hpowers, List.mem_map, List.mem_range, eq_comm (b := m.toNat)]

theorem bitIndex_varW_of_two_pow {m : Byte} {k : Nat} (h : m.toNat = 2 ^ k) : bitIndex .varW m = 7 - k := by
  rw [bitIndex, h, Nat.log2_two_pow]

theorem bitIndex_varV_of_two_pow {m : Byte} {k : Nat} (h : m.toNat = 2 ^ k) : bitIndex .varV m = k := by
  rw [bitIndex, h, Nat.log2_two_pow]

theorem bitIndex_lt (v : Variant) {m : Byte} (h : singleBit m = true) : bitIndex v m < 8 := by
  obtain ⟨k, hk, hm⟩ := singleBit_iff_two_pow.mp h
  cases v with
  | varW => rw [bitIndex_varW_of_two_pow hm]; omega
  | varV => rw [bitIndex_varV_of_two_pow hm]; exact hk

/-- Inside a byte, Variant W goes one bit down (R186). -/
theorem singleBit_shiftRight {m : Byte} (h : singleBit m = true) (hne : m >>> 1 ≠ 0#8) :
    singleBit (m >>> 1) = true ∧ bitIndex .varW m < bitIndex .varW (m >>> 1) := by
  obtain ⟨k, hk, hm⟩ := singleBit_iff_two_pow.mp h
  have hhalf : (m >>> 1).toNat = 2 ^ k / 2 := by rw [BitVec.toNat_ushiftRight, hm, Nat.shiftRight_one]
  cases k with
  | zero => exact absurd (BitVec.eq_of_toNat_eq hhalf) hne
  | succ j =>
    rw [Nat.pow_succ, Nat.mul_div_cancel _ Nat.two_pos] at hhalf
    refine ⟨singleBit_iff_two_pow.mpr ⟨j, by omega, hhalf⟩, ?_⟩
    rw [bitIndex_varW_of_two_pow hm, bitIndex_varW_of_two_pow hhalf]
    omega

/-- Inside a byte, Variant V goes one bit up (R187). -/
theorem singleBit_double {m : Byte} (h : singleBit m = true) (hle : m.toNat * 2 ≤ 0x80) :
    singleBit (BitVec.ofNat 8 (m.toNat * 2)) = true ∧
      bitIndex .varV m < bitIndex .varV (BitVec.ofNat 8 (m.toNat * 2)) := by
  obtain ⟨k, hk, hm⟩ := singleBit_iff_two_pow.mp h
  have hdouble : (BitVec.ofNat 8 (m.toNat * 2)).toNat = 2 ^ (k + 1) := by
    rw [BitVec.toNat_ofNat, Nat.mod_eq_of_lt (by omega), hm, Nat.pow_succ]
  have hle7 : 2 ^ (k + 1) ≤ 2 ^ 7 := by rw [Nat.pow_succ, ← hm]; exact hle
  have hk7 : k + 1 ≤ 7 := (Nat.pow_le_pow_iff_right (Nat.lt_succ_self 1)).mp hle7
  refine ⟨singleBit_iff_two_pow.mpr ⟨k + 1, Nat.lt_succ_of_le hk7, hdouble⟩, ?_⟩
  rw [bitIndex_varV_of_two_pow hm, bitIndex_varV_of_two_pow hdouble]
  exact Nat.lt_succ_self k

section
variable {v : Variant} {c : Cursor} (hs : singleBit c.shift = true)
include hs

/-- The CPU space has `walkBound` bit positions. -/
theorem Cursor.position_lt : c.position v < walkBound := by
  have haddr := c.address.isLt
  have hbit := bitIndex_lt v hs
  unfold Cursor.position walkBound
  omega

/-- Every bit of a later byte is a later bit. -/
theorem Cursor.position_lt_of_address_lt {a : CpuAddr} (m : Byte) (h : c.address.toNat < a.toNat) :
    c.position v < Cursor.position v ⟨a, m⟩ := by
  have hbit := bitIndex_lt v hs
  simp only [Cursor.position]
  omega

end

/-- An advance keeps the mask a single bit and moves the cursor forward. -/
theorem advance_forward {d : Decoder} {c c' : Cursor} (hs : singleBit c.shift = true) (h : advance d c = .ok c') :
    singleBit c'.shift = true ∧ c.position d.cfg.variant < c'.position d.cfg.variant := by
  obtain ⟨hv, hne, rfl⟩ | ⟨-, -, a, ha, rfl⟩ | ⟨hv, hle, rfl⟩ | ⟨-, -, a, ha, rfl⟩ := advance_ok h
  · obtain ⟨hsingle, hlt⟩ := singleBit_shiftRight hs hne
    exact ⟨hsingle, hv ▸ Nat.add_lt_add_left hlt _⟩
  · exact ⟨rfl, Cursor.position_lt_of_address_lt hs _ (incrementAddress_ok ha).2⟩
  · obtain ⟨hsingle, hlt⟩ := singleBit_double hs hle
    exact ⟨hsingle, hv ▸ Nat.add_lt_add_left hlt _⟩
  · exact ⟨rfl, Cursor.position_lt_of_address_lt hs _ (incrementAddress_ok ha).2⟩

/-! ### One character (R192) -/

/-- A character of the loop consumes at least one bit (R194). -/
theorem CharWalk.forward {d : Decoder} {node : TreeWord} {c : Cursor} {r : Cursor × Code} (h : CharWalk d node c r)
    (hs : singleBit c.shift = true) :
    singleBit r.1.shift = true ∧ c.position d.cfg.variant < r.1.position d.cfg.variant := by
  induction h with
  | leaf read move stop => exact advance_forward hs move
  | branch read move go rest ih =>
    obtain ⟨hs', hlt⟩ := advance_forward hs move
    obtain ⟨hend, hlt'⟩ := ih hs'
    exact ⟨hend, hlt.trans hlt'⟩

/-- One bit of the walk, read and consumed. -/
theorem walkTree_of_read {d : Decoder} {c c' : Cursor} {bit : Bool} (read : readBit d c = .ok bit)
    (move : advance d c = .ok c') (f : Nat) (node : TreeWord) :
    walkTree d (f + 1) node c =
      if isLeaf d.cfg.variant (lookup d bit node) then
        .ok (c', leafCode (lookup d bit node) d.cfg.decodeMask)
      else walkTree d f (nextNode d.cfg.variant (lookup d bit node)) c' := by
  rw [walkTree_succ, read, ok_bind, move, ok_bind]
  rfl

/-- What the bounded walk answers, the loop ends with. -/
theorem charWalk_of_walkTree {d : Decoder} {f : Nat} {node : TreeWord} {c : Cursor} {r : Cursor × Code}
    (h : walkTree d f node c = .ok r) : CharWalk d node c r := by
  induction f generalizing node c with
  | zero => cases h
  | succ f ih =>
    rw [walkTree_succ] at h
    obtain ⟨bit, read, h⟩ := bind_eq_ok.mp h
    obtain ⟨c', move, h⟩ := bind_eq_ok.mp h
    split at h
    · rename_i stop
      cases h
      exact .leaf read move stop
    · rename_i go
      exact .branch read move (eq_false_of_ne_true go) (ih h)

/-- Every error of the bounded walk but want of fuel is one of the loop. -/
theorem charFails_of_walkTree {d : Decoder} {f : Nat} {node : TreeWord} {c : Cursor} {a : Abort}
    (h : walkTree d f node c = .error a) (ha : a ≠ .endless) : CharFails d node c a := by
  induction f generalizing node c with
  | zero => cases h; exact absurd rfl ha
  | succ f ih =>
    rw [walkTree_succ] at h
    rcases bind_eq_error.mp h with fails | ⟨bit, read, h⟩
    · exact .read fails
    rcases bind_eq_error.mp h with fails | ⟨c', move, h⟩
    · exact .move read fails
    split at h
    · cases h
    · rename_i go
      exact .branch read move (eq_false_of_ne_true go) (ih h)

theorem exists_fuel_of_walkTree {d : Decoder} {f : Nat} {node : TreeWord} {c : Cursor}
    (hf : walkTree d f node c ≠ .error .endless) : ∃ g, f = g + 1 :=
  Nat.exists_eq_succ_of_ne_zero fun h => hf (h ▸ rfl)

/-- What the loop ends with, the bounded walk answers unless it wants fuel. -/
theorem CharWalk.walkTree_eq {d : Decoder} {node : TreeWord} {c : Cursor} {r : Cursor × Code} (h : CharWalk d node c r)
    (f : Nat) (hf : walkTree d f node c ≠ .error .endless) : walkTree d f node c = .ok r := by
  induction h generalizing f with
  | leaf read move stop =>
    obtain ⟨g, rfl⟩ := exists_fuel_of_walkTree hf
    rw [walkTree_of_read read move, if_pos stop]
  | branch read move go rest ih =>
    obtain ⟨g, rfl⟩ := exists_fuel_of_walkTree hf
    rw [walkTree_of_read read move, if_neg (ne_true_of_eq_false go)] at hf ⊢
    exact ih g hf

/-- An error of the loop is one of the bounded walk, unless that wants fuel. -/
theorem CharFails.walkTree_eq {d : Decoder} {node : TreeWord} {c : Cursor} {a : Abort} (h : CharFails d node c a)
    (f : Nat) (hf : walkTree d f node c ≠ .error .endless) : walkTree d f node c = .error a := by
  induction h generalizing f with
  | read fails =>
    obtain ⟨g, rfl⟩ := exists_fuel_of_walkTree hf
    rw [walkTree_succ, fails, error_bind]
  | move read fails =>
    obtain ⟨g, rfl⟩ := exists_fuel_of_walkTree hf
    rw [walkTree_succ, read, ok_bind, fails, error_bind]
  | branch read move go rest ih =>
    obtain ⟨g, rfl⟩ := exists_fuel_of_walkTree hf
    rw [walkTree_of_read read move, if_neg (ne_true_of_eq_false go)] at hf ⊢
    exact ih g hf

/-- R194: with fuel for every bit position from the cursor on, a walk does not want fuel. -/
theorem walkTree_ne_endless {d : Decoder} {f : Nat} {node : TreeWord} {c : Cursor} (hs : singleBit c.shift = true)
    (hf : walkBound ≤ c.position d.cfg.variant + f) : walkTree d f node c ≠ .error .endless := by
  induction f generalizing node c with
  | zero => exact absurd hf (Nat.not_le.mpr (Cursor.position_lt hs))
  | succ f ih =>
    intro h
    rw [walkTree_succ] at h
    rcases bind_eq_error.mp h with h | ⟨bit, -, h⟩
    · cases readBit_error h
    rcases bind_eq_error.mp h with h | ⟨c', move, h⟩
    · cases (advance_error h).2
    split at h
    · cases h
    · obtain ⟨hs', hlt⟩ := advance_forward hs move
      exact ih hs' (by omega) h

theorem decodeChar_ne_endless (d : Decoder) {c : Cursor} (hs : singleBit c.shift = true) :
    decodeChar d c ≠ .error .endless :=
  walkTree_ne_endless hs (Nat.le_add_left _ _)

theorem decodeChar_eq_ok_iff {d : Decoder} {c : Cursor} (hs : singleBit c.shift = true) (r : Cursor × Code) :
    decodeChar d c = .ok r ↔ CharWalk d d.cfg.root c r :=
  ⟨charWalk_of_walkTree, fun h => h.walkTree_eq walkBound (decodeChar_ne_endless d hs)⟩

theorem decodeChar_eq_error_iff {d : Decoder} {c : Cursor} (hs : singleBit c.shift = true) (a : Abort) :
    decodeChar d c = .error a ↔ CharFails d d.cfg.root c a :=
  ⟨fun h => charFails_of_walkTree h fun ha => decodeChar_ne_endless d hs (ha ▸ h),
    fun h => h.walkTree_eq walkBound (decodeChar_ne_endless d hs)⟩

/-- Settles O34: the walk and the loop agree bit by bit, and the fuel is enough by R194. -/
theorem decodeCharIsTheUnboundedLoop : Obligations.DecodeCharIsTheUnboundedLoop :=
  fun _ _ hs => ⟨decodeChar_eq_ok_iff hs, decodeChar_eq_error_iff hs⟩

/-! ### One message (R198) -/

/-- A character of a message, decoded. -/
theorem collectCodes_of_char {d : Decoder} {c c' : Cursor} {code : Code} (char : decodeChar d c = .ok (c', code))
    (f : Nat) :
    collectCodes d (f + 1) c =
      if code ∈ d.cfg.delims then .ok (c', [code])
      else do
        let q ← collectCodes d f c'
        return (q.1, code :: q.2) := by
  rw [collectCodes_succ, char, ok_bind]
  simp only [List.contains_iff_mem, pure_eq_ok]

/-- What the bounded collection answers, the loop ends with. -/
theorem messageWalk_of_collectCodes {d : Decoder} {f : Nat} {c : Cursor} {r : Cursor × List Code}
    (h : collectCodes d f c = .ok r) : MessageWalk d c r := by
  induction f generalizing c r with
  | zero => cases h
  | succ f ih =>
    rw [collectCodes_succ] at h
    obtain ⟨⟨c', code⟩, char, h⟩ := bind_eq_ok.mp h
    split at h
    · rename_i stop
      cases h
      exact .last (charWalk_of_walkTree char) (List.contains_iff_mem.mp stop)
    · rename_i go
      obtain ⟨q, rest, h⟩ := bind_eq_ok.mp h
      cases h
      exact .more (charWalk_of_walkTree char) (mt List.contains_iff_mem.mpr go) (ih rest)

/-- Every error of the bounded collection but want of fuel is one of the loop. -/
theorem messageFails_of_collectCodes {d : Decoder} {f : Nat} {c : Cursor} {a : Abort}
    (h : collectCodes d f c = .error a) (ha : a ≠ .endless) : MessageFails d c a := by
  induction f generalizing c with
  | zero => cases h; exact absurd rfl ha
  | succ f ih =>
    rw [collectCodes_succ] at h
    rcases bind_eq_error.mp h with fails | ⟨⟨c', code⟩, char, h⟩
    · exact .char (charFails_of_walkTree fails ha)
    split at h
    · cases h
    · rename_i go
      rcases bind_eq_error.mp h with later | ⟨q, -, h⟩
      · exact .later (charWalk_of_walkTree char) (mt List.contains_iff_mem.mpr go) (ih later)
      · cases h

theorem exists_fuel_of_collectCodes {d : Decoder} {f : Nat} {c : Cursor}
    (hf : collectCodes d f c ≠ .error .endless) : ∃ g, f = g + 1 :=
  Nat.exists_eq_succ_of_ne_zero fun h => hf (h ▸ rfl)

/-- What the loop ends with, the bounded collection answers unless it wants fuel. -/
theorem MessageWalk.collectCodes_eq {d : Decoder} {c : Cursor} {r : Cursor × List Code} (h : MessageWalk d c r)
    (hs : singleBit c.shift = true) (f : Nat) (hf : collectCodes d f c ≠ .error .endless) :
    collectCodes d f c = .ok r := by
  induction h generalizing f with
  | last char stop =>
    obtain ⟨g, rfl⟩ := exists_fuel_of_collectCodes hf
    rw [collectCodes_of_char ((decodeChar_eq_ok_iff hs _).mpr char), if_pos stop]
  | more char go rest ih =>
    obtain ⟨g, rfl⟩ := exists_fuel_of_collectCodes hf
    rw [collectCodes_of_char ((decodeChar_eq_ok_iff hs _).mpr char), if_neg go] at hf ⊢
    rw [ih (char.forward hs).1 g fun hend => hf (by rw [hend, error_bind])]
    rfl

/-- An error of the loop is one of the bounded collection, unless that wants fuel. -/
theorem MessageFails.collectCodes_eq {d : Decoder} {c : Cursor} {a : Abort} (h : MessageFails d c a)
    (hs : singleBit c.shift = true) (f : Nat) (hf : collectCodes d f c ≠ .error .endless) :
    collectCodes d f c = .error a := by
  induction h generalizing f with
  | char fails =>
    obtain ⟨g, rfl⟩ := exists_fuel_of_collectCodes hf
    rw [collectCodes_succ, (decodeChar_eq_error_iff hs _).mpr fails, error_bind]
  | later char go rest ih =>
    obtain ⟨g, rfl⟩ := exists_fuel_of_collectCodes hf
    rw [collectCodes_of_char ((decodeChar_eq_ok_iff hs _).mpr char), if_neg go] at hf ⊢
    rw [ih (char.forward hs).1 g fun hend => hf (by rw [hend, error_bind])]
    rfl

/-- R194 for characters: each consumes at least one bit, so the same fuel is enough. -/
theorem collectCodes_ne_endless {d : Decoder} {f : Nat} {c : Cursor} (hs : singleBit c.shift = true)
    (hf : walkBound ≤ c.position d.cfg.variant + f) : collectCodes d f c ≠ .error .endless := by
  induction f generalizing c with
  | zero => exact absurd hf (Nat.not_le.mpr (Cursor.position_lt hs))
  | succ f ih =>
    intro h
    rw [collectCodes_succ] at h
    rcases bind_eq_error.mp h with h | ⟨r, char, h⟩
    · exact decodeChar_ne_endless d hs h
    split at h
    · cases h
    · rcases bind_eq_error.mp h with h | ⟨q, -, h⟩
      · obtain ⟨hs', hlt⟩ := (charWalk_of_walkTree char).forward hs
        exact ih hs' (by omega) h
      · cases h

theorem decodeMessage_ne_endless (d : Decoder) {c : Cursor} (hs : singleBit c.shift = true) :
    decodeMessage d c ≠ .error .endless :=
  collectCodes_ne_endless hs (Nat.le_add_left _ _)

theorem decodeMessage_eq_ok_iff {d : Decoder} {c : Cursor} (hs : singleBit c.shift = true) (r : Cursor × List Code) :
    decodeMessage d c = .ok r ↔ MessageWalk d c r :=
  ⟨messageWalk_of_collectCodes, fun h => h.collectCodes_eq hs walkBound (decodeMessage_ne_endless d hs)⟩

theorem decodeMessage_eq_error_iff {d : Decoder} {c : Cursor} (hs : singleBit c.shift = true) (a : Abort) :
    decodeMessage d c = .error a ↔ MessageFails d c a :=
  ⟨fun h => messageFails_of_collectCodes h fun ha => decodeMessage_ne_endless d hs (ha ▸ h),
    fun h => h.collectCodes_eq hs walkBound (decodeMessage_ne_endless d hs)⟩

/-- Settles O35: the collection and the loop agree character by character, and the fuel is enough by R194. -/
theorem decodeMessageIsTheUnboundedLoop : Obligations.DecodeMessageIsTheUnboundedLoop :=
  fun _ _ hs => ⟨decodeMessage_eq_ok_iff hs, decodeMessage_eq_error_iff hs⟩

/-! ### The checks, failed (R253) -/

theorem State.needConfig_of_none {s : State} (hc : s.cfg.full = none) : s.needConfig = .error (.call .state) := by
  simp [State.needConfig, hc]

theorem State.needImage_of_none {s : State} (hr : s.rom = none) : s.needImage = .error (.session .io 0#24) := by
  simp [State.needImage, hr]

section
variable {s : State} {check : FullCfg → Except Abort Unit} {body : Decoder → State → Except Abort State}

/-- A check that fails ends a decoder command before setup. -/
theorem State.decoderCommand_of_not_ready {a : Abort} (h : s.ready check = .error a) :
    s.decoderCommand check body = s.abort a := by
  rw [State.decoderCommand, h]

theorem State.decoderCommand_of_faulted (hf : s.fault.isSome = true) :
    s.decoderCommand check body = .next (s.answered ⟨.faulted, 0#24, 0#8, 0#16⟩) := by
  have hready : s.ready check = .error (.call .faulted) := by
    rw [State.ready, State.guardFaulted_of_isSome hf, error_bind]
  exact State.decoderCommand_of_not_ready hready

theorem State.decoderCommand_of_no_config (hf : s.fault = none) (hc : s.cfg.full = none) :
    s.decoderCommand check body = .next (s.answered ⟨.state, 0#24, 0#8, 0#16⟩) := by
  have hready : s.ready check = .error (.call .state) := by
    rw [State.ready, State.guardFaulted_of_none hf, ok_bind, State.needConfig_of_none hc, error_bind]
  exact State.decoderCommand_of_not_ready hready

variable {c : FullCfg} (hf : s.fault = none) (hc : s.cfg.full = some c) (hk : check c = .ok ())
include hf hc hk

theorem State.decoderCommand_of_no_image (hr : s.rom = none) :
    s.decoderCommand check body = .next (s.faultedWith .io 0#24) := by
  have hready : s.ready check = .error (.session .io 0#24) := by
    rw [State.ready, State.guardFaulted_of_none hf, ok_bind, State.needConfig_ok.mpr hc, ok_bind, hk, ok_bind,
      State.needImage_of_none hr, error_bind]
  exact State.decoderCommand_of_not_ready hready

variable {img : Image} (hr : s.rom = some img)
include hr

/-- An assertion of the implicit setup ends a decoder command before its body. -/
theorem State.decoderCommand_of_assertion {info : BitVec 24} (ht : s.tables = none)
    (hsetup : runSetup s.params img c = .error (.session .assertion info)) :
    s.decoderCommand check body = .next (s.faultedWith .assertion info) := by
  rw [State.decoderCommand, State.ready_of hf hc hk hr]
  simp only [State.withSetup, State.ensureSetup_error_iff.mpr ⟨ht, hsetup⟩]
  rfl

/-- Past its checks and setup, a decoder command is its body on the state that holds the tables (R183). -/
theorem State.decoderCommand_of_setup {tb : Tables}
    (ht : s.tables = some tb ∨ s.tables = none ∧ runSetup s.params img c = .ok tb) :
    s.decoderCommand check body =
      { s with tables := some tb }.conclude (body ⟨s.params, img, c, tb⟩ { s with tables := some tb }) :=
  State.decoderCommand_of_ready (State.ready_of hf hc hk hr) (State.ensureSetup_ok_iff.mpr ht)

end

/-! ### `DECCHAR` (R196) -/

/-- `DECCHAR` past its checks and setup: `CheckShift`, then one character. -/
def deccharBody (address : CpuAddr) (shift : Byte) (d : Decoder) (u : State) : Except Abort State := do
  checkShift shift
  let r ← decodeChar d ⟨address, shift⟩
  return u.respond .ok r.1.address r.1.shift r.2

theorem exec_decchar_eq (address : CpuAddr) (shift : Byte) (s : State) :
    exec (.decchar address shift) s = s.decoderCommand (fun _ => .ok ()) (deccharBody address shift) := rfl

theorem checkShift_of_singleBit {m : Byte} (h : singleBit m = true) : checkShift m = .ok () := if_pos h

theorem checkShift_of_not_singleBit {m : Byte} (h : ¬ singleBit m = true) :
    checkShift m = .error (.session .badShift (m.setWidth 24)) := if_neg h

section
variable {address : CpuAddr} {shift : Byte} {d : Decoder} {u : State}

theorem deccharBody_of_not_singleBit (h : ¬ singleBit shift = true) :
    deccharBody address shift d u = .error (.session .badShift (shift.setWidth 24)) := by
  rw [deccharBody, checkShift_of_not_singleBit h, error_bind]

theorem deccharBody_of_charFails (h : singleBit shift = true) {a : Abort}
    (hchar : CharFails d d.cfg.root ⟨address, shift⟩ a) : deccharBody address shift d u = .error a := by
  rw [deccharBody, checkShift_of_singleBit h, ok_bind, (decodeChar_eq_error_iff h a).mpr hchar, error_bind]

theorem deccharBody_of_charWalk (h : singleBit shift = true) {c' : Cursor} {code : Code}
    (hchar : CharWalk d d.cfg.root ⟨address, shift⟩ (c', code)) :
    deccharBody address shift d u = .ok (u.answered ⟨.ok, c'.address, c'.shift, code⟩) := by
  rw [deccharBody, checkShift_of_singleBit h, ok_bind, (decodeChar_eq_ok_iff h _).mpr hchar]
  rfl

end

/-- Settles O41: the checks of a decoder command, its setup, and then the three endings of its body. -/
theorem deccharAnswersTheCharacter : Obligations.DeccharAnswersTheCharacter := by
  intro s address shift
  rw [exec_decchar_eq]
  refine ⟨State.decoderCommand_of_faulted, State.decoderCommand_of_no_config, fun c hf hc =>
    ⟨State.decoderCommand_of_no_image hf hc rfl, fun img hr => ⟨fun info =>
      State.decoderCommand_of_assertion hf hc rfl hr, fun tb ht => ?_⟩⟩⟩
  rw [State.decoderCommand_of_setup hf hc rfl hr ht, ← singleBit_iff_mem]
  refine ⟨fun hbad => ?_, fun hmask => ⟨fun e info hchar => ?_, fun c' code hchar => ?_⟩⟩
  · rw [deccharBody_of_not_singleBit hbad]
    rfl
  · rw [deccharBody_of_charFails hmask hchar]
    rfl
  · rw [deccharBody_of_charWalk hmask hchar]
    rfl

/-! ### `SETUP` (R182) -/

theorem execSetup_of_faulted {s : State} (hf : s.fault.isSome = true) :
    execSetup s = .next (s.answered ⟨.faulted, 0#24, 0#8, 0#16⟩) := by
  rw [execSetup, State.guardFaulted_of_isSome hf]
  rfl

theorem execSetup_of_no_config {s : State} (hf : s.fault = none) (hc : s.cfg.full = none) :
    execSetup s = .next (s.answered ⟨.state, 0#24, 0#8, 0#16⟩) := by
  rw [execSetup, State.guardFaulted_of_none hf, State.needConfig_of_none hc]
  rfl

section
variable {s : State} {c : FullCfg} (hf : s.fault = none) (hc : s.cfg.full = some c)
include hf hc

/-- A second `SETUP` asks neither for the image nor for the tables. -/
theorem execSetup_of_done (hdone : s.tables.isSome = true) :
    execSetup s = .next (s.answered ⟨.ok, 0#24, 0#8, 0#16⟩) := by
  rw [execSetup, State.guardFaulted_of_none hf, State.needConfig_ok.mpr hc, ok_bind, ok_bind,
    if_pos (show s.setupDone = true from hdone)]
  rfl

variable (ht : s.tables = none)
include ht

/-- A first `SETUP` past the check of the configuration. -/
theorem execSetup_of_not_done : execSetup s = s.conclude (do
    let img ← s.needImage
    let tb ← runSetup s.params img c
    return ({ s with tables := some tb } : State).answered ⟨.ok, 0#24, 0#8, 0#16⟩) := by
  have hdone : ¬ s.setupDone = true := by simp [State.setupDone, ht]
  rw [execSetup, State.guardFaulted_of_none hf, State.needConfig_ok.mpr hc, ok_bind, ok_bind, if_neg hdone]
  rfl

theorem execSetup_of_no_image (hr : s.rom = none) : execSetup s = .next (s.faultedWith .io 0#24) := by
  rw [execSetup_of_not_done hf hc ht, State.needImage_of_none hr]
  rfl

variable {img : Image} (hr : s.rom = some img)
include hr

theorem execSetup_of_assertion {info : BitVec 24}
    (hsetup : runSetup s.params img c = .error (.session .assertion info)) :
    execSetup s = .next (s.faultedWith .assertion info) := by
  rw [execSetup_of_not_done hf hc ht, State.needImage_ok.mpr hr, ok_bind, hsetup]
  rfl

theorem execSetup_of_tables {tb : Tables} (hsetup : runSetup s.params img c = .ok tb) :
    execSetup s = .next (({ s with tables := some tb } : State).answered ⟨.ok, 0#24, 0#8, 0#16⟩) := by
  rw [execSetup_of_not_done hf hc ht, State.needImage_ok.mpr hr, ok_bind, hsetup]
  rfl

end

/-- Settles O29: the checks in their order, and then what `Setup()` answers. -/
theorem setupCommandLoadsTheTables : Obligations.SetupCommandLoadsTheTables :=
  ⟨fun _ => execSetup_of_faulted, fun _ => execSetup_of_no_config, fun _ _ => execSetup_of_done,
    fun _ _ => execSetup_of_no_image, fun _ _ _ hf hc ht hr =>
      ⟨fun _ => execSetup_of_assertion hf hc ht hr, fun _ => execSetup_of_tables hf hc ht hr⟩⟩

end Sys2Proof.Machine
end

section
/-! PROOFS. The family of 43_locate_enumerate.md: message ids (R221, R222), the locate (R223), and the commands `LOCATE`
(R225), `ENUM` (R230) and `NEXT` (R232). -/

namespace Sys2Proof.Machine

/-! ### Message ids (R221, R222) -/

/-- Settles O45: the count is below 16 and the byte offset at most 3 * 0x1FFF, so both fit their fields. -/
theorem messageIdsSplitByVariant : Obligations.MessageIdsSplitByVariant := by
  intro id
  have hid := id.isLt
  simp only [decompose, BitVec.toNat_ofNat]
  omega

/-! ### Messages skipped (R223 step 5) -/

/-- A message of the loop consumes at least one bit, and the mask stays a single bit (R194). -/
theorem MessageWalk.forward {d : Decoder} {c : Cursor} {r : Cursor × List Code} (h : MessageWalk d c r)
    (hs : singleBit c.shift = true) :
    singleBit r.1.shift = true ∧ c.position d.cfg.variant < r.1.position d.cfg.variant := by
  induction h with
  | last char stop => exact char.forward hs
  | more char go rest ih =>
    obtain ⟨hs', hlt⟩ := char.forward hs
    obtain ⟨hend, hlt'⟩ := ih hs'
    exact ⟨hend, hlt.trans hlt'⟩

/-- Skipping messages answers what skipping them with the unbounded loop ends at. -/
theorem skipMessages_eq_ok_iff {d : Decoder} {n : Nat} {c : Cursor} (hs : singleBit c.shift = true) (c' : Cursor) :
    skipMessages d n c = .ok c' ↔ SkipWalk d n c c' := by
  induction n generalizing c with
  | zero => simp only [skipMessages_zero, Except.ok.injEq, SkipWalk]
  | succ n ih =>
    rw [skipMessages_succ, bind_eq_ok, Prod.exists]
    simp only [decodeMessage_eq_ok_iff hs]
    exact exists₂_congr fun m codes => and_congr_right fun walk => ih (walk.forward hs).1

/-- Skipping messages raises what skipping them with the unbounded loop raises. -/
theorem skipMessages_eq_error_iff {d : Decoder} {n : Nat} {c : Cursor} (hs : singleBit c.shift = true) (a : Abort) :
    skipMessages d n c = .error a ↔ SkipFails d n c a := by
  induction n generalizing c with
  | zero => simp only [skipMessages_zero, reduceCtorEq, SkipFails]
  | succ n ih =>
    rw [skipMessages_succ, bind_eq_error, Prod.exists]
    simp only [decodeMessage_eq_ok_iff hs, decodeMessage_eq_error_iff hs]
    exact or_congr_right (exists₂_congr fun m codes => and_congr_right fun walk => ih (walk.forward hs).1)

/-! ### The group record (R114) -/

/-- The index is in the low three bits of the first byte, and so of the record. -/
theorem toNat_recordIndex (bytes : List Byte) : (recordIndex bytes).toNat = leValue bytes % 8 := by
  have hlow : getInt bytes 0 1 % 8 = leValue bytes % 8 := by
    cases bytes with
    | nil => rfl
    | cons b rest =>
      simp only [getInt, List.drop_zero, List.take_succ_cons, List.take_zero, leValue_cons, leValue_nil]
      omega
  rw [recordIndex, BitVec.toNat_ofNat, ← hlow]
  have hmask : getInt bytes 0 1 &&& 0x07 = getInt bytes 0 1 % 8 := Nat.and_two_pow_sub_one_eq_mod _ 3
  omega

/-- The offset is the record without its low three bits. -/
theorem toNat_recordOffset {bytes : List Byte} (hlen : bytes.length ≤ 3) :
    (recordOffset bytes).toNat = leValue bytes / 8 := by
  have hword : getInt bytes 0 3 = leValue bytes := congrArg leValue (List.take_of_length_le hlen)
  have hlt : leValue bytes / 8 < 2 ^ 21 := by
    have := getInt_lt bytes 0 3
    omega
  have hbits : getBits bytes 0 0xFFFFF8 = some ((leValue bytes &&& 0xFFFFF8) / 2 ^ 3) :=
    hword ▸ getBits_eq (by decide) (by decide) bytes 0
  have hmask : (leValue bytes &&& 0xFFFFF8) / 2 ^ 3 = leValue bytes / 8 :=
    calc (leValue bytes &&& 0xFFFFF8) / 2 ^ 3
      _ = leValue bytes / 2 ^ 3 &&& 2 ^ 21 - 1 := Nat.and_div_two_pow
      _ = leValue bytes / 8 := Nat.and_two_pow_sub_one_of_lt_two_pow hlt
  rw [recordOffset, hbits, Option.getD_some, hmask, BitVec.toNat_ofNat, Nat.mod_eq_of_lt hlt]

/-! ### The start of a group (R223 steps 3 and 4) -/

theorem addAddress_eq_of_le {base : CpuAddr} {off : Nat} (h : base.toNat + off ≤ 0xFFFFFF) :
    addAddress base off = .ok (BitVec.ofNat 24 (base.toNat + off)) := if_neg (Nat.not_lt.mpr h)

section
variable {t : Tables} {base : CpuAddr} {off : BitVec 21} {idx : BitVec 3}

theorem startCursor_of_not_singleBit (h : ¬ singleBit (t.shiftbit[idx.toNat]'idx.isLt) = true) :
    startCursor t base off idx = .error (.session .badShift ((t.shiftbit[idx.toNat]'idx.isLt).setWidth 24)) := by
  rw [startCursor, checkShift_of_not_singleBit h, error_bind]

variable (h : singleBit (t.shiftbit[idx.toNat]'idx.isLt) = true)
include h

theorem startCursor_of_overflow (hover : 0xFFFFFF < base.toNat + off.toNat) :
    startCursor t base off idx = .error (.session .addrOvf base) := by
  rw [startCursor, checkShift_of_singleBit h, ok_bind, addAddress_of_overflow hover, error_bind]

theorem startCursor_of_le (hle : base.toNat + off.toNat ≤ 0xFFFFFF) :
    startCursor t base off idx =
      .ok ⟨BitVec.ofNat 24 (base.toNat + off.toNat), t.shiftbit[idx.toNat]'idx.isLt⟩ := by
  rw [startCursor, checkShift_of_singleBit h, ok_bind, addAddress_eq_of_le hle]
  rfl

end

/-! ### The locate (R223) -/

/-- A locate from the address of the group record on: steps 3 to 5 of R223. -/
def locateFrom (d : Decoder) (count : Nat) (ra : CpuAddr) : Except Abort Cursor :=
  let bytes := tabRead d.params d.image d.cfg.mapper ra 3
  if bytes.length = 0 then .error (.session .romBounds (BitVec.ofNat 24 (tabOffset d.params d.cfg.mapper ra)))
  else startCursor d.tables d.cfg.addrMessage (recordOffset bytes) (recordIndex bytes) >>= skipMessages d count

theorem locateMessage_eq (d : Decoder) (id : MessageId) :
    locateMessage d id = addAddress d.cfg.addrGroup (decompose d.cfg.variant id).2.toNat >>=
      locateFrom d (decompose d.cfg.variant id).1.toNat := rfl

section
variable {d : Decoder} {id : MessageId}

theorem locateMessage_of_overflow (h : 0xFFFFFF < d.cfg.addrGroup.toNat + (decompose d.cfg.variant id).2.toNat) :
    locateMessage d id = .error (.session .addrOvf d.cfg.addrGroup) := by
  rw [locateMessage_eq, addAddress_of_overflow h, error_bind]

theorem locateMessage_of_le (h : d.cfg.addrGroup.toNat + (decompose d.cfg.variant id).2.toNat ≤ 0xFFFFFF) :
    locateMessage d id = locateFrom d (decompose d.cfg.variant id).1.toNat
      (BitVec.ofNat 24 (d.cfg.addrGroup.toNat + (decompose d.cfg.variant id).2.toNat)) := by
  rw [locateMessage_eq, addAddress_eq_of_le h, ok_bind]

end

section
variable {d : Decoder} {ra : CpuAddr} {off : Nat} (hoff : tabOffset d.params d.cfg.mapper ra = off)
include hoff

theorem locateFrom_of_no_record (hend : d.image.size ≤ off) (count : Nat) :
    locateFrom d count ra = .error (.session .romBounds (BitVec.ofNat 24 off)) := by
  subst hoff
  have hlen : (tabRead d.params d.image d.cfg.mapper ra 3).length = 0 :=
    congrArg List.length (romRead_past _ _ _ hend)
  exact if_pos hlen

theorem locateFrom_of_record (hin : off < d.image.size) (count : Nat) :
    locateFrom d count ra = startCursor d.tables d.cfg.addrMessage (recordOffset (romRead d.image off 3))
      (recordIndex (romRead d.image off 3)) >>= skipMessages d count := by
  subst hoff
  have hlen : ¬ (tabRead d.params d.image d.cfg.mapper ra 3).length = 0 := by
    rw [tabRead, romRead_length]
    omega
  exact if_neg hlen

end

/-- Settles O46: the record's address, the bytes that exist of it, and then the start of its group decide in turn. -/
theorem locateFollowsTheGroupRecord : Obligations.LocateFollowsTheGroupRecord := by
  intro d id count ra off rec3 shift address
  have hoff (hle : ra ≤ 0xFFFFFF) : tabOffset d.params d.cfg.mapper (BitVec.ofNat 24 ra) = off := by
    rw [tabOffset_eq, BitVec.toNat_ofNat, Nat.mod_eq_of_lt (Nat.lt_succ_of_le hle)]
  have hlen : (romRead d.image off 3).length ≤ 3 := (romRead_length _ _ _).trans_le (Nat.min_le_left _ _)
  have hshift : d.tables.shiftbit[(recordIndex (romRead d.image off 3)).toNat] = shift := by
    simp only [toNat_recordIndex, shift, rec3]
  have haddr : d.cfg.addrMessage.toNat + (recordOffset (romRead d.image off 3)).toNat = address := by
    rw [toNat_recordOffset hlen]
    exact Nat.add_comm _ _
  have hrecord (hle : ra ≤ 0xFFFFFF) (hin : off < d.image.size) :=
    (locateMessage_of_le hle).trans (locateFrom_of_record (hoff hle) hin _)
  refine ⟨locateMessage_of_overflow, fun hle hend =>
    (locateMessage_of_le hle).trans (locateFrom_of_no_record (hoff hle) hend _),
    fun hle hin hbad => ?_, fun hle hin hs hover => ?_, fun hle hin hs hfit => ?_⟩
  · rw [hrecord hle hin, startCursor_of_not_singleBit (hshift ▸ ne_true_of_eq_false hbad), error_bind, hshift]
  · rw [hrecord hle hin, startCursor_of_overflow (hshift ▸ hs) (haddr ▸ hover), error_bind]
  · rw [hrecord hle hin, startCursor_of_le (hshift ▸ hs) (haddr ▸ hfit), ok_bind, hshift, haddr]
    exact ⟨skipMessages_eq_ok_iff hs, skipMessages_eq_error_iff hs⟩

/-! ### `LOCATE` (R225) -/

/-- `LOCATE` past its checks and setup. -/
def locateBody (id : MessageId) (d : Decoder) (u : State) : Except Abort State := do
  let c ← locateMessage d id
  return u.respond .ok c.address c.shift 0#16

theorem exec_locate_eq (id : MessageId) (s : State) :
    exec (.locate id) s = s.decoderCommand (fun _ => .ok ()) (locateBody id) := rfl

/-- Settles O42: the checks of a decoder command, its setup, and then the two endings of the locate. -/
theorem locateAnswersTheStart : Obligations.LocateAnswersTheStart := by
  intro s id
  rw [exec_locate_eq]
  refine ⟨State.decoderCommand_of_faulted, State.decoderCommand_of_no_config, fun c hf hc =>
    ⟨State.decoderCommand_of_no_image hf hc rfl, fun img hr => ⟨fun info =>
      State.decoderCommand_of_assertion hf hc rfl hr, fun tb ht => ?_⟩⟩⟩
  rw [State.decoderCommand_of_setup hf hc rfl hr ht, locateBody]
  refine ⟨fun e info hlocate => ?_, fun c' hlocate => ?_⟩
  · rw [hlocate]
    rfl
  · rw [hlocate]
    rfl

/-! ### `ENUM` (R230) -/

/-- `ENUM` past its checks and setup. -/
def enumBody (first last : MessageId) (d : Decoder) (u : State) : Except Abort State := do
  let c ← locateMessage d first
  return { u with enumPos := some ⟨c, (last - first).setWidth 17⟩ }.respond .ok c.address c.shift (last - first)

theorem exec_enum_eq (first last : MessageId) (s : State) :
    exec (.enum first last) s = s.decoderCommand (s.enumCheck first last) (enumBody first last) := rfl

/-- The check of a decoder command's own, failed. -/
theorem State.decoderCommand_of_check_error {s : State} {check : FullCfg → Except Abort Unit}
    {body : Decoder → State → Except Abort State} {c : FullCfg} {a : Abort} (hf : s.fault = none)
    (hc : s.cfg.full = some c) (hk : check c = .error a) : s.decoderCommand check body = s.abort a := by
  have hready : s.ready check = .error a := by
    rw [State.ready, State.guardFaulted_of_none hf, ok_bind, State.needConfig_ok.mpr hc, ok_bind, hk, error_bind]
  exact State.decoderCommand_of_not_ready hready

theorem rangeOk_iff {c : FullCfg} {first last : MessageId} :
    rangeOk c first last = true ↔
      c.idFirst.toNat ≤ first.toNat ∧ first.toNat < last.toNat ∧ last.toNat ≤ c.idLast.toNat := decide_eq_true_iff

section
variable {s : State} {first last : MessageId} {c : FullCfg}

theorem State.enumCheck_of_used (h : s.enumPos.isSome = true) : s.enumCheck first last c = .error (.call .state) :=
  if_pos h

variable (h : s.enumPos = none)
include h

theorem State.enumCheck_of_unused :
    s.enumCheck first last c = if rangeOk c first last then .ok () else .error (.call .range) := by
  simp [State.enumCheck, State.enumUsed, h]

theorem State.enumCheck_of_range (hrange : rangeOk c first last = true) : s.enumCheck first last c = .ok () := by
  rw [State.enumCheck_of_unused h, if_pos hrange]

theorem State.enumCheck_of_not_range (hrange : ¬ rangeOk c first last = true) :
    s.enumCheck first last c = .error (.call .range) := by
  rw [State.enumCheck_of_unused h, if_neg hrange]

end

/-- In a window that is not empty, the 16-bit difference of its ends is the number of its messages (R230). -/
theorem windowLength_eq {first last : MessageId} (h : first.toNat < last.toNat) :
    last - first = BitVec.ofNat 16 (last.toNat - first.toNat) ∧
      (last - first).setWidth 17 = BitVec.ofNat 17 (last.toNat - first.toNat) := by
  constructor <;> bv_omega

/-- Settles O43: the checks of a decoder command with `ENUM`'s own between them, its setup, and then the two endings of
the locate. -/
theorem enumStartsTheEnumeration : Obligations.EnumStartsTheEnumeration := by
  intro s first last
  rw [exec_enum_eq]
  refine ⟨State.decoderCommand_of_faulted, State.decoderCommand_of_no_config, fun c hf hc =>
    ⟨fun hused => ?_, fun hunused hwindow => ?_, fun hunused hlow hlt hhigh => ?_⟩⟩
  · exact State.decoderCommand_of_check_error hf hc (State.enumCheck_of_used hused)
  · exact State.decoderCommand_of_check_error hf hc (State.enumCheck_of_not_range hunused (mt rangeOk_iff.mp hwindow))
  · have hk : s.enumCheck first last c = .ok () :=
      State.enumCheck_of_range hunused (rangeOk_iff.mpr ⟨hlow, hlt, hhigh⟩)
    obtain ⟨hcount, hremain⟩ := windowLength_eq hlt
    refine ⟨State.decoderCommand_of_no_image hf hc hk, fun img hr => ⟨fun info =>
      State.decoderCommand_of_assertion hf hc hk hr, fun tb ht => ?_⟩⟩
    rw [State.decoderCommand_of_setup hf hc hk hr ht, enumBody, hremain, hcount]
    refine ⟨fun e info hlocate => ?_, fun c' hlocate => ?_⟩
    · rw [hlocate]
      rfl
    · rw [hlocate]
      rfl

/-! ### `NEXT` (R232) -/

theorem execNext_of_faulted {s : State} (hf : s.fault.isSome = true) :
    execNext s = .next (s.answered ⟨.faulted, 0#24, 0#8, 0#16⟩) := by
  rw [execNext, State.guardFaulted_of_isSome hf]
  rfl

theorem execNext_of_no_enum {s : State} (hf : s.fault = none) (he : s.enumPos = none) :
    execNext s = .next (s.answered ⟨.state, 0#24, 0#8, 0#16⟩) := by
  have hneed : s.needEnum = .error (.call .state) := by simp only [State.needEnum, he]
  rw [execNext, State.guardFaulted_of_none hf, hneed]
  rfl

section
variable {s : State} {e : EnumPos} (hf : s.fault = none) (he : s.enumPos = some e)
include hf he

theorem execNext_of_exhausted (hremain : e.remain = 0#17) :
    execNext s = .next (s.answered ⟨.exhausted, 0#24, 0#8, 0#16⟩) := by
  rw [execNext, State.guardFaulted_of_none hf, ok_bind, State.needEnum_ok.mpr he, ok_bind, if_pos hremain]
  rfl

variable {c : FullCfg} {tb : Tables} {img : Image} (hremain : e.remain ≠ 0#17) (hc : s.cfg.full = some c)
  (ht : s.tables = some tb) (hr : s.rom = some img)
include hremain hc ht hr

/-- Past its checks, `NEXT` is one message decoded at the enumeration's cursor. -/
theorem execNext_of_checks : execNext s = s.conclude (do
    let r ← decodeMessage ⟨s.params, img, c, tb⟩ e.cursor
    return ({ s with enumPos := some ⟨r.1, e.remain - 1#17⟩,
                     output := s.output ++ [⟨e.cursor.address, e.cursor.shift, r.2⟩] } : State).answered
      ⟨.ok, e.cursor.address, e.cursor.shift, BitVec.ofNat 16 r.2.length⟩) := by
  rw [execNext, State.guardFaulted_of_none hf, ok_bind, State.needEnum_ok.mpr he, ok_bind, if_neg hremain,
    State.needConfig_ok.mpr hc, ok_bind, State.needTables_ok.mpr ht, ok_bind, State.needImage_ok.mpr hr, ok_bind]
  rfl

variable (hs : singleBit e.cursor.shift = true)
include hs

theorem execNext_of_messageFails {err : SessionError} {info : BitVec 24}
    (hfails : MessageFails ⟨s.params, img, c, tb⟩ e.cursor (.session err info)) :
    execNext s = .next (s.faultedWith err info) := by
  rw [execNext_of_checks hf he hremain hc ht hr, (decodeMessage_eq_error_iff hs _).mpr hfails]
  rfl

theorem execNext_of_messageWalk {c' : Cursor} {codes : List Code}
    (hwalk : MessageWalk ⟨s.params, img, c, tb⟩ e.cursor (c', codes)) :
    execNext s =
      .next (({ s with enumPos := some ⟨c', e.remain - 1#17⟩,
                       output := s.output ++ [⟨e.cursor.address, e.cursor.shift, codes⟩] } : State).answered
        ⟨.ok, e.cursor.address, e.cursor.shift, BitVec.ofNat 16 codes.length⟩) := by
  rw [execNext_of_checks hf he hremain hc ht hr, (decodeMessage_eq_ok_iff hs _).mpr hwalk]
  rfl

end

/-- Settles O44: the checks in their order, and then the two endings of one message. -/
theorem nextYieldsOneMessage : Obligations.NextYieldsOneMessage :=
  ⟨fun _ => execNext_of_faulted, fun _ => execNext_of_no_enum, fun _ _ => execNext_of_exhausted,
    fun _ _ _ _ _ hf he hremain hc ht hr hs =>
      ⟨fun _ _ => execNext_of_messageFails hf he hremain hc ht hr hs,
        fun _ _ => execNext_of_messageWalk hf he hremain hc ht hr hs⟩⟩

end Sys2Proof.Machine
end

section
/-! PROOFS. The family of 60_exceptions.md: the refusals of a faulted block (R257), the cases of `E_STATE` (R262) and of
`E_RANGE` (R261), and, from the ways a command can end, what a call-fatal (R254) and a session-fatal error (R255)
change. -/

namespace Sys2Proof.Machine

/-! ### The commands (R91) -/

/-- The commands whose first check of their own is check (2) of R253: every one but `RESET`, `WRCFG`, `RDREG` and the
illegal word. -/
inductive GuardedCommand : Instr → Prop where
  | detect : GuardedCommand .detect
  | rom2cpu (rom : RomAddr) : GuardedCommand (.rom2cpu rom)
  | cpu2rom (cpu : CpuAddr) : GuardedCommand (.cpu2rom cpu)
  | incaddr (cpu : CpuAddr) : GuardedCommand (.incaddr cpu)
  | setup : GuardedCommand .setup
  | locate (id : MessageId) : GuardedCommand (.locate id)
  | decchar (address : CpuAddr) (shift : Byte) : GuardedCommand (.decchar address shift)
  | enum (first last : MessageId) : GuardedCommand (.enum first last)
  | next : GuardedCommand .next

/-- Every command, by the check that decides first what becomes of it. -/
theorem commandInstr_cases {i : Instr} (h : commandInstr i = true) :
    GuardedCommand i ∨ i = .reset ∨ (∃ r value, i = .wrcfg r value) ∨ (∃ r, i = .rdreg r) ∨ ∃ w, i = .illegal w := by
  cases i with
  | detect => exact .inl .detect
  | rom2cpu rom => exact .inl (.rom2cpu rom)
  | cpu2rom cpu => exact .inl (.cpu2rom cpu)
  | incaddr cpu => exact .inl (.incaddr cpu)
  | setup => exact .inl .setup
  | locate id => exact .inl (.locate id)
  | decchar address shift => exact .inl (.decchar address shift)
  | enum first last => exact .inl (.enum first last)
  | next => exact .inl .next
  | reset => exact .inr (.inl rfl)
  | wrcfg r value => exact .inr (.inr (.inl ⟨r, value, rfl⟩))
  | rdreg r => exact .inr (.inr (.inr (.inl ⟨r, rfl⟩)))
  | illegal w => exact .inr (.inr (.inr (.inr ⟨w, rfl⟩)))
  | mapper op | variant op | addrGroup op | addrShiftbit op | addrMessage op | addrOff op | addrOn op | root op
  | readSize op | decodeMask op | idFirst op | idLast op | delimCount op | delim _ op => cases op <;> cases h
  | _ => cases h

/-! ### Refusals (R254) -/

/-- `s` answers the instruction with a call-fatal error and changes nothing else, whatever the image is. -/
def State.Refuses (s : State) (i : Instr) (e : CallError) : Prop :=
  ∀ rom', exec i { s with rom := rom' } = .next (({ s with rom := rom' } : State).answered ⟨e.code, 0#24, 0#8, 0#16⟩)

theorem State.Refuses.exec_eq {s : State} {i : Instr} {e : CallError} (h : s.Refuses i e) :
    exec i s = .next (s.answered ⟨e.code, 0#24, 0#8, 0#16⟩) := h s.rom

theorem State.accessWrite_of_faulted {s : State} {r : CfgReg} {value : BitVec 24} (hf : s.fault.isSome = true)
    (hv : r.legal s.params value = true) :
    s.accessWrite r value = .next (s.answered ⟨.faulted, 0#24, 0#8, 0#16⟩) := by
  rw [State.accessWrite, if_pos hv, State.guardFaulted_of_isSome hf]
  rfl

theorem State.accessWrite_of_not_legal {s : State} {r : CfgReg} {value : BitVec 24}
    (hv : ¬ r.legal s.params value = true) :
    s.accessWrite r value = .next (s.answered ⟨.illegal, 0#24, 0#8, 0#16⟩) := if_neg hv

theorem State.accessRead_of_no_value {s : State} {r : Reg} (hp : r.present s.params = true)
    (hv : s.readReg r = none) : s.accessRead r = .next (s.answered ⟨.state, 0#24, 0#8, 0#16⟩) := by
  rw [State.accessRead, if_pos hp, hv]
  rfl

theorem State.accessRead_of_not_present {s : State} {r : Reg} (hp : ¬ r.present s.params = true) :
    s.accessRead r = .next (s.answered ⟨.illegal, 0#24, 0#8, 0#16⟩) := if_neg hp

/-! ### The faulted block (R257) -/

section
variable {s : State} (hf : s.fault.isSome = true)
include hf

theorem GuardedCommand.refuses_of_faulted {i : Instr} (hi : GuardedCommand i) : s.Refuses i .faulted := by
  intro rom'
  cases hi with
  | detect => exact execDetect_of_faulted hf
  | rom2cpu rom => exact (execRom2cpu_eq ..).trans (State.mapperCommand_of_faulted hf)
  | cpu2rom cpu => exact (execCpu2rom_eq ..).trans (State.mapperCommand_of_faulted hf)
  | incaddr cpu => exact (execIncaddr_eq ..).trans (State.mapperCommand_of_faulted hf)
  | setup => exact execSetup_of_faulted hf
  | locate id => exact State.decoderCommand_of_faulted hf
  | decchar address shift => exact State.decoderCommand_of_faulted hf
  | enum first last => exact State.decoderCommand_of_faulted hf
  | next => exact execNext_of_faulted hf

theorem refuses_wrcfg_of_faulted {r : CfgReg} {value : BitVec 24} (hv : r.legal s.params value = true) :
    s.Refuses (.wrcfg r value) .faulted := fun _ => State.accessWrite_of_faulted hf hv

/-- What begins with check (2) of R253, a command or a data row, gets no further in a faulted block. -/
theorem State.fault_of_guarded {t : State} {f : Unit → Except Abort State}
    (h : s.conclude (s.guardFaulted >>= f) = .next t) : t.fault = s.fault := by
  rw [State.guardFaulted_of_isSome hf] at h
  cases h
  rfl

end

theorem State.accessRead_fault {s t : State} {r : Reg} (h : s.accessRead r = .next t) : t.fault = s.fault := by
  obtain ⟨-, _, -, rfl⟩ | ⟨-, -, rfl⟩ | ⟨-, rfl⟩ := State.accessRead_next h <;> rfl

theorem State.accessWrite_fault {s t : State} {r : CfgReg} {value : BitVec 24} (h : s.accessWrite r value = .next t) :
    t.fault = s.fault := by
  obtain ⟨-, -, -, rfl⟩ | ⟨-, -, rfl⟩ | ⟨-, -, -, rfl⟩ | ⟨-, rfl⟩ := State.accessWrite_next h <;> rfl

theorem State.access_fault {s t : State} {n : Nat} {r : CfgReg} {op : RegOp n} (h : s.access r op = .next t) :
    t.fault = s.fault := by
  cases op with
  | read => exact State.accessRead_fault h
  | write value => exact State.accessWrite_fault h

theorem GuardedCommand.fault_of_faulted {i : Instr} {s t : State} (hi : GuardedCommand i)
    (hf : s.fault.isSome = true) (h : exec i s = .next t) : t.fault = s.fault := by
  rw [(hi.refuses_of_faulted hf).exec_eq] at h
  cases h
  rfl

/-- The first session-fatal error stays recorded, for the whole instruction set: only `RESET` gets past it. -/
theorem exec_fault_of_faulted {i : Instr} {s t : State} (hf : s.fault.isSome = true) (hi : i ≠ .reset)
    (h : exec i s = .next t) : t.fault = s.fault := by
  cases i with
  | reset => exact absurd rfl hi
  | locate id => exact (GuardedCommand.locate id).fault_of_faulted hf h
  | decchar address shift => exact (GuardedCommand.decchar address shift).fault_of_faulted hf h
  | enum first last => exact (GuardedCommand.enum first last).fault_of_faulted hf h
  | detect | rom2cpu _ | cpu2rom _ | incaddr _ | setup | next | nodeWLeaf _ | nodeWBranch _ | nodeVLeaf _
  | nodeVBranch _ _ | grouprec _ _ | msgidW _ _ | msgidV _ _ | headerMakeup _ _ | headerCheckpair _ _ | shiftbit _ =>
    exact State.fault_of_guarded hf h
  | wrcfg r value => exact State.accessWrite_fault h
  | mapper op | variant op | addrGroup op | addrShiftbit op | addrMessage op | addrOff op | addrOn op | root op
  | readSize op | decodeMask op | idFirst op | idLast op | delimCount op | delim _ op => exact State.access_fault h
  | rdreg r => exact State.accessRead_fault h
  | status => exact State.accessRead_fault (r := .status) h
  | bankSize => exact State.accessRead_fault (r := .bankSize) h
  | curAddr => exact State.accessRead_fault (r := .curAddr) h
  | curShift => exact State.accessRead_fault (r := .curShift) h
  | remain => exact State.accessRead_fault (r := .remain) h
  | faultInfo => exact State.accessRead_fault (r := .faultInfo) h
  | illegal _ | response _ _ _ _ =>
    cases h
    rfl

/-- Settles O13: check (2) of R253 refuses the commands, and what is not behind it only answers or reads. -/
theorem faultedBlockRefusesCommands : Obligations.FaultedBlockRefusesCommands := by
  refine ⟨fun i s hf hc hwf hreset hrdreg hillegal => ?_, fun i s t => exec_fault_of_faulted⟩
  obtain hg | rfl | ⟨r, value, rfl⟩ | ⟨r, rfl⟩ | ⟨w, rfl⟩ := commandInstr_cases hc
  · exact (hg.refuses_of_faulted hf).exec_eq
  · exact absurd rfl hreset
  · exact (refuses_wrcfg_of_faulted hf hwf).exec_eq
  · exact absurd rfl (hrdreg r)
  · exact absurd rfl (hillegal w)

/-! ### The decoder commands, whatever the image is -/

/-- Whatever the image is, the instruction is the decoder command with this check and this body. -/
def State.IsDecoderCommand (s : State) (i : Instr) (check : FullCfg → Except Abort Unit)
    (body : Decoder → State → Except Abort State) : Prop :=
  ∀ rom', exec i { s with rom := rom' } = ({ s with rom := rom' } : State).decoderCommand check body

theorem isDecoderCommand_locate (s : State) (id : MessageId) :
    s.IsDecoderCommand (.locate id) (fun _ => .ok ()) (locateBody id) := fun _ => rfl

theorem isDecoderCommand_decchar (s : State) (address : CpuAddr) (shift : Byte) :
    s.IsDecoderCommand (.decchar address shift) (fun _ => .ok ()) (deccharBody address shift) := fun _ => rfl

theorem isDecoderCommand_enum (s : State) (first last : MessageId) :
    s.IsDecoderCommand (.enum first last) (s.enumCheck first last) (enumBody first last) := fun _ => rfl

section
variable {s : State} {i : Instr} {check : FullCfg → Except Abort Unit} {body : Decoder → State → Except Abort State}
  (hi : s.IsDecoderCommand i check body)
include hi

theorem State.IsDecoderCommand.exec_eq : exec i s = s.decoderCommand check body := hi s.rom

theorem State.IsDecoderCommand.refuses_of_no_config (hf : s.fault = none) (hc : s.cfg.full = none) :
    s.Refuses i .state :=
  fun rom' => (hi rom').trans (State.decoderCommand_of_no_config hf hc)

/-- The check of a decoder command's own comes before the image (R253). -/
theorem State.IsDecoderCommand.refuses_of_check {c : FullCfg} {e : CallError} (hf : s.fault = none)
    (hc : s.cfg.full = some c) (hk : check c = .error (.call e)) : s.Refuses i e :=
  fun rom' => (hi rom').trans (State.decoderCommand_of_check_error (s := { s with rom := rom' }) hf hc hk)

end

/-! ### `E_STATE` (R262) -/

section
variable {s : State} (hf : s.fault = none)
include hf

/-- Case (a): no mapper in force. -/
theorem refuses_of_no_mapper {i : Instr} (hm : s.cfg.mapper = none)
    (hi : (∃ a, i = .rom2cpu a) ∨ (∃ a, i = .cpu2rom a) ∨ ∃ a, i = .incaddr a) : s.Refuses i .state := by
  intro rom'
  obtain ⟨a, rfl⟩ | ⟨a, rfl⟩ | ⟨a, rfl⟩ := hi
  · exact (execRom2cpu_eq ..).trans (State.mapperCommand_of_no_mapper hf hm)
  · exact (execCpu2rom_eq ..).trans (State.mapperCommand_of_no_mapper hf hm)
  · exact (execIncaddr_eq ..).trans (State.mapperCommand_of_no_mapper hf hm)

/-- Case (b): an incomplete configuration. -/
theorem refuses_of_no_config {i : Instr} (hc : s.cfg.full = none)
    (hi : i = .setup ∨ (∃ id, i = .locate id) ∨ (∃ a m, i = .decchar a m) ∨ ∃ first last, i = .enum first last) :
    s.Refuses i .state := by
  obtain rfl | ⟨id, rfl⟩ | ⟨a, m, rfl⟩ | ⟨first, last, rfl⟩ := hi
  · exact fun _ => execSetup_of_no_config hf hc
  · exact (isDecoderCommand_locate s id).refuses_of_no_config hf hc
  · exact (isDecoderCommand_decchar s a m).refuses_of_no_config hf hc
  · exact (isDecoderCommand_enum s first last).refuses_of_no_config hf hc

/-- Case (c): a locked configuration. -/
theorem refuses_of_locked {i : Instr} (hl : s.tables.isSome = true)
    (hi : i = .detect ∨ ∃ r value, i = .wrcfg r value ∧ r.legal s.params value = true) : s.Refuses i .state := by
  intro rom'
  obtain rfl | ⟨r, value, rfl, hv⟩ := hi
  · exact execDetect_of_locked hl hf
  · exact State.accessWrite_of_locked hl hf hv

/-- Case (d): a second `ENUM`, with or without a complete configuration. -/
theorem refuses_enum_of_used {first last : MessageId} (hused : s.enumPos.isSome = true) :
    s.Refuses (.enum first last) .state := by
  cases hc : s.cfg.full with
  | none => exact (isDecoderCommand_enum s first last).refuses_of_no_config hf hc
  | some c => exact (isDecoderCommand_enum s first last).refuses_of_check hf hc (State.enumCheck_of_used hused)

/-- Case (e): `NEXT` before `ENUM`. -/
theorem refuses_next_of_no_enum (he : s.enumPos = none) : s.Refuses .next .state :=
  fun _ => execNext_of_no_enum hf he

end

/-- Case (f): a register without value, which `RDREG` reads past a fault too. -/
theorem refuses_rdreg_of_no_value {s : State} {r : Reg} (hp : r.present s.params = true) (hv : s.readReg r = none) :
    s.Refuses (.rdreg r) .state := fun _ => State.accessRead_of_no_value hp (by cases r <;> exact hv)

/-- Settles O39, case by case. -/
theorem stateErrors : Obligations.StateErrors := by
  rintro s i (⟨hf, hm, hi⟩ | ⟨hf, hc, hi⟩ | ⟨hf, hl, hi⟩ | ⟨hf, hused, first, last, rfl⟩ | ⟨hf, he, rfl⟩ |
    ⟨r, rfl, hp, hv⟩)
  · exact refuses_of_no_mapper hf hm hi
  · exact refuses_of_no_config hf hc hi
  · exact refuses_of_locked hf hl hi
  · exact refuses_enum_of_used hf hused
  · exact refuses_next_of_no_enum hf he
  · exact refuses_rdreg_of_no_value hp hv

/-! ### `E_RANGE` (R261) -/

theorem refuses_enum_of_window {s : State} {c : FullCfg} {first last : MessageId} (hf : s.fault = none)
    (hc : s.cfg.full = some c) (he : s.enumPos = none) (hwindow : ¬ rangeOk c first last = true) :
    s.Refuses (.enum first last) .range :=
  (isDecoderCommand_enum s first last).refuses_of_check hf hc (State.enumCheck_of_not_range he hwindow)

theorem State.enumCheck_error {s : State} {first last : MessageId} {c : FullCfg} {a : Abort}
    (h : s.enumCheck first last c = .error a) : ∃ e, a = .call e := by
  unfold State.enumCheck at h
  split at h
  · exact ⟨.state, (Except.error.inj h).symm⟩
  · split at h
    · cases h
    · exact ⟨.range, (Except.error.inj h).symm⟩

/-! ### `NEXT` without a configuration or tables (log 12) -/

section
variable {s : State} {e : EnumPos} (hf : s.fault = none) (he : s.enumPos = some e) (hremain : e.remain ≠ 0#17)
include hf he hremain

theorem execNext_of_no_config (hc : s.cfg.full = none) :
    execNext s = .next (s.answered ⟨.state, 0#24, 0#8, 0#16⟩) := by
  rw [execNext, State.guardFaulted_of_none hf, ok_bind, State.needEnum_ok.mpr he, ok_bind, if_neg hremain,
    State.needConfig_of_none hc]
  rfl

theorem execNext_of_no_tables {c : FullCfg} (hc : s.cfg.full = some c) (ht : s.tables = none) :
    execNext s = .next (s.answered ⟨.state, 0#24, 0#8, 0#16⟩) := by
  have hneed : s.needTables = .error (.call .state) := by simp only [State.needTables, ht]
  rw [execNext, State.guardFaulted_of_none hf, ok_bind, State.needEnum_ok.mpr he, ok_bind, if_neg hremain,
    State.needConfig_ok.mpr hc, ok_bind, hneed]
  rfl

end

/-! ### How a command ends (R254, R255) -/

/-- The tables an error may leave: those there were, or those of an implicit setup that completed before it (R255). -/
def State.TablesAfterSetup (s : State) (tables : Option Tables) : Prop :=
  tables = s.tables ∨
    (s.tables = none ∧ ∃ c img tb, s.cfg.full = some c ∧ s.rom = some img ∧ runSetup s.params img c = .ok tb ∧
      tables = some tb)

theorem State.tablesAfterSetup_of_ensureSetup {s : State} {c : FullCfg} {img : Image} {tb : Tables}
    (hc : s.cfg.full = some c) (hr : s.rom = some img) (h : s.ensureSetup c img = .ok tb) :
    s.TablesAfterSetup (some tb) := by
  obtain ht | ⟨ht, hsetup⟩ := State.ensureSetup_ok h
  · exact .inl ht.symm
  · exact .inr ⟨ht, c, img, tb, hc, hr, hsetup, rfl⟩

/-- The ways a command can end: it answers, or it is refused, or it takes a session-fatal error. -/
inductive Ending (i : Instr) (s t : State) : Prop where
  | success (r : Response) (code : r.code = .ok ∨ r.code = .exhausted) (record : t.responses = s.responses ++ [r])
      (clear : s.fault = none → t.fault = none)
  | callFatal (e : CallError) (window : e = .range → ∃ first last, i = .enum first last) (refused : s.Refuses i e)
      (state : t = s.answered ⟨e.code, 0#24, 0#8, 0#16⟩)
  | sessionFatal (e : SessionError) (info : BitVec 24) (tables : Option Tables) (unfaulted : s.fault = none)
      (setup : s.TablesAfterSetup tables) (state : t = ({ s with tables := tables } : State).faultedWith e info)

/-- From the check of the image on, a command answers OK or takes a session-fatal error: its call-fatal errors are
behind it (R253). -/
structure PastChecks (u : State) (x : Except Abort State) : Prop where
  answers : Yields (fun v => v.fault = u.fault ∧ ∃ r, r.code = .ok ∧ v.responses = u.responses ++ [r]) x
  noCall : ∀ e, x ≠ .error (.call e)

theorem PastChecks.pure {u v : State} {r0 : BitVec 24} {r1 : BitVec 8} {r2 : BitVec 16} (hfault : v.fault = u.fault)
    (hrecord : v.responses = u.responses) : PastChecks u (pure (v.respond .ok r0 r1 r2)) where
  answers := yields_pure ⟨hfault, ⟨.ok, r0, r1, r2⟩, rfl, congrArg (· ++ _) hrecord⟩
  noCall := nofun

theorem PastChecks.bind {u : State} {α : Type} {x : Except Abort α} {f : α → Except Abort State}
    (hx : ∀ e, x ≠ .error (.call e)) (hf : ∀ a, PastChecks u (f a)) : PastChecks u (x >>= f) where
  answers := yields_bind fun a _ => (hf a).answers
  noCall e h := by
    obtain h | ⟨a, -, h⟩ := bind_eq_error.mp h
    · exact hx e h
    · exact (hf a).noCall e h

section
variable {i : Instr} {s t : State}

theorem Ending.of_refuses {e : CallError} (hr : s.Refuses i e)
    (hwindow : e = .range → ∃ first last, i = .enum first last) (h : exec i s = .next t) : Ending i s t :=
  .callFatal e hwindow hr (Host.Outcome.next.inj (h.symm.trans hr.exec_eq))

/-- A session-fatal error with the tables as they were. -/
theorem Ending.of_abort {e : SessionError} {info : BitVec 24} (hf : s.fault = none)
    (h : s.abort (.session e info) = .next t) : Ending i s t :=
  .sessionFatal e info s.tables hf (.inl rfl) (Host.Outcome.next.inj h).symm

theorem Ending.of_answered {r : Response} (hcode : r.code = .ok ∨ r.code = .exhausted)
    (h : Host.Outcome.next (s.answered r) = (.next t : Host.Outcome State Fault Refusal)) : Ending i s t := by
  cases h
  exact .success r hcode rfl id

/-- The end of a command that has passed its checks, and its setup if it has one. -/
theorem Ending.of_conclude {tables : Option Tables} {x : Except Abort State} (hf : s.fault = none)
    (hsetup : s.TablesAfterSetup tables) (h : ({ s with tables := tables } : State).conclude x = .next t)
    (hx : PastChecks { s with tables := tables } x) : Ending i s t := by
  obtain hok | ⟨a, herr, ha⟩ := State.conclude_next h
  · obtain ⟨hfault, r, hcode, hrecord⟩ := hx.answers t hok
    exact .success r (.inl hcode) hrecord hfault.trans
  · obtain ⟨e, rfl, -⟩ | ⟨e, info, -, rfl⟩ := State.abort_next ha
    · exact absurd herr (hx.noCall e)
    · exact .sessionFatal e info tables hf hsetup rfl

end

/-! ### What raises no call-fatal error -/

theorem State.needImage_ne_call (s : State) (e : CallError) : s.needImage ≠ .error (.call e) := by
  intro h
  cases (State.needImage_error h).2

theorem runSetup_ne_call (p : Params) (img : Image) (c : FullCfg) (e : CallError) :
    runSetup p img c ≠ .error (.call e) := by
  intro h
  cases (runSetup_error h).choose_spec

theorem incrementAddress_ne_call (m : Mapper) (a : CpuAddr) (e : CallError) :
    incrementAddress m a ≠ .error (.call e) := by
  intro h
  cases (incrementAddress_error h).2

theorem checkShift_ne_call (m : Byte) (e : CallError) : checkShift m ≠ .error (.call e) := by
  intro h
  cases (checkShift_error h).2

theorem decodeChar_ne_call (d : Decoder) (c : Cursor) (e : CallError) : decodeChar d c ≠ .error (.call e) := by
  intro h
  obtain h | ⟨_, h | h⟩ := walkTree_error h <;> cases h

theorem decodeMessage_ne_call (d : Decoder) (c : Cursor) (e : CallError) : decodeMessage d c ≠ .error (.call e) := by
  intro h
  obtain h | ⟨_, h | h⟩ := decodeMessage_error h <;> cases h

theorem locateMessage_ne_call (d : Decoder) (id : MessageId) (e : CallError) :
    locateMessage d id ≠ .error (.call e) := by
  intro h
  obtain h | ⟨_, h | h | h⟩ := locateMessage_error h <;> cases h

/-! ### How each command ends -/

section
variable {s t : State}

theorem execReset_ending (h : execReset s = .next t) : Ending .reset s t := by
  cases h
  exact .success ⟨.ok, 0#24, 0#8, 0#16⟩ (.inl rfl) rfl fun _ => rfl

theorem execRdreg_ending {r : Reg} (h : execRdreg r s = .next t) : Ending (.rdreg r) s t := by
  obtain ⟨-, value, -, rfl⟩ | ⟨hp, hv, -⟩ | ⟨hp, -⟩ := State.accessRead_next h
  · exact .success ⟨.ok, value, 0#8, 0#16⟩ (.inl rfl) rfl id
  · exact .of_refuses (refuses_rdreg_of_no_value hp hv) nofun h
  · exact .of_refuses (e := .illegal) (fun _ => State.accessRead_of_not_present (ne_true_of_eq_false hp)) nofun h

theorem execWrcfg_ending {r : CfgReg} {value : BitVec 24} (h : execWrcfg r value s = .next t) :
    Ending (.wrcfg r value) s t := by
  obtain ⟨-, -, -, rfl⟩ | ⟨hv, hf, -⟩ | ⟨hv, hf, hl, -⟩ | ⟨hv, -⟩ := State.accessWrite_next h
  · exact .success ⟨.ok, 0#24, 0#8, 0#16⟩ (.inl rfl) rfl id
  · exact .of_refuses (refuses_wrcfg_of_faulted hf hv) nofun h
  · exact .of_refuses (refuses_of_locked hf hl (.inr ⟨r, value, rfl, hv⟩)) nofun h
  · exact .of_refuses (e := .illegal) (fun _ => State.accessWrite_of_not_legal (ne_true_of_eq_false hv)) nofun h

variable (hf : s.fault = none)
include hf

theorem execDetect_ending (h : execDetect s = .next t) : Ending .detect s t := by
  cases ht : s.tables with
  | some tb => exact .of_refuses (refuses_of_locked hf (by rw [ht]; rfl) (.inl rfl)) nofun h
  | none =>
    rw [execDetect, State.guardFaulted_of_none hf, State.needUnlocked_of_none ht, ok_bind, ok_bind] at h
    refine .of_conclude hf (.inl rfl) h (.bind s.needImage_ne_call fun img => ?_)
    split
    · exact .pure rfl rfl
    · exact ⟨yields_error _ _, nofun⟩

theorem State.mapperCommand_ending {i : Instr} {f : Mapper → Except Abort CpuAddr}
    (hi : (∃ a, i = .rom2cpu a) ∨ (∃ a, i = .cpu2rom a) ∨ ∃ a, i = .incaddr a) (hexec : exec i s = s.mapperCommand f)
    (hcall : ∀ m e, f m ≠ .error (.call e)) (h : exec i s = .next t) : Ending i s t := by
  cases hm : s.cfg.mapper with
  | none => exact .of_refuses (refuses_of_no_mapper hf hm hi) nofun h
  | some b =>
    rw [hexec, State.mapperCommand, State.guardFaulted_of_none hf, State.needMapper_of_some hm, ok_bind, ok_bind] at h
    exact .of_conclude hf (.inl rfl) h (.bind (hcall _) fun _ => .pure rfl rfl)

theorem execSetup_ending (h : execSetup s = .next t) : Ending .setup s t := by
  cases hc : s.cfg.full with
  | none => exact .of_refuses (refuses_of_no_config hf hc (.inl rfl)) nofun h
  | some c =>
    cases ht : s.tables with
    | some tb =>
      rw [execSetup_of_done hf hc (by rw [ht]; rfl)] at h
      exact .of_answered (.inl rfl) h
    | none =>
      rw [execSetup_of_not_done hf hc ht] at h
      exact .of_conclude hf (.inl rfl) h (.bind s.needImage_ne_call fun _ => .bind (runSetup_ne_call _ _ _) fun _ =>
        .pure rfl rfl)

theorem execNext_ending (h : execNext s = .next t) : Ending .next s t := by
  cases he : s.enumPos with
  | none => exact .of_refuses (refuses_next_of_no_enum hf he) nofun h
  | some e =>
    by_cases hremain : e.remain = 0#17
    · rw [execNext_of_exhausted hf he hremain] at h
      exact .of_answered (.inr rfl) h
    cases hc : s.cfg.full with
    | none => exact .of_refuses (e := .state) (fun _ => execNext_of_no_config hf he hremain hc) nofun h
    | some c =>
      cases ht : s.tables with
      | none => exact .of_refuses (e := .state) (fun _ => execNext_of_no_tables hf he hremain hc ht) nofun h
      | some tb =>
        rw [execNext, State.guardFaulted_of_none hf, State.needEnum_ok.mpr he, ok_bind, ok_bind, if_neg hremain,
          State.needConfig_ok.mpr hc, State.needTables_ok.mpr ht, ok_bind, ok_bind] at h
        exact .of_conclude hf (.inl rfl) h (.bind s.needImage_ne_call fun _ => .bind (decodeMessage_ne_call _ _)
          fun _ => .pure rfl rfl)

/-- Every decoder command: its checks, then setup, then a body that raises no call-fatal error. -/
theorem State.IsDecoderCommand.ending {i : Instr} {check : FullCfg → Except Abort Unit}
    {body : Decoder → State → Except Abort State} (hi : s.IsDecoderCommand i check body)
    (hcheck : ∀ c a, check c = .error a → ∃ e, a = .call e ∧ (e = .range → ∃ first last, i = .enum first last))
    (hbody : ∀ d u, PastChecks u (body d u)) (h : exec i s = .next t) : Ending i s t := by
  obtain ⟨a, hready, ha⟩ | ⟨c, img, a, -, hsetup, ha⟩ | ⟨c, img, tb, hready, hsetup, ht⟩ :=
    State.decoderCommand_next (hi.exec_eq ▸ h)
  · obtain ⟨hfault, -⟩ | ⟨-, hc, -⟩ | ⟨-, c, hc, hk⟩ | ⟨-, c, -, -, -, rfl⟩ := State.ready_error hready
    · simp [hf] at hfault
    · exact .of_refuses (hi.refuses_of_no_config hf hc) nofun h
    · obtain ⟨e, rfl, hwindow⟩ := hcheck c a hk
      exact .of_refuses (hi.refuses_of_check hf hc hk) hwindow h
    · exact .of_abort hf ha
  · obtain ⟨-, info, rfl⟩ := State.ensureSetup_error hsetup
    exact .of_abort hf ha
  · obtain ⟨-, hc, -, hr⟩ := State.ready_ok hready
    exact .of_conclude hf (State.tablesAfterSetup_of_ensureSetup hc hr hsetup) ht (hbody _ _)

theorem execLocate_ending {id : MessageId} (h : execLocate id s = .next t) : Ending (.locate id) s t :=
  (isDecoderCommand_locate s id).ending hf nofun
    (fun _ _ => .bind (locateMessage_ne_call _ _) fun _ => .pure rfl rfl) h

theorem execDecchar_ending {address : CpuAddr} {shift : Byte} (h : execDecchar address shift s = .next t) :
    Ending (.decchar address shift) s t :=
  (isDecoderCommand_decchar s address shift).ending hf nofun
    (fun _ _ => .bind (checkShift_ne_call _) fun _ => .bind (decodeChar_ne_call _ _) fun _ => .pure rfl rfl) h

theorem execEnum_ending {first last : MessageId} (h : execEnum first last s = .next t) :
    Ending (.enum first last) s t :=
  (isDecoderCommand_enum s first last).ending hf
    (fun _ _ hk => (State.enumCheck_error hk).imp fun _ ha => ⟨ha, fun _ => ⟨first, last, rfl⟩⟩)
    (fun _ _ => .bind (locateMessage_ne_call _ _) fun _ => .pure rfl rfl) h

end

theorem GuardedCommand.ending {i : Instr} {s t : State} (hi : GuardedCommand i) (h : exec i s = .next t) :
    Ending i s t := by
  by_cases hfaulted : s.fault.isSome = true
  · exact .of_refuses (hi.refuses_of_faulted hfaulted) nofun h
  have hf : s.fault = none := Option.not_isSome_iff_eq_none.mp hfaulted
  cases hi with
  | detect => exact execDetect_ending hf h
  | rom2cpu rom => exact State.mapperCommand_ending hf (.inl ⟨rom, rfl⟩) (execRom2cpu_eq rom s) nofun h
  | cpu2rom cpu => exact State.mapperCommand_ending hf (.inr (.inl ⟨cpu, rfl⟩)) (execCpu2rom_eq cpu s) nofun h
  | incaddr cpu =>
    exact State.mapperCommand_ending hf (.inr (.inr ⟨cpu, rfl⟩)) (execIncaddr_eq cpu s)
      (fun m => incrementAddress_ne_call m cpu) h
  | setup => exact execSetup_ending hf h
  | locate id => exact execLocate_ending hf h
  | decchar address shift => exact execDecchar_ending hf h
  | enum first last => exact execEnum_ending hf h
  | next => exact execNext_ending hf h

/-- Every command that completes ends in one of the three ways. -/
theorem exec_ending {i : Instr} {s t : State} (hc : commandInstr i = true) (h : exec i s = .next t) :
    Ending i s t := by
  obtain hg | rfl | ⟨r, value, rfl⟩ | ⟨r, rfl⟩ | ⟨w, rfl⟩ := commandInstr_cases hc
  · exact hg.ending h
  · exact execReset_ending h
  · exact execWrcfg_ending h
  · exact execRdreg_ending h
  · exact .of_refuses (e := .illegal) (fun _ => rfl) nofun h

/-! ### The codes of the three endings (R251) -/

theorem SessionError.code_ne_ok_or_exhausted (e : SessionError) : ¬ (e.code = .ok ∨ e.code = .exhausted) := by
  cases e <;> decide

theorem CallError.code_ne_ok_or_exhausted (e : CallError) : ¬ (e.code = .ok ∨ e.code = .exhausted) := by
  cases e <;> decide

theorem CallError.code_ne_session (e : CallError) (e' : SessionError) : e.code ≠ e'.code := by
  cases e <;> cases e' <;> decide

theorem SessionError.code_inj {e e' : SessionError} (h : e.code = e'.code) : e = e' := by
  cases e <;> cases e' <;> cases h <;> rfl

theorem CallError.code_inj {e e' : CallError} (h : e.code = e'.code) : e = e' := by
  cases e <;> cases e' <;> cases h <;> rfl

theorem CallError.exists_code_eq {c : RespCode} (h : c = .range ∨ c = .state ∨ c = .illegal ∨ c = .faulted) :
    ∃ e : CallError, c = e.code := by
  obtain rfl | rfl | rfl | rfl := h
  exacts [⟨.range, rfl⟩, ⟨.state, rfl⟩, ⟨.illegal, rfl⟩, ⟨.faulted, rfl⟩]

/-- A command answers one record, so what it answered is what its ending says. -/
theorem record_unique {s t : State} {r r' : Response} (h : t.responses = s.responses ++ [r])
    (h' : t.responses = s.responses ++ [r']) : r = r' :=
  List.singleton_inj.mp (List.append_cancel_left (h.symm.trans h'))

/-- A command that answered a call-fatal code was refused with it. -/
theorem refused_of_code {i : Instr} {s t : State} {r : Response} {e : CallError} (hc : commandInstr i = true)
    (h : exec i s = .next t) (hr : t.responses = s.responses ++ [r]) (he : r.code = e.code) :
    s.Refuses i e ∧ r = ⟨e.code, 0#24, 0#8, 0#16⟩ ∧ t = s.answered r ∧
      (e = .range → ∃ first last, i = .enum first last) := by
  cases exec_ending hc h with
  | success r' code record clear =>
    obtain rfl := record_unique hr record
    exact absurd (he ▸ code) e.code_ne_ok_or_exhausted
  | callFatal e' window refused state =>
    subst state
    obtain rfl := record_unique hr rfl
    obtain rfl := CallError.code_inj he
    exact ⟨refused, rfl, rfl, window⟩
  | sessionFatal e' info tables unfaulted setup state =>
    subst state
    obtain rfl := record_unique hr rfl
    exact absurd he.symm (e.code_ne_session e')

/-- Settles O15: a call-fatal code is the code of a refusal. -/
theorem callFatalErrorsChangeNothing : Obligations.CallFatalErrorsChangeNothing := by
  intro i s t r hc h hr hcode
  obtain ⟨e, he⟩ := CallError.exists_code_eq hcode
  obtain ⟨hrefused, hrecord, hstate, -⟩ := refused_of_code hc h hr he
  subst hrecord
  exact ⟨rfl, hstate, hrefused⟩

/-- Settles O16: the check of the window comes before the image, and no other check raises `E_RANGE`. -/
theorem rangeErrorsPrecedeRomAccess : Obligations.RangeErrorsPrecedeRomAccess := by
  refine ⟨fun s c first last hf hc he hwindow => ?_, fun i s t r hc h hr hcode => ?_⟩
  · exact refuses_enum_of_window hf hc he (mt rangeOk_iff.mp hwindow)
  · obtain ⟨-, -, -, hwindow⟩ := refused_of_code (e := .range) hc h hr hcode
    exact hwindow rfl

/-- Settles O14: of the three endings only the session-fatal one has such a code, and only it sets `FAULT`. -/
theorem sessionFatalErrorsAreRecorded : Obligations.SessionFatalErrorsAreRecorded := by
  intro i s t r hc h hr
  cases exec_ending hc h with
  | success r' code record clear =>
    obtain rfl := record_unique hr record
    refine ⟨fun e he => absurd (he ▸ code) e.code_ne_ok_or_exhausted, fun hf ht => ?_⟩
    simp [clear hf] at ht
  | callFatal e' window refused state =>
    subst state
    obtain rfl := record_unique hr rfl
    refine ⟨fun e he => absurd he (e'.code_ne_session e), fun hf ht => ?_⟩
    simp [State.answered, hf] at ht
  | sessionFatal e' info tables unfaulted setup state =>
    subst state
    obtain rfl := record_unique hr rfl
    refine ⟨fun e he => ?_, fun _ _ => ⟨e', rfl⟩⟩
    obtain rfl := SessionError.code_inj he
    exact ⟨unfaulted, rfl, rfl, setup⟩

end Sys2Proof.Machine
end

section
/-! PROOFS. The decoder and the encoder (30_encoding.md): the two round trips, what the decoder gives, and the words it
refuses (R91 to R96, R102, R104). -/

namespace Sys2Proof

/-! ### Decode after encode -/

/-- The lemma of every row of the table. -/
theorem roundTrip (i : Instr) : Laws.RoundTrip.Statement i := by
  cases i with
  | reset => exact Laws.RoundTrip.reset
  | detect => exact Laws.RoundTrip.detect
  | rom2cpu rom => exact Laws.RoundTrip.rom2cpu rom
  | cpu2rom cpu => exact Laws.RoundTrip.cpu2rom cpu
  | incaddr cpu => exact Laws.RoundTrip.incaddr cpu
  | setup => exact Laws.RoundTrip.setup
  | locate id => exact Laws.RoundTrip.locate id
  | decchar address shift => exact Laws.RoundTrip.decchar address shift
  | enum first last => exact Laws.RoundTrip.enum first last
  | next => exact Laws.RoundTrip.next
  | wrcfg r value => exact Laws.RoundTrip.wrcfg r value
  | rdreg r => exact Laws.RoundTrip.rdreg r
  | illegal w => exact Laws.RoundTrip.illegal w
  | mapper op => exact Laws.RoundTrip.mapper op
  | variant op => exact Laws.RoundTrip.variant op
  | addrGroup op => exact Laws.RoundTrip.addrGroup op
  | addrShiftbit op => exact Laws.RoundTrip.addrShiftbit op
  | addrMessage op => exact Laws.RoundTrip.addrMessage op
  | addrOff op => exact Laws.RoundTrip.addrOff op
  | addrOn op => exact Laws.RoundTrip.addrOn op
  | root op => exact Laws.RoundTrip.root op
  | readSize op => exact Laws.RoundTrip.readSize op
  | decodeMask op => exact Laws.RoundTrip.decodeMask op
  | idFirst op => exact Laws.RoundTrip.idFirst op
  | idLast op => exact Laws.RoundTrip.idLast op
  | delimCount op => exact Laws.RoundTrip.delimCount op
  | delim n op => exact Laws.RoundTrip.delim n op
  | status => exact Laws.RoundTrip.status
  | bankSize => exact Laws.RoundTrip.bankSize
  | curAddr => exact Laws.RoundTrip.curAddr
  | curShift => exact Laws.RoundTrip.curShift
  | remain => exact Laws.RoundTrip.remain
  | faultInfo => exact Laws.RoundTrip.faultInfo
  | nodeWLeaf code => exact Laws.RoundTrip.nodeWLeaf code
  | nodeWBranch next => exact Laws.RoundTrip.nodeWBranch next
  | nodeVLeaf code => exact Laws.RoundTrip.nodeVLeaf code
  | nodeVBranch ignored number => exact Laws.RoundTrip.nodeVBranch ignored number
  | grouprec off idx => exact Laws.RoundTrip.grouprec off idx
  | msgidW group count => exact Laws.RoundTrip.msgidW group count
  | msgidV group count => exact Laws.RoundTrip.msgidV group count
  | headerMakeup ignored hirom => exact Laws.RoundTrip.headerMakeup ignored hirom
  | headerCheckpair wordB wordA => exact Laws.RoundTrip.headerCheckpair wordB wordA
  | shiftbit mask => exact Laws.RoundTrip.shiftbit mask
  | response code r0 r1 r2 => exact Laws.RoundTrip.response code r0 r1 r2

/-- Settles O1, row by row. -/
theorem decodeEncodeIdentity : Obligations.DecodeEncodeIdentity := fun p i => roundTrip i p

/-! ### Words put together from their fields -/

/-- The word of a command, from its opcode and its operand. -/
theorem commandWord_of_operand {w : BitVec 40} {c : BitVec 8} (hop : (opcodeOf w).toNat = c.toNat) {operand : BitVec 32}
    (hoperand : w.extractLsb' 0 32 = operand) : commandWord c operand = .command w := by
  have hc : opcodeOf w = c := BitVec.eq_of_toNat_eq hop
  subst hc hoperand
  exact congrArg PortWord.command (append_extract (m := 8) (n := 32) w)

/-- The same with the operand cut in two fields. -/
theorem commandWord_of_fields {w : BitVec 40} {c : BitVec 8} {m n : Nat} (hmn : m + n = 32)
    (hop : (opcodeOf w).toNat = c.toNat) {hi : BitVec m} {lo : BitVec n} (hhi : w.extractLsb' n m = hi)
    (hlo : w.extractLsb' 0 n = lo) : commandWord c ((hi ++ lo).cast hmn) = .command w := by
  subst hhi hlo
  rw [BitVec.extractLsb'_append_extractLsb'_eq_extractLsb' (Nat.zero_add n).symm,
    ← commandWord_of_operand hop rfl]
  congr 1
  exact BitVec.eq_of_toNat_eq (by simp [hmn])

/-- The word of a tree entry, from its bit 15 and the rest. -/
theorem entry_of_fields {w : TreeWord} {b : BitVec 1} (h : w.getLsbD 15 = b.getLsbD 0) :
    b ++ w.extractLsb' 0 15 = w := by
  have hb : w.extractLsb' 15 1 = b := by
    apply BitVec.eq_of_getLsbD_eq
    intro i hi
    obtain rfl : i = 0 := by omega
    simpa using h
  rw [← hb]
  exact append_extract (m := 1) (n := 15) w

/-- The word of a response record, from its four fields. -/
theorem record_of_fields (w : BitVec 52) :
    w.extractLsb' 48 4 ++ (w.extractLsb' 24 24 ++ (w.extractLsb' 16 8 ++ w.extractLsb' 0 16)) = w := by
  rw [BitVec.extractLsb'_append_extractLsb'_eq_extractLsb' (show 16 = 0 + 16 from rfl),
    BitVec.extractLsb'_append_extractLsb'_eq_extractLsb' (show 24 = 0 + 24 from rfl)]
  exact append_extract (m := 4) (n := 48) w

/-! ### Register rows -/

theorem encode_readOf (r : Reg) : encode (readOf r) = .regRead r.number := by
  cases r with
  | cfg r => cases r <;> rfl
  | _ => rfl

/-- A value that fits a register loses nothing in the register's width. -/
theorem setWidth_setWidth_of_lt {n : Nat} {value : BitVec 24} (h : value.toNat < 2 ^ n) :
    (value.setWidth n).setWidth 24 = value := by
  apply BitVec.eq_of_toNat_eq
  rw [BitVec.toNat_setWidth, BitVec.toNat_setWidth, Nat.mod_eq_of_lt h, Nat.mod_eq_of_lt value.isLt]

theorem encode_writeOf {r : CfgReg} {value : BitVec 24} (h : value.toNat < 2 ^ r.width) :
    encode (writeOf r value) = .regWrite r.number value := by
  cases r with
  | addrGroup | addrShiftbit | addrMessage | addrOff | addrOn => exact congrArg _ (BitVec.setWidth_eq value)
  | _ => exact congrArg _ (setWidth_setWidth_of_lt h)

theorem wf_readOf (p : Params) (r : Reg) : (readOf r).wf p = r.present p := by
  cases r with
  | cfg r => cases r <;> rfl
  | _ => rfl

theorem wf_writeOf {p : Params} {r : CfgReg} {value : BitVec 24} (h : r.legal p value = true) :
    (writeOf r value).wf p = true := by
  have hfits := setWidth_setWidth_of_lt (CfgReg.lt_of_legal h)
  cases r with
  | readSize | delimCount | delim i => exact (congrArg _ hfits).trans h
  | _ => rfl

/-! ### Encode after decode -/

theorem encode_decodeCommand (p : Params) (w : BitVec 40) : encode (decodeCommand p w) = .command w := by
  unfold decodeCommand
  dsimp only
  split
  case h_8 hop => exact commandWord_of_fields (c := 0x08#8) (m := 24) rfl hop rfl rfl
  case h_9 hop => exact commandWord_of_fields (c := 0x09#8) (m := 16) rfl hop rfl rfl
  case h_13 => rfl
  case h_11 hop =>
    split
    · rename_i r hr
      split
      · obtain ⟨hnumber, -⟩ := CfgReg.number_of_ofNumber hr
        exact commandWord_of_fields (c := 0x0B#8) rfl hop hnumber.symm rfl
      · rfl
    · rfl
  case h_12 hop =>
    split
    · rename_i hz
      split
      · rename_i r hr
        obtain ⟨hnumber, -⟩ := Reg.number_of_ofNumber hr
        exact commandWord_of_fields (c := 0x0C#8) rfl hop hnumber.symm hz
      · rfl
    · rfl
  case h_1 hop | h_2 hop | h_6 hop | h_10 hop =>
    split
    · rename_i hz
      exact commandWord_of_operand hop hz
    · rfl
  case h_3 hop | h_4 hop | h_5 hop | h_7 hop =>
    split
    · rename_i hz
      exact commandWord_of_fields rfl hop hz rfl
    · rfl

theorem encode_decodeEntry (v : Variant) (w : TreeWord) : encode (decodeEntry v w) = .treeEntry v w := by
  cases v with
  | varW =>
    change encode (if w.getLsbD 15 then .nodeWBranch _ else .nodeWLeaf _) = _
    split
    · rename_i h
      exact congrArg _ (entry_of_fields h)
    · rename_i h
      exact congrArg _ (entry_of_fields (eq_false_of_ne_true h))
  | varV =>
    change encode (if w.getLsbD 15 then .nodeVLeaf _ else .nodeVBranch _ _) = _
    split
    · rename_i h
      exact congrArg _ (entry_of_fields h)
    · rename_i h
      have hnumber : w.extractLsb' 13 2 ++ w.extractLsb' 0 13 = w.extractLsb' 0 15 :=
        BitVec.extractLsb'_append_extractLsb'_eq_extractLsb' rfl
      exact congrArg _ ((congrArg (0#1 ++ ·) hnumber).trans (entry_of_fields (eq_false_of_ne_true h)))

/-- Settles O2, reader by reader. -/
theorem encodeDecodeIdentity : Obligations.EncodeDecodeIdentity := by
  intro p w
  cases w with
  | command c => exact encode_decodeCommand p c
  | regRead n =>
    cases hr : Reg.ofNumber p n with
    | none => simp [decode, hr, encode]
    | some r => simp [decode, hr, encode_readOf, (Reg.number_of_ofNumber hr).1]
  | regWrite n value =>
    cases hr : CfgReg.ofNumber p n with
    | none => simp [decode, hr, encode]
    | some r =>
      by_cases hl : r.legal p value = true
      · simp [decode, hr, hl, encode_writeOf (CfgReg.lt_of_legal hl), (CfgReg.number_of_ofNumber hr).1]
      · simp [decode, hr, hl, encode]
  | treeEntry v e => exact encode_decodeEntry v e
  | groupRecord r => exact congrArg _ (append_extract (m := 21) (n := 3) r)
  | messageId v id =>
    cases v with
    | varW => exact congrArg _ (append_extract (m := 13) (n := 3) id)
    | varV => exact congrArg _ (append_extract (m := 12) (n := 4) id)
  | makeupByte b => exact congrArg _ (append_extract (m := 7) (n := 1) b)
  | checkPair b => exact congrArg _ (append_extract (m := 16) (n := 16) b)
  | shiftEntry b => rfl
  | responseRecord r =>
    cases hc : RespCode.ofBits (r.extractLsb' 48 4) with
    | none => simp [decode, hc, encode]
    | some code =>
      simp only [decode, hc, encode, RespCode.bits_of_ofBits hc]
      exact congrArg _ (record_of_fields r)

/-! ### What the decoder gives -/

/-- A row that matches a word fixes every field its mask covers. -/
theorem field_of_row {w value mask : BitVec 40} (h : w &&& mask = value) (lo n : Nat)
    (hmask : mask.extractLsb' lo n = BitVec.allOnes n) : w.extractLsb' lo n = value.extractLsb' lo n := by
  rw [← h, BitVec.extractLsb'_and, hmask, BitVec.and_allOnes]

theorem opcode_of_row {w value mask : BitVec 40} (h : w &&& mask = value)
    (hmask : mask.extractLsb' 32 8 = BitVec.allOnes 8) : opcodeOf w = value.extractLsb' 32 8 :=
  field_of_row h 32 8 hmask

theorem wf_decodeCommand_of_isCommand {p : Params} {w : BitVec 40} (h : isCommand p w = true) :
    (decodeCommand p w).wf p = true := by
  obtain ⟨hrow, hlegal⟩ := Bool.and_eq_true_iff.mp h
  obtain ⟨row, hmem, hmatch⟩ := List.any_eq_true.mp hrow
  replace hmatch := beq_iff_eq.mp hmatch
  simp only [commandRows, List.mem_cons, List.not_mem_nil, or_false] at hmem
  obtain rfl | rfl | rfl | rfl | rfl | rfl | rfl | rfl | rfl | rfl | rfl | rfl := hmem
  · simp only [decodeCommand, opcode_of_row hmatch (by decide), field_of_row hmatch 0 32 (by decide)]
    rfl
  · simp only [decodeCommand, opcode_of_row hmatch (by decide), field_of_row hmatch 0 32 (by decide)]
    rfl
  · simp only [decodeCommand, opcode_of_row hmatch (by decide), field_of_row hmatch 22 10 (by decide)]
    rfl
  · simp only [decodeCommand, opcode_of_row hmatch (by decide), field_of_row hmatch 24 8 (by decide)]
    rfl
  · simp only [decodeCommand, opcode_of_row hmatch (by decide), field_of_row hmatch 24 8 (by decide)]
    rfl
  · simp only [decodeCommand, opcode_of_row hmatch (by decide), field_of_row hmatch 0 32 (by decide)]
    rfl
  · simp only [decodeCommand, opcode_of_row hmatch (by decide), field_of_row hmatch 16 16 (by decide)]
    rfl
  · simp only [decodeCommand, opcode_of_row hmatch (by decide)]
    rfl
  · simp only [decodeCommand, opcode_of_row hmatch (by decide)]
    rfl
  · simp only [decodeCommand, opcode_of_row hmatch (by decide), field_of_row hmatch 0 32 (by decide)]
    rfl
  · have hop : opcodeOf w = 0x0B#8 := opcode_of_row hmatch (by decide)
    rw [commandOperandsLegal, if_pos hop] at hlegal
    cases hr : CfgReg.ofNumber p (regnoOf w) with
    | none => simp [hr] at hlegal
    | some r =>
      rw [hr] at hlegal
      simp only [decodeCommand, hop, hr, if_pos (show r.legal p (valueOf w) = true from hlegal)]
      exact hlegal
  · have hop : opcodeOf w = 0x0C#8 := opcode_of_row hmatch (by decide)
    have hvalue : valueOf w = 0#24 := field_of_row hmatch 0 24 (by decide)
    rw [commandOperandsLegal, if_neg (by rw [hop]; decide), if_pos hop] at hlegal
    obtain ⟨r, hr⟩ := Option.isSome_iff_exists.mp hlegal
    simp only [decodeCommand, hop, hvalue, hr]
    exact (Reg.number_of_ofNumber hr).2

theorem wf_decodeCommand (p : Params) (w : BitVec 40) : (decodeCommand p w).wf p = true := by
  cases h : isCommand p w with
  | true => exact wf_decodeCommand_of_isCommand h
  | false =>
    rw [decodeCommand_of_not_command h]
    simp [Instr.wf, PortWord.meaningful, h]

/-- Settles O3, reader by reader. -/
theorem decodedInstructionsAreWellFormed : Obligations.DecodedInstructionsAreWellFormed := by
  intro p w
  cases w with
  | command c => exact wf_decodeCommand p c
  | regRead n =>
    cases hr : Reg.ofNumber p n with
    | none => simp [decode, hr, Instr.wf, PortWord.meaningful]
    | some r => simp [decode, hr, wf_readOf, (Reg.number_of_ofNumber hr).2]
  | regWrite n value =>
    cases hr : CfgReg.ofNumber p n with
    | none => simp [decode, hr, Instr.wf, PortWord.meaningful]
    | some r =>
      by_cases hl : r.legal p value = true
      · simp [decode, hr, hl, wf_writeOf hl]
      · simp [decode, hr, hl, Instr.wf, PortWord.meaningful]
  | treeEntry v e =>
    cases v with
    | varW => exact apply_ite (Instr.wf p) _ _ _ |>.trans (ite_self _)
    | varV => exact apply_ite (Instr.wf p) _ _ _ |>.trans (ite_self _)
  | messageId v id => cases v <;> rfl
  | responseRecord r =>
    cases hc : RespCode.ofBits (r.extractLsb' 48 4) with
    | none => simp [decode, hc, Instr.wf, PortWord.meaningful]
    | some code => simp [decode, hc, Instr.wf]
  | groupRecord _ | makeupByte _ | checkPair _ | shiftEntry _ => rfl

/-- Settles O4: the decoder gives well-formed instructions, and an `ILLEGAL` is well formed only for a word that is no
command. -/
theorem illegalWordsAreThoseNoRowMatches : Obligations.IllegalWordsAreThoseNoRowMatches := by
  refine fun p w => ⟨fun h => ?_, decodeCommand_of_not_command⟩
  have hwf : (Instr.illegal (.command w)).wf p = true := h ▸ decodedInstructionsAreWellFormed p (.command w)
  simpa [Instr.wf, PortWord.meaningful] using hwf

/-- Settles O5: each word evaluates to its instruction. -/
theorem writtenOutWordsDecode : Obligations.WrittenOutWordsDecode := by
  unfold Obligations.WrittenOutWordsDecode
  decide

end Sys2Proof

namespace Sys2Proof.Machine

/-! ### The step (R91) -/

/-- Settles O6: the word of a well-formed instruction decodes to it. -/
theorem stepRunsTheDecodedInstruction : Obligations.StepRunsTheDecodedInstruction := by
  refine ⟨fun s i rest hwf hin => ?_, fun s w rest => step_of_inbox, fun s => step_of_empty⟩
  rw [step_of_inbox hin, decodeEncodeIdentity s.params i hwf]

theorem exec_illegal (s : State) (w : PortWord) :
    exec (.illegal w) s = .next (s.answered ⟨.illegal, 0#24, 0#8, 0#16⟩) := rfl

/-- Settles O7: a word that is no command decodes to `ILLEGAL`, which asks nothing of the state. -/
theorem illegalWordsAreRefused : Obligations.IllegalWordsAreRefused := by
  refine ⟨fun s w rest hin hc => ?_, exec_illegal⟩
  have hdecode : decode s.params (.command w) = .illegal (.command w) := decodeCommand_of_not_command hc
  rw [step_of_inbox hin, hdecode, exec_illegal]

end Sys2Proof.Machine
end

section
/-! PROOFS. The whole machine: everything an instruction can do to the block, and from it the invariant of every step
(R23, R99, R102, R181), what no instruction touches (R62, R91), and what only `RESET` takes away (R240). -/

namespace Sys2Proof.Machine

/-! ### Everything an instruction can do -/

/-- What becomes of the block when an instruction completes. The tables it may leave are those there were, or those of
an implicit setup (R183). -/
inductive Effect (s : State) : Instr → State → Prop where
  /-- a fresh session (R240) -/
  | fresh : Effect s .reset (s.freshSession.answered ⟨.ok, 0#24, 0#8, 0#16⟩)
  /-- an answer, at most with setup before it -/
  | answer {i : Instr} {tables : Option Tables} (setup : s.TablesAfterSetup tables) (r : Response)
      (silent : i = .next → r.code ≠ .ok) : Effect s i (({ s with tables := tables } : State).answered r)
  /-- a session-fatal error (R255) -/
  | fail {i : Instr} {tables : Option Tables} (setup : s.TablesAfterSetup tables) (e : SessionError)
      (info : BitVec 24) : Effect s i (({ s with tables := tables } : State).faultedWith e info)
  /-- a register written, with an answer (R163, R236) -/
  | write {i : Instr} {reg : CfgReg} {value : BitVec 24} (legal : reg.legal s.params value = true)
      (unlocked : s.tables = none) (r : Response) (other : i ≠ .next) :
      Effect s i (({ s with cfg := s.cfg.set reg value } : State).answered r)
  /-- `MAPPER` written by the makeup byte, which answers nothing (log 9) -/
  | makeup {i : Instr} {value : BitVec 24} (legal : CfgReg.legal s.params .mapper value = true)
      (unlocked : s.tables = none) (data : commandInstr i = false) :
      Effect s i { s with cfg := s.cfg.set .mapper value }
  /-- an enumeration started (R230) -/
  | start {first last : MessageId} {tables : Option Tables} (setup : s.TablesAfterSetup tables)
      (loaded : tables.isSome = true) {e : EnumPos} (single : singleBit e.cursor.shift = true)
      (window : e.remain.toNat ≤ 0xFFFF) (r : Response) :
      Effect s (.enum first last) (({ s with tables := tables, enumPos := some e } : State).answered r)
  /-- a message yielded (R232) -/
  | message {e : EnumPos} (enum : s.enumPos = some e) (left : e.remain ≠ 0#17) {d : Decoder} {c : Cursor}
      {codes : List Code} (walk : MessageWalk d e.cursor (c, codes)) {r : Response} (code : r.code = .ok) :
      Effect s .next (({ s with enumPos := some ⟨c, e.remain - 1#17⟩,
                                output := s.output ++ [⟨e.cursor.address, e.cursor.shift, codes⟩] } : State).answered r)
  /-- the temporaries moved on (log 9) -/
  | temps {i : Instr} {ts : Temps} (data : commandInstr i = false)
      (start : ts.start = s.temps.start ∨ ∀ c, ts.start = some c → singleBit c.shift = true)
      (shift : ts.shift = s.temps.shift ∨ ∀ m, ts.shift = some m → singleBit m = true) :
      Effect s i (s.withTemps ts)

section
variable {s t : State} {i : Instr}

/-- An answer without a setup before it. -/
theorem Effect.answered (r : Response) (silent : i = .next → r.code ≠ .ok) : Effect s i (s.answered r) :=
  .answer (.inl rfl) r silent

theorem Effect.of_abort {tables : Option Tables} (setup : s.TablesAfterSetup tables) {a : Abort}
    (h : ({ s with tables := tables } : State).abort a = .next t) : Effect s i t := by
  obtain ⟨e, -, rfl⟩ | ⟨e, info, -, rfl⟩ := State.abort_next h
  · exact .answer setup ⟨e.code, 0#24, 0#8, 0#16⟩ fun _ hok => e.code_ne_ok_or_exhausted (.inl hok)
  · exact .fail setup e info

/-- A command past its setup: it has the effect of the state it runs to, or takes an error. -/
theorem Effect.of_conclude_setup {tables : Option Tables} (setup : s.TablesAfterSetup tables)
    {x : Except Abort State} (h : ({ s with tables := tables } : State).conclude x = .next t)
    (hx : Yields (Effect s i) x) : Effect s i t := by
  obtain hok | ⟨a, -, ha⟩ := State.conclude_next h
  · exact hx t hok
  · exact .of_abort setup ha

theorem Effect.of_conclude {x : Except Abort State} (h : s.conclude x = .next t) (hx : Yields (Effect s i) x) :
    Effect s i t :=
  .of_conclude_setup (.inl rfl) h hx

/-! ### Register accesses -/

theorem State.accessRead_effect {r : Reg} (hi : i ≠ .next) (h : s.accessRead r = .next t) : Effect s i t := by
  obtain ⟨-, value, -, rfl⟩ | ⟨-, -, rfl⟩ | ⟨-, rfl⟩ := State.accessRead_next h
  all_goals exact .answered ⟨_, _, _, _⟩ fun hn => absurd hn hi

theorem State.accessWrite_effect {r : CfgReg} {value : BitVec 24} (hi : i ≠ .next)
    (h : s.accessWrite r value = .next t) : Effect s i t := by
  obtain ⟨hl, -, ht, rfl⟩ | ⟨-, -, rfl⟩ | ⟨-, -, -, rfl⟩ | ⟨-, rfl⟩ := State.accessWrite_next h
  · exact .write hl ht ⟨.ok, 0#24, 0#8, 0#16⟩ hi
  all_goals exact .answered ⟨_, _, _, _⟩ fun hn => absurd hn hi

theorem State.access_effect {n : Nat} {r : CfgReg} {op : RegOp n} (hi : i ≠ .next) (h : s.access r op = .next t) :
    Effect s i t := by
  cases op with
  | read => exact State.accessRead_effect hi h
  | write value => exact State.accessWrite_effect hi h

/-! ### The commands -/

/-- A value of `MAPPER` is legal, and written as one it is the one bit. -/
theorem legal_mapper (p : Params) (m : BitVec 1) : CfgReg.legal p .mapper (m.setWidth 24) = true :=
  Laws.legal_of_width m rfl (by omega) rfl fun _ => rfl

theorem Cfg.set_mapper (c : Cfg) (m : BitVec 1) : c.set .mapper (m.setWidth 24) = { c with mapper := some m } := by
  simp [Cfg.set]

theorem execDetect_effect (h : execDetect s = .next t) : Effect s .detect t := by
  refine .of_conclude h (yields_bind fun _ _ => yields_bind fun _ hunlocked => yields_bind fun img _ => ?_)
  split
  · rename_i m _
    rw [← Cfg.set_mapper]
    exact yields_pure (.write (legal_mapper _ m) (State.needUnlocked_ok hunlocked) ⟨_, _, _, _⟩ nofun)
  · exact yields_error _ _

theorem State.mapperCommand_effect {f : Mapper → Except Abort CpuAddr} (hi : i ≠ .next)
    (h : s.mapperCommand f = .next t) : Effect s i t :=
  .of_conclude h (yields_bind fun _ _ => yields_bind fun _ _ => yields_bind fun _ _ =>
    yields_pure (.answered ⟨_, _, _, _⟩ fun hn => absurd hn hi))

theorem execSetup_effect (h : execSetup s = .next t) : Effect s .setup t := by
  refine .of_conclude h (yields_bind fun _ _ => yields_bind fun c hc => ?_)
  split
  · exact yields_pure (.answered ⟨_, _, _, _⟩ nofun)
  · rename_i hdone
    refine yields_bind fun img hr => yields_bind fun tb hsetup => yields_pure (.answer (.inr ?_) ⟨_, _, _, _⟩ nofun)
    exact ⟨Option.not_isSome_iff_eq_none.mp hdone, c, img, tb, State.needConfig_ok.mp hc, State.needImage_ok.mp hr,
      hsetup, rfl⟩

/-- A decoder command has the effect of its body, or takes an error. -/
theorem State.decoderCommand_effect {check : FullCfg → Except Abort Unit} {body : Decoder → State → Except Abort State}
    (h : s.decoderCommand check body = .next t)
    (hbody : ∀ d tb, s.TablesAfterSetup (some tb) → Yields (Effect s i) (body d { s with tables := some tb })) :
    Effect s i t := by
  obtain ⟨a, -, ha⟩ | ⟨c, img, a, -, -, ha⟩ | ⟨c, img, tb, hready, hsetup, hconclude⟩ := State.decoderCommand_next h
  · exact .of_abort (.inl rfl) ha
  · exact .of_abort (.inl rfl) ha
  · obtain ⟨-, hc, -, hr⟩ := State.ready_ok hready
    have htables := State.tablesAfterSetup_of_ensureSetup hc hr hsetup
    exact .of_conclude_setup htables hconclude (hbody _ tb htables)

/-- A message of the loop has its delimiter. -/
theorem MessageWalk.codes_ne_nil {d : Decoder} {c : Cursor} {r : Cursor × List Code} (h : MessageWalk d c r) :
    r.2 ≠ [] := by
  cases h with
  | last _ _ | more _ _ _ => exact List.cons_ne_nil _ _

theorem execLocate_effect {id : MessageId} (h : execLocate id s = .next t) : Effect s (.locate id) t :=
  State.decoderCommand_effect h fun _ _ htables => yields_bind fun _ _ =>
    yields_pure (.answer htables ⟨_, _, _, _⟩ nofun)

theorem execDecchar_effect {address : CpuAddr} {shift : Byte} (h : execDecchar address shift s = .next t) :
    Effect s (.decchar address shift) t :=
  State.decoderCommand_effect h fun _ _ htables => yields_bind fun _ _ => yields_bind fun _ _ =>
    yields_pure (.answer htables ⟨_, _, _, _⟩ nofun)

/-- Skipping messages keeps the mask a single bit. -/
theorem SkipWalk.singleBit {d : Decoder} {n : Nat} {c c' : Cursor} (h : SkipWalk d n c c')
    (hs : singleBit c.shift = true) : singleBit c'.shift = true := by
  induction n generalizing c with
  | zero =>
    obtain rfl : c = c' := h
    exact hs
  | succ n ih =>
    obtain ⟨m, codes, walk, rest⟩ := h
    exact ih rest (walk.forward hs).1

/-- A message is located at a single-bit mask. -/
theorem locateMessage_singleBit {d : Decoder} {id : MessageId} {c : Cursor} (h : locateMessage d id = .ok c) :
    singleBit c.shift = true := by
  rw [locateMessage_eq] at h
  obtain ⟨ra, -, h⟩ := bind_eq_ok.mp h
  unfold locateFrom at h
  dsimp only at h
  split at h
  · cases h
  · obtain ⟨start, hstart, hskip⟩ := bind_eq_ok.mp h
    obtain ⟨-, hs, -⟩ := startCursor_ok hstart
    exact SkipWalk.singleBit ((skipMessages_eq_ok_iff hs c).mp hskip) hs

theorem execEnum_effect {first last : MessageId} (h : execEnum first last s = .next t) :
    Effect s (.enum first last) t := by
  refine State.decoderCommand_effect h fun d tb htables => yields_bind fun c hc => yields_pure ?_
  have hwindow : ((last - first).setWidth 17).toNat ≤ 0xFFFF := by
    have := (last - first).isLt
    rw [BitVec.toNat_setWidth]
    omega
  exact .start (e := ⟨c, (last - first).setWidth 17⟩) htables rfl (locateMessage_singleBit hc) hwindow ⟨_, _, _, _⟩

theorem execNext_effect (h : execNext s = .next t) : Effect s .next t := by
  refine .of_conclude h (yields_bind fun _ _ => yields_bind fun e he => ?_)
  split
  · exact yields_pure (.answered ⟨_, _, _, _⟩ nofun)
  · rename_i hleft
    refine yields_bind fun c _ => yields_bind fun tb _ => yields_bind fun img _ => yields_bind fun r hr => ?_
    exact yields_pure (.message (State.needEnum_ok.mp he) hleft (messageWalk_of_collectCodes hr)
      (r := ⟨.ok, _, _, _⟩) rfl)

/-! ### The data rows -/

theorem State.reachLeaf_effect {entry : TreeWord} (hi : commandInstr i = false) (h : s.reachLeaf entry = .next t) :
    Effect s i t := by
  refine .of_conclude h (yields_bind fun _ _ => ?_)
  split
  · exact yields_pure (.temps hi (.inl rfl) (.inl rfl))
  · exact yields_error _ _

theorem State.takeBranch_effect {v : Variant} {entry : TreeWord} (hi : commandInstr i = false)
    (h : s.takeBranch v entry = .next t) : Effect s i t :=
  .of_conclude h (yields_bind fun _ _ => yields_pure (.temps hi (.inl rfl) (.inl rfl)))

theorem State.splitId_effect {v : Variant} {id : MessageId} (hi : commandInstr i = false)
    (h : s.splitId v id = .next t) : Effect s i t :=
  .of_conclude h (yields_bind fun _ _ => yields_pure (.temps hi (.inl rfl) (.inl rfl)))

theorem execGrouprec_effect {off : BitVec 21} {idx : BitVec 3} (h : execGrouprec off idx s = .next t) :
    Effect s (.grouprec off idx) t := by
  refine .of_conclude h (yields_bind fun _ _ => yields_bind fun tb _ => ?_)
  split
  · refine yields_bind fun start hstart => yields_pure (.temps rfl (.inr ?_) (.inl rfl))
    rintro _ ⟨⟩
    obtain ⟨-, hs, -⟩ := startCursor_ok hstart
    exact hs
  · exact yields_error _ _

theorem execHeaderMakeup_effect {ignored : BitVec 7} {hirom : BitVec 1}
    (h : execHeaderMakeup ignored hirom s = .next t) : Effect s (.headerMakeup ignored hirom) t := by
  refine .of_conclude h (yields_bind fun _ _ => yields_bind fun _ hunlocked => ?_)
  rw [← Cfg.set_mapper]
  exact yields_pure (.makeup (legal_mapper _ _) (State.needUnlocked_ok hunlocked) rfl)

theorem execHeaderCheckpair_effect {wordB wordA : BitVec 16} (h : execHeaderCheckpair wordB wordA s = .next t) :
    Effect s (.headerCheckpair wordB wordA) t :=
  .of_conclude h (yields_bind fun _ _ => yields_pure (.temps rfl (.inl rfl) (.inl rfl)))

theorem execShiftbit_effect {mask : Byte} (h : execShiftbit mask s = .next t) : Effect s (.shiftbit mask) t := by
  refine .of_conclude h (yields_bind fun _ _ => yields_bind fun _ hmask =>
    yields_pure (.temps rfl (.inl rfl) (.inr ?_)))
  rintro _ ⟨⟩
  exact checkShift_ok.mp hmask

/-! ### Every instruction -/

theorem exec_effect (h : exec i s = .next t) : Effect s i t := by
  cases i with
  | reset =>
    cases h
    exact .fresh
  | detect => exact execDetect_effect h
  | rom2cpu rom => exact State.mapperCommand_effect nofun ((execRom2cpu_eq rom s).symm.trans h)
  | cpu2rom cpu => exact State.mapperCommand_effect nofun ((execCpu2rom_eq cpu s).symm.trans h)
  | incaddr cpu => exact State.mapperCommand_effect nofun ((execIncaddr_eq cpu s).symm.trans h)
  | setup => exact execSetup_effect h
  | locate id => exact execLocate_effect h
  | decchar address shift => exact execDecchar_effect h
  | enum first last => exact execEnum_effect h
  | next => exact execNext_effect h
  | wrcfg r value => exact State.accessWrite_effect nofun h
  | illegal w => exact .of_abort (a := .call .illegal) (.inl rfl) h
  | mapper op | variant op | addrGroup op | addrShiftbit op | addrMessage op | addrOff op | addrOn op | root op
  | readSize op | decodeMask op | idFirst op | idLast op | delimCount op | delim _ op =>
    exact State.access_effect nofun h
  | rdreg r => exact State.accessRead_effect nofun h
  | status => exact State.accessRead_effect (r := .status) nofun h
  | bankSize => exact State.accessRead_effect (r := .bankSize) nofun h
  | curAddr => exact State.accessRead_effect (r := .curAddr) nofun h
  | curShift => exact State.accessRead_effect (r := .curShift) nofun h
  | remain => exact State.accessRead_effect (r := .remain) nofun h
  | faultInfo => exact State.accessRead_effect (r := .faultInfo) nofun h
  | nodeWLeaf _ | nodeVLeaf _ => exact State.reachLeaf_effect rfl h
  | nodeWBranch _ | nodeVBranch _ _ => exact State.takeBranch_effect rfl h
  | msgidW _ _ | msgidV _ _ => exact State.splitId_effect rfl h
  | grouprec off idx => exact execGrouprec_effect h
  | headerMakeup ignored hirom => exact execHeaderMakeup_effect h
  | headerCheckpair wordB wordA => exact execHeaderCheckpair_effect h
  | shiftbit mask => exact execShiftbit_effect h
  | response code r0 r1 r2 =>
    cases h
    exact .answered ⟨code, r0, r1, r2⟩ nofun

end

/-! ### What no instruction touches (R62, R32, R91) -/

/-- `t` has the image, the parameters and the words not yet accepted of `s`, and every record `s` has. -/
def State.Keeps (s t : State) : Prop :=
  t.rom = s.rom ∧ t.params = s.params ∧ t.inbox = s.inbox ∧ s.responses <+: t.responses ∧ s.output <+: t.output

theorem Effect.keeps {i : Instr} {s t : State} (h : Effect s i t) : s.Keeps t := by
  cases h with
  | fresh | answer _ _ _ | fail _ _ _ | write _ _ _ _ | start _ _ _ _ _ =>
    exact ⟨rfl, rfl, rfl, ⟨_, rfl⟩, ⟨[], List.append_nil _⟩⟩
  | message _ _ _ _ => exact ⟨rfl, rfl, rfl, ⟨_, rfl⟩, ⟨_, rfl⟩⟩
  | makeup _ _ _ | temps _ _ _ => exact ⟨rfl, rfl, rfl, ⟨[], List.append_nil _⟩, ⟨[], List.append_nil _⟩⟩

/-- Settles O11: an image that is the same image has the same bytes. -/
theorem noInstructionWritesTheRom : Obligations.NoInstructionWritesTheRom := by
  intro i s t h
  obtain ⟨hrom, hparams, hinbox, hresponses, houtput⟩ := (exec_effect h).keeps
  refine ⟨hrom, fun img img' himg himg' off => ?_, hparams, hinbox, hresponses, houtput⟩
  obtain rfl : img' = img := Option.some.inj ((himg'.symm.trans hrom).trans himg)
  rfl

/-! ### The answer of a command (R91, R99) -/

/-- Settles O12: what answers nothing is no command, and only a `NEXT` that answers OK emits. -/
theorem commandsAnswerOnce : Obligations.CommandsAnswerOnce := by
  intro i s t hc h
  cases exec_effect h with
  | fresh => exact ⟨_, rfl, rfl, .inl ⟨rfl, nofun⟩⟩
  | answer _ r silent => exact ⟨r, rfl, rfl, .inl ⟨rfl, silent⟩⟩
  | fail _ e info => exact ⟨_, rfl, rfl, .inl ⟨rfl, fun _ hok => e.code_ne_ok_or_exhausted (.inl hok)⟩⟩
  | write _ _ r other => exact ⟨r, rfl, rfl, .inl ⟨rfl, fun hn => absurd hn other⟩⟩
  | start _ _ _ _ r => exact ⟨r, rfl, rfl, .inl ⟨rfl, nofun⟩⟩
  | message _ _ _ code => exact ⟨_, rfl, rfl, .inr ⟨rfl, code, _, rfl⟩⟩
  | makeup _ _ data | temps data _ _ => simp [data] at hc

/-! ### What only `RESET` takes away (R240) -/

/-- An implicit setup only adds the tables. -/
theorem State.TablesAfterSetup.isSome {s : State} {tables : Option Tables} (h : s.TablesAfterSetup tables)
    (ht : s.tables.isSome = true) : tables.isSome = true := by
  obtain rfl | ⟨hnone, -⟩ := h
  · exact ht
  · simp [hnone] at ht

/-- Every flag of `s` is set in `t`. -/
def State.FlagsKept (s t : State) : Prop :=
  (s.fault.isSome = true → t.fault.isSome = true) ∧ (s.tables.isSome = true → t.tables.isSome = true) ∧
    (s.enumPos.isSome = true → t.enumPos.isSome = true)

theorem Effect.flagsKept {i : Instr} {s t : State} (h : Effect s i t) (hi : i ≠ .reset) : s.FlagsKept t := by
  cases h with
  | fresh => exact absurd rfl hi
  | answer setup _ _ => exact ⟨id, setup.isSome, id⟩
  | fail setup _ _ => exact ⟨fun _ => rfl, setup.isSome, id⟩
  | start setup _ _ _ _ => exact ⟨id, setup.isSome, fun _ => rfl⟩
  | message _ _ _ _ => exact ⟨id, id, fun _ => rfl⟩
  | write _ _ _ _ | makeup _ _ _ | temps _ _ _ => exact ⟨id, id, id⟩

/-- Settles O55: `RESET` asks nothing of the state, and no other effect takes a flag away. -/
theorem resetStartsAFreshSession : Obligations.ResetStartsAFreshSession :=
  ⟨fun _ => rfl, fun _ _ _ hi h => (exec_effect h).flagsKept hi⟩

/-! ### The invariant (R23, R99, R102, R181) -/

/-- In a fresh session nothing is written, so the invariant speaks only of what `RESET` leaves alone. -/
theorem State.freshSession_inv {s : State} (params : s.params.wf = true)
    (image : ∀ img, s.rom = some img → img.wf = true)
    (output : ∀ r ∈ s.output, singleBit r.shift = true ∧ r.codes ≠ []) : s.freshSession.Inv where
  params := params
  image := image
  readSize := nofun
  delimCount := nofun
  delims i hi := by simp at hi
  tables := nofun
  enumPos := nofun
  start := nofun
  shift := nofun
  output := output

/-- Settles O9: after reset the session is fresh, and `DELIM_MAX` has its default. -/
theorem resetMeetsTheInvariant : Obligations.ResetMeetsTheInvariant :=
  State.freshSession_inv (s := State.reset) (by decide) nofun nofun

section
variable {s : State} (h : s.Inv)
include h

/-- Accepting a word changes nothing the invariant speaks of. -/
theorem State.Inv.accept (rest : List PortWord) : ({ s with inbox := rest } : State).Inv := { h with }

/-- An answer leaves no temporary. -/
theorem State.Inv.answered (r : Response) : (s.answered r).Inv := { h with start := nofun, shift := nofun }

theorem State.Inv.faultedWith (e : SessionError) (info : BitVec 24) : (s.faultedWith e info).Inv :=
  { h with start := nofun, shift := nofun }

/-- The tables of a setup are those of the complete configuration and the image it has read. -/
theorem State.Inv.withSetup {tables : Option Tables} (setup : s.TablesAfterSetup tables) :
    ({ s with tables := tables } : State).Inv := by
  obtain rfl | ⟨hnone, c, img, tb, hc, hr, hsetup, rfl⟩ := setup
  · exact h
  · obtain ⟨-, -, -, hoff, hon, hids⟩ := runSetup_ok hsetup
    refine { h with tables := ?_, enumPos := fun e he => ⟨rfl, (h.enumPos e he).2⟩ }
    rintro _ ⟨⟩
    exact ⟨Option.isSome_of_eq_some hr, c, hc, hoff, hon, hids⟩

theorem State.Inv.withEnumPos {e : EnumPos} (loaded : s.tables.isSome = true) (single : singleBit e.cursor.shift = true)
    (window : e.remain.toNat ≤ 0xFFFF) : ({ s with enumPos := some e } : State).Inv := by
  refine { h with enumPos := ?_ }
  rintro _ ⟨⟩
  exact ⟨loaded, single, window⟩

theorem State.Inv.emit {r : OutRecord} (single : singleBit r.shift = true) (codes : r.codes ≠ []) : (s.emit r).Inv := by
  refine { h with output := fun r' hr' => ?_ }
  obtain hr' | hr' := List.mem_append.mp hr'
  · exact h.output r' hr'
  · obtain rfl := List.mem_singleton.mp hr'
    exact ⟨single, codes⟩

end

/-! ### A register written -/

theorem Cfg.readSize_set (c : Cfg) (r : CfgReg) (value : BitVec 24) :
    (c.set r value).readSize = if r = .readSize then some (value.setWidth 2) else c.readSize := by
  cases r <;> rfl

theorem Cfg.delimCount_set (c : Cfg) (r : CfgReg) (value : BitVec 24) :
    (c.set r value).delimCount = if r = .delimCount then some (value.setWidth 5) else c.delimCount := by
  cases r <;> rfl

/-- The places of `DELIM` after a write. -/
theorem Cfg.delims_set (c : Cfg) (r : CfgReg) (value : BitVec 24) (j : Fin 16) :
    (c.set r value).delims[j] = if r = .delim j then some (value.setWidth 16) else c.delims[j] := by
  cases r with
  | delim i => simp [Cfg.set, Vector.getElem_set, Fin.ext_iff]
  | _ => rfl

theorem toNat_setWidth_of_legal {p : Params} {r : CfgReg} {value : BitVec 24} (h : r.legal p value = true) :
    (value.setWidth r.width).toNat = value.toNat := by
  rw [BitVec.toNat_setWidth, Nat.mod_eq_of_lt (CfgReg.lt_of_legal h)]

/-- A legal write leaves a legal value; while the configuration is unlocked there are no tables to disagree with it. -/
theorem State.Inv.withCfg {s : State} (h : s.Inv) {r : CfgReg} {value : BitVec 24} (hl : r.legal s.params value = true)
    (ht : s.tables = none) : ({ s with cfg := s.cfg.set r value } : State).Inv := by
  obtain ⟨hpresent, -, hrange⟩ := CfgReg.legal_iff.mp hl
  have hvalue := toNat_setWidth_of_legal hl
  have hreadSize : ∀ v, (s.cfg.set r value).readSize = some v → v = 1#2 ∨ v = 2#2 := by
    intro v hv
    rw [Cfg.readSize_set] at hv
    split at hv
    · subst r
      cases hv
      have hlegal : value.toNat = 1 ∨ value.toNat = 2 := of_decide_eq_true hrange
      exact hlegal.imp (fun h1 => BitVec.eq_of_toNat_eq (hvalue.trans h1)) fun h2 =>
        BitVec.eq_of_toNat_eq (hvalue.trans h2)
    · exact h.readSize v hv
  have hdelimCount : ∀ v, (s.cfg.set r value).delimCount = some v → 1 ≤ v.toNat ∧ v.toNat ≤ s.params.delimMax := by
    intro v hv
    rw [Cfg.delimCount_set] at hv
    split at hv
    · subst r
      cases hv
      have hlegal : 1 ≤ value.toNat ∧ value.toNat ≤ s.params.delimMax := of_decide_eq_true hrange
      exact hvalue ▸ hlegal
    · exact h.delimCount v hv
  have hdelims : ∀ j : Fin 16, (s.cfg.set r value).delims[j].isSome = true → j.val < s.params.delimMax := by
    intro j hj
    rw [Cfg.delims_set] at hj
    split at hj
    · subst r
      exact of_decide_eq_true hpresent
    · exact h.delims j hj
  refine { h with readSize := hreadSize, delimCount := hdelimCount, delims := hdelims, tables := ?_ }
  simp [ht]

/-! ### Every step -/

/-- Every effect keeps the invariant. -/
theorem Effect.inv {i : Instr} {s t : State} (h : Effect s i t) (hs : s.Inv) : t.Inv := by
  cases h with
  | fresh => exact (State.freshSession_inv hs.params hs.image hs.output).answered _
  | answer setup r _ => exact (hs.withSetup setup).answered r
  | fail setup e info => exact (hs.withSetup setup).faultedWith e info
  | write legal unlocked r _ => exact (hs.withCfg legal unlocked).answered r
  | makeup legal unlocked _ => exact hs.withCfg legal unlocked
  | start setup loaded single window r =>
    exact ((hs.withSetup setup).withEnumPos loaded single window).answered r
  | @message e henum left _ c codes walk r _ =>
    obtain ⟨hloaded, hsingle, hwindow⟩ := hs.enumPos e henum
    have hfewer : (e.remain - 1#17).toNat ≤ 0xFFFF := by bv_omega
    have hplace := hs.withEnumPos (e := ⟨c, e.remain - 1#17⟩) hloaded (walk.forward hsingle).1 hfewer
    exact (hplace.emit (r := ⟨e.cursor.address, e.cursor.shift, codes⟩) hsingle walk.codes_ne_nil).answered r
  | temps _ start shift =>
    refine { hs with start := fun c hc => ?_, shift := fun m hm => ?_ }
    · obtain hstart | hstart := start
      · exact hs.start c (hstart ▸ hc)
      · exact hstart c hc
    · obtain hshift | hshift := shift
      · exact hs.shift m (hshift ▸ hm)
      · exact hshift m hm

/-- Settles O8: accepting a word keeps the invariant, and so does every effect. -/
theorem everyStepKeepsTheInvariant : Obligations.EveryStepKeepsTheInvariant := by
  intro s t hs h
  cases hin : s.inbox with
  | nil =>
    rw [step_of_empty hin] at h
    cases h
    exact hs
  | cons w rest =>
    rw [step_of_inbox hin] at h
    exact (exec_effect h).inv (hs.accept rest)

end Sys2Proof.Machine
end

section
/-! PROOFS. Progress (R194, R293, R296): in a state of the invariant no walk wants fuel, so every step answers a next
state. Then the order of enumeration (R234), the absent image (R78, R265), and the commands that read no ROM byte
(R69). -/

namespace Sys2Proof.Machine

/-! ### What ends within the bound of R194 -/

/-- The computation ends within the bound of R194: it does not want fuel. -/
def Ends {α : Type} (x : Except Abort α) : Prop := x ≠ .error .endless

theorem ends_ok {α : Type} (a : α) : Ends (.ok a : Except Abort α) := nofun

theorem ends_bind {α β : Type} {x : Except Abort α} {f : α → Except Abort β} (hx : Ends x)
    (hf : ∀ a, x = .ok a → Ends (f a)) : Ends (x >>= f) := by
  intro h
  obtain h | ⟨a, ha, h⟩ := bind_eq_error.mp h
  · exact hx h
  · exact hf a ha h

theorem State.guardFaulted_ends (s : State) : Ends s.guardFaulted := fun h => nomatch (State.guardFaulted_error h).2
theorem State.needMapper_ends (s : State) : Ends s.needMapper := fun h => nomatch (State.needMapper_error h).2
theorem State.needConfig_ends (s : State) : Ends s.needConfig := fun h => nomatch (State.needConfig_error h).2
theorem State.needUnlocked_ends (s : State) : Ends s.needUnlocked := fun h => nomatch (State.needUnlocked_error h).2
theorem State.needEnum_ends (s : State) : Ends s.needEnum := fun h => nomatch (State.needEnum_error h).2
theorem State.needTables_ends (s : State) : Ends s.needTables := fun h => nomatch (State.needTables_error h).2
theorem State.needImage_ends (s : State) : Ends s.needImage := fun h => nomatch (State.needImage_error h).2

theorem State.enumCheck_ends (s : State) (first last : MessageId) (c : FullCfg) : Ends (s.enumCheck first last c) :=
  fun h => nomatch (State.enumCheck_error h).choose_spec

theorem incrementAddress_ends (m : Mapper) (a : CpuAddr) : Ends (incrementAddress m a) :=
  fun h => nomatch (incrementAddress_error h).2

theorem addAddress_ends (a : CpuAddr) (off : Nat) : Ends (addAddress a off) := fun h => nomatch (addAddress_error h).2

theorem checkShift_ends (m : Byte) : Ends (checkShift m) := fun h => nomatch (checkShift_error h).2

theorem runSetup_ends (p : Params) (img : Image) (c : FullCfg) : Ends (runSetup p img c) :=
  fun h => nomatch (runSetup_error h).choose_spec

theorem startCursor_ends (t : Tables) (base : CpuAddr) (off : BitVec 21) (idx : BitVec 3) :
    Ends (startCursor t base off idx) := by
  intro h
  obtain ⟨info, h | h⟩ := startCursor_error h <;> cases h

theorem skipMessages_ends (d : Decoder) (n : Nat) {c : Cursor} (hs : singleBit c.shift = true) :
    Ends (skipMessages d n c) := by
  induction n generalizing c with
  | zero => exact ends_ok c
  | succ n ih =>
    rw [skipMessages_succ]
    exact ends_bind (decodeMessage_ne_endless d hs) fun r hr => ih ((messageWalk_of_collectCodes hr).forward hs).1

theorem locateMessage_ends (d : Decoder) (id : MessageId) : Ends (locateMessage d id) := by
  rw [locateMessage_eq]
  refine ends_bind (addAddress_ends _ _) fun ra _ => ?_
  unfold locateFrom
  dsimp only
  split
  · exact nofun
  · refine ends_bind (startCursor_ends _ _ _ _) fun start hstart => ?_
    obtain ⟨-, hs, -⟩ := startCursor_ok hstart
    exact skipMessages_ends d _ hs

/-! ### Commands that end -/

theorem State.abort_completes (s : State) {a : Abort} (h : a ≠ .endless) : ∃ t, s.abort a = .next t := by
  cases a with
  | call e => exact ⟨_, rfl⟩
  | session e info => exact ⟨_, rfl⟩
  | endless => exact absurd rfl h

theorem State.conclude_completes {s : State} {x : Except Abort State} (h : Ends x) : ∃ t, s.conclude x = .next t := by
  cases x with
  | ok u => exact ⟨u, rfl⟩
  | error a => exact s.abort_completes fun ha => h (congrArg _ ha)

section
variable {s : State}

theorem State.ready_ends {check : FullCfg → Except Abort Unit} (h : ∀ c, Ends (check c)) : Ends (s.ready check) :=
  ends_bind s.guardFaulted_ends fun _ _ => ends_bind s.needConfig_ends fun c _ => ends_bind (h c) fun _ _ =>
    ends_bind s.needImage_ends fun _ _ => ends_ok _

theorem State.ensureSetup_ends (c : FullCfg) (img : Image) : Ends (s.ensureSetup c img) :=
  fun h => nomatch (State.ensureSetup_error h).2.choose_spec

/-- A decoder command ends where its check and its body do. -/
theorem State.decoderCommand_completes {check : FullCfg → Except Abort Unit}
    {body : Decoder → State → Except Abort State} (hcheck : ∀ c, Ends (check c)) (hbody : ∀ d u, Ends (body d u)) :
    ∃ t, s.decoderCommand check body = .next t := by
  cases hr : s.ready check with
  | error a =>
    rw [State.decoderCommand_of_not_ready hr]
    exact s.abort_completes fun ha => State.ready_ends hcheck (ha ▸ hr)
  | ok r =>
    rw [State.decoderCommand, hr]
    simp only [State.withSetup]
    split
    · rename_i a ha
      exact s.abort_completes fun he => State.ensureSetup_ends _ _ (he ▸ ha)
    · exact State.conclude_completes (hbody _ _)

theorem State.accessRead_completes (r : Reg) : ∃ t, s.accessRead r = .next t := by
  unfold State.accessRead
  split
  · split
    · exact ⟨_, rfl⟩
    · exact ⟨_, rfl⟩
  · exact ⟨_, rfl⟩

theorem State.accessWrite_completes (r : CfgReg) (value : BitVec 24) : ∃ t, s.accessWrite r value = .next t := by
  unfold State.accessWrite
  split
  · exact State.conclude_completes (ends_bind s.guardFaulted_ends fun _ _ => ends_bind s.needUnlocked_ends fun _ _ =>
      ends_ok _)
  · exact ⟨_, rfl⟩

theorem State.access_completes {n : Nat} (r : CfgReg) (op : RegOp n) : ∃ t, s.access r op = .next t := by
  cases op with
  | read => exact State.accessRead_completes (.cfg r)
  | write value => exact State.accessWrite_completes r _

theorem execDetect_completes : completes .detect s := by
  refine State.conclude_completes (ends_bind s.guardFaulted_ends fun _ _ => ends_bind s.needUnlocked_ends fun _ _ =>
    ends_bind s.needImage_ends fun img _ => ?_)
  split
  · exact ends_ok _
  · exact nofun

theorem State.mapperCommand_completes {f : Mapper → Except Abort CpuAddr} (h : ∀ m, Ends (f m)) :
    ∃ t, s.mapperCommand f = .next t :=
  State.conclude_completes (ends_bind s.guardFaulted_ends fun _ _ => ends_bind s.needMapper_ends fun m _ =>
    ends_bind (h m) fun _ _ => ends_ok _)

theorem execSetup_completes : completes .setup s := by
  refine State.conclude_completes (ends_bind s.guardFaulted_ends fun _ _ => ends_bind s.needConfig_ends fun c _ => ?_)
  split
  · exact ends_ok _
  · exact ends_bind s.needImage_ends fun _ _ => ends_bind (runSetup_ends _ _ _) fun _ _ => ends_ok _

theorem execLocate_completes (id : MessageId) : completes (.locate id) s :=
  State.decoderCommand_completes (fun _ => ends_ok ()) fun _ _ =>
    ends_bind (locateMessage_ends _ _) fun _ _ => ends_ok _

/-- The character begins at a single-bit mask, which `CheckShift` has accepted (R196). -/
theorem execDecchar_completes (address : CpuAddr) (shift : Byte) : completes (.decchar address shift) s :=
  State.decoderCommand_completes (fun _ => ends_ok ()) fun d _ =>
    ends_bind (checkShift_ends _) fun _ hshift =>
      ends_bind (decodeChar_ne_endless d (checkShift_ok.mp hshift)) fun _ _ => ends_ok _

theorem execEnum_completes (first last : MessageId) : completes (.enum first last) s :=
  State.decoderCommand_completes (s.enumCheck_ends first last) fun _ _ =>
    ends_bind (locateMessage_ends _ _) fun _ _ => ends_ok _

/-- The message begins at `CUR_SHIFT`, which the invariant keeps a single bit (R23). -/
theorem execNext_completes (h : s.Inv) : completes .next s := by
  refine State.conclude_completes (ends_bind s.guardFaulted_ends fun _ _ => ends_bind s.needEnum_ends fun e he => ?_)
  split
  · exact ends_ok _
  · obtain ⟨-, hsingle, -⟩ := h.enumPos e (State.needEnum_ok.mp he)
    exact ends_bind s.needConfig_ends fun _ _ => ends_bind s.needTables_ends fun _ _ =>
      ends_bind s.needImage_ends fun _ _ => ends_bind (decodeMessage_ne_endless _ hsingle) fun _ _ => ends_ok _

/-! ### Data rows that end -/

theorem State.reachLeaf_completes (entry : TreeWord) : ∃ t, s.reachLeaf entry = .next t := by
  refine State.conclude_completes (ends_bind s.guardFaulted_ends fun _ _ => ?_)
  split
  · exact ends_ok _
  · exact nofun

theorem State.takeBranch_completes (v : Variant) (entry : TreeWord) : ∃ t, s.takeBranch v entry = .next t :=
  State.conclude_completes (ends_bind s.guardFaulted_ends fun _ _ => ends_ok _)

theorem State.splitId_completes (v : Variant) (id : MessageId) : ∃ t, s.splitId v id = .next t :=
  State.conclude_completes (ends_bind s.guardFaulted_ends fun _ _ => ends_ok _)

theorem execGrouprec_completes (off : BitVec 21) (idx : BitVec 3) : completes (.grouprec off idx) s := by
  refine State.conclude_completes (ends_bind s.guardFaulted_ends fun _ _ => ends_bind s.needTables_ends fun tb _ => ?_)
  split
  · exact ends_bind (startCursor_ends _ _ _ _) fun _ _ => ends_ok _
  · exact nofun

theorem execHeaderMakeup_completes (ignored : BitVec 7) (hirom : BitVec 1) :
    completes (.headerMakeup ignored hirom) s :=
  State.conclude_completes (ends_bind s.guardFaulted_ends fun _ _ => ends_bind s.needUnlocked_ends fun _ _ => ends_ok _)

theorem execHeaderCheckpair_completes (wordB wordA : BitVec 16) : completes (.headerCheckpair wordB wordA) s :=
  State.conclude_completes (ends_bind s.guardFaulted_ends fun _ _ => ends_ok _)

theorem execShiftbit_completes (mask : Byte) : completes (.shiftbit mask) s :=
  State.conclude_completes (ends_bind s.guardFaulted_ends fun _ _ => ends_bind (checkShift_ends _) fun _ _ => ends_ok _)

/-! ### Every instruction -/

theorem exec_completes (i : Instr) (h : s.Inv) : completes i s := by
  cases i with
  | reset | illegal _ | response _ _ _ _ => exact ⟨_, rfl⟩
  | detect => exact execDetect_completes
  | rom2cpu rom => exact State.mapperCommand_completes (f := fun m => .ok (fromRom s.params m rom)) fun _ => ends_ok _
  | cpu2rom cpu => exact State.mapperCommand_completes (f := fun m => .ok (fromCpu s.params m cpu)) fun _ => ends_ok _
  | incaddr cpu => exact State.mapperCommand_completes fun m => incrementAddress_ends m cpu
  | setup => exact execSetup_completes
  | locate id => exact execLocate_completes id
  | decchar address shift => exact execDecchar_completes address shift
  | enum first last => exact execEnum_completes first last
  | next => exact execNext_completes h
  | wrcfg r value => exact State.accessWrite_completes r value
  | mapper op | variant op | addrGroup op | addrShiftbit op | addrMessage op | addrOff op | addrOn op | root op
  | readSize op | decodeMask op | idFirst op | idLast op | delimCount op | delim _ op =>
    exact State.access_completes _ op
  | rdreg r => exact State.accessRead_completes r
  | status => exact State.accessRead_completes .status
  | bankSize => exact State.accessRead_completes .bankSize
  | curAddr => exact State.accessRead_completes .curAddr
  | curShift => exact State.accessRead_completes .curShift
  | remain => exact State.accessRead_completes .remain
  | faultInfo => exact State.accessRead_completes .faultInfo
  | nodeWLeaf _ | nodeVLeaf _ => exact State.reachLeaf_completes _
  | nodeWBranch _ | nodeVBranch _ _ => exact State.takeBranch_completes _ _
  | msgidW _ _ | msgidV _ _ => exact State.splitId_completes _ _
  | grouprec off idx => exact execGrouprec_completes off idx
  | headerMakeup ignored hirom => exact execHeaderMakeup_completes ignored hirom
  | headerCheckpair wordB wordA => exact execHeaderCheckpair_completes wordB wordA
  | shiftbit mask => exact execShiftbit_completes mask

end

/-- Settles O10: accepting a word keeps the invariant, and in a state of the invariant every instruction completes. -/
theorem everyStepCompletes : Obligations.EveryStepCompletes := by
  intro s hs
  cases hin : s.inbox with
  | nil => exact ⟨s, step_of_empty hin⟩
  | cons w rest =>
    rw [step_of_inbox hin]
    exact exec_completes _ (hs.accept rest)

/-! ### Enumerations (R234) -/

theorem nextTimes_succ {n : Nat} {s t : State} (h : execNext s = .next t) : nextTimes (n + 1) s = nextTimes n t := by
  simp only [nextTimes, h]

/-- The block after a `NEXT` that yielded a message and left the cursor `c`. -/
def State.yielded (s : State) (e : EnumPos) (c : Cursor) (codes : List Code) : State :=
  ({ s with enumPos := some ⟨c, e.remain - 1#17⟩,
            output := s.output ++ [⟨e.cursor.address, e.cursor.shift, codes⟩] } : State).answered
    ⟨.ok, e.cursor.address, e.cursor.shift, BitVec.ofNat 16 codes.length⟩

/-- Settles O47, by induction on the number of messages. -/
theorem nextsFollowTheStream : Obligations.NextsFollowTheStream := by
  intro n
  induction n with
  | zero =>
    intro s e c tb img c' hf he _ _ _ _ _ hskip
    obtain rfl : e.cursor = c' := hskip
    exact ⟨s, [], rfl, by simpa using he, by simp, rfl, hf⟩
  | succ n ih =>
    intro s e c tb img c' hf he hc ht hr hs hleft ⟨m, codes, walk, rest⟩
    have hremain : e.remain ≠ 0#17 := by
      rintro h0
      simp [h0] at hleft
    have hless : n ≤ (e.remain - 1#17).toNat := by bv_omega
    have hnext : execNext s = .next (s.yielded e m codes) := execNext_of_messageWalk hf he hremain hc ht hr hs walk
    obtain ⟨t, records, hrun, henum, houtput, hlength, hfault⟩ :=
      ih (s.yielded e m codes) ⟨m, e.remain - 1#17⟩ c tb img c' hf rfl hc ht hr (walk.forward hs).1 hless rest
    refine ⟨t, ⟨e.cursor.address, e.cursor.shift, codes⟩ :: records, (nextTimes_succ hnext).trans hrun, ?_, ?_,
      congrArg (· + 1) hlength, hfault⟩
    · rw [henum]
      congr 2
      bv_omega
    · exact houtput.trans (List.append_assoc ..)

/-! ### The absent image (R78, R265) -/

theorem execNext_of_no_image {s : State} {e : EnumPos} (hf : s.fault = none) (he : s.enumPos = some e)
    (hremain : e.remain ≠ 0#17) {c : FullCfg} (hc : s.cfg.full = some c) {tb : Tables} (ht : s.tables = some tb)
    (hr : s.rom = none) : execNext s = .next (s.faultedWith .io 0#24) := by
  rw [execNext, State.guardFaulted_of_none hf, ok_bind, State.needEnum_ok.mpr he, ok_bind, if_neg hremain,
    State.needConfig_ok.mpr hc, ok_bind, State.needTables_ok.mpr ht, ok_bind, State.needImage_of_none hr]
  rfl

/-- Settles O40: each command fails its check of the image. -/
theorem absentImageIsAnIoError : Obligations.AbsentImageIsAnIoError := by
  rintro s i hf hr (⟨rfl, ht⟩ | ⟨c, hc, ⟨rfl, ht⟩ | ⟨id, rfl⟩ | ⟨a, m, rfl⟩ |
    ⟨first, last, rfl, henum, hfirst, hlt, hlast⟩ | ⟨rfl, ht, e, he, hleft⟩⟩)
  · exact execDetect_of_no_image hf ht hr
  · exact execSetup_of_no_image hf hc ht hr
  · exact State.decoderCommand_of_no_image hf hc rfl hr
  · exact State.decoderCommand_of_no_image hf hc rfl hr
  · exact State.decoderCommand_of_no_image hf hc
      (State.enumCheck_of_range henum (rangeOk_iff.mpr ⟨hfirst, hlt, hlast⟩)) hr
  · obtain ⟨tb, ht⟩ := Option.isSome_iff_exists.mp ht
    exact execNext_of_no_image hf he hleft hc ht hr

/-! ### Register accesses that succeed (R236, R238) -/

theorem State.accessRead_of_value {s : State} {r : Reg} {value : BitVec 24} (hp : r.present s.params = true)
    (hv : s.readReg r = some value) : s.accessRead r = .next (s.answered ⟨.ok, value, 0#8, 0#16⟩) := by
  rw [State.accessRead, if_pos hp, hv]
  rfl

theorem State.accessWrite_of_unlocked {s : State} {r : CfgReg} {value : BitVec 24} (hv : r.legal s.params value = true)
    (hf : s.fault = none) (ht : s.tables = none) : s.accessWrite r value =
      .next (({ s with cfg := s.cfg.set r value } : State).answered ⟨.ok, 0#24, 0#8, 0#16⟩) := by
  rw [State.accessWrite, if_pos hv, State.guardFaulted_of_none hf, State.needUnlocked_of_none ht]
  rfl

/-! ### The commands that read no ROM byte (R69) -/

/-- The block with another image, or none. -/
def State.withRom (s : State) (rom' : Option Image) : State := { s with rom := rom' }

theorem State.readReg_withRom (s : State) (rom' : Option Image) (r : Reg) :
    (s.withRom rom').readReg r = s.readReg r := by
  cases r <;> rfl

section
variable {s t : State} (rom' : Option Image)

theorem State.abort_withRom {a : Abort} (h : s.abort a = .next t) :
    (s.withRom rom').abort a = .next (t.withRom rom') := by
  obtain ⟨e, rfl, rfl⟩ | ⟨e, info, rfl, rfl⟩ := State.abort_next h <;> rfl

/-- What runs to the same state but for the image, and takes the same errors, ends alike. -/
theorem State.conclude_withRom {x x' : Except Abort State} (h : s.conclude x = .next t)
    (hx : x' = x.map (·.withRom rom')) : (s.withRom rom').conclude x' = .next (t.withRom rom') := by
  subst hx
  cases x with
  | ok u =>
    cases h
    rfl
  | error a => exact State.abort_withRom rom' h

theorem State.mapperCommand_withRom {f : Mapper → Except Abort CpuAddr} (h : s.mapperCommand f = .next t) :
    (s.withRom rom').mapperCommand f = .next (t.withRom rom') := by
  refine State.conclude_withRom rom' h ?_
  change (s.guardFaulted >>= fun _ => s.needMapper >>= fun m => f m >>= _) = _
  cases s.guardFaulted with
  | error a => rfl
  | ok _ =>
    cases s.needMapper with
    | error a => rfl
    | ok m =>
      change (f m >>= _) = Except.map _ (f m >>= _)
      cases f m <;> rfl

theorem State.accessWrite_withRom {r : CfgReg} {value : BitVec 24} (h : s.accessWrite r value = .next t) :
    (s.withRom rom').accessWrite r value = .next (t.withRom rom') := by
  obtain ⟨hl, hf, ht, rfl⟩ | ⟨hl, hf, rfl⟩ | ⟨hl, hf, ht, rfl⟩ | ⟨hl, rfl⟩ := State.accessWrite_next h
  · exact State.accessWrite_of_unlocked hl hf ht
  · exact State.accessWrite_of_faulted hf hl
  · exact State.accessWrite_of_locked ht hf hl
  · exact State.accessWrite_of_not_legal (ne_true_of_eq_false hl)

theorem State.accessRead_withRom {r : Reg} (h : s.accessRead r = .next t) :
    (s.withRom rom').accessRead r = .next (t.withRom rom') := by
  obtain ⟨hp, value, hv, rfl⟩ | ⟨hp, hv, rfl⟩ | ⟨hp, rfl⟩ := State.accessRead_next h
  · exact State.accessRead_of_value hp ((s.readReg_withRom rom' r).trans hv)
  · exact State.accessRead_of_no_value hp ((s.readReg_withRom rom' r).trans hv)
  · exact State.accessRead_of_not_present (ne_true_of_eq_false hp)

end

/-- Settles O17: the mapper commands and the register accesses ask the state nothing about the image. -/
theorem romFreeCommandsIgnoreTheImage : Obligations.RomFreeCommandsIgnoreTheImage := by
  rintro i s t rom' (⟨a, rfl⟩ | ⟨a, rfl⟩ | ⟨a, rfl⟩ | ⟨r, v, rfl⟩ | ⟨r, rfl⟩ | rfl) h
  · exact State.mapperCommand_withRom rom' ((execRom2cpu_eq a s).symm.trans h)
  · exact State.mapperCommand_withRom rom' ((execCpu2rom_eq a s).symm.trans h)
  · exact State.mapperCommand_withRom rom' ((execIncaddr_eq a s).symm.trans h)
  · exact State.accessWrite_withRom rom' h
  · exact State.accessRead_withRom rom' h
  · cases h
    rfl

end Sys2Proof.Machine
end

section
/-! PROOFS. The mapper as arithmetic (R65, R160), reads of the ROM (R63), `Setup()` (R180, R181), one bit of the stream
(R184, R186, R187), and what characters and messages read and where they end (R193, R194, R198). -/

namespace Sys2Proof.Machine

/-! ### The mappings as arithmetic (R151, R152, R155, R156) -/

theorem toNat_append_eq {m n : Nat} (hi : BitVec m) (lo : BitVec n) :
    (hi ++ lo).toNat = hi.toNat * 2 ^ n + lo.toNat := by
  rw [BitVec.toNat_append, Nat.shiftLeft_eq, Nat.mul_comm, Nat.two_pow_add_eq_or_of_lt lo.isLt]

section
variable {p : Params}

theorem toNat_fromRom_hirom (hbase : p.hiromBase = 0xC00000#24) (rom : RomAddr) :
    (fromRom p .hirom rom).toNat = 0xC00000 + rom.toNat := by
  have hfields : fromRom p .hirom rom = (3#2 ++ rom : BitVec 24) :=
    (hiromMapsIntoTheTopBanks { p with hiromMask := 0x3FFFFF#24 } hbase rfl).1 rom
  rw [hfields, toNat_append_eq]
  rfl

theorem toNat_fromCpu_hirom (hmask : p.hiromMask = 0x3FFFFF#24) (cpu : CpuAddr) :
    (fromCpu p .hirom cpu).toNat = cpu.toNat % 0x400000 := by
  have hfields : fromCpu p .hirom cpu = (0#2 ++ cpu.extractLsb' 0 22 : BitVec 24) :=
    (hiromMapsIntoTheTopBanks { p with hiromBase := 0xC00000#24 } rfl hmask).2 cpu
  rw [hfields, toNat_append_eq]
  simp

theorem toNat_fromRom_lorom (rom : RomAddr) :
    (fromRom p .lorom rom).toNat = rom.toNat / 0x8000 * 0x10000 + (0x8000 + rom.toNat % 0x8000) := by
  have hfields : fromRom p .lorom rom = ((0#1 ++ rom.extractLsb' 15 7) ++ (1#1 ++ rom.extractLsb' 0 15) : BitVec 24) :=
    (loromMapsIntoUpperHalves { p with loromBankMask := 0x7F#8 } rfl).1 rom
  have hrom := rom.isLt
  rw [hfields]
  simp only [toNat_append_eq, BitVec.extractLsb'_toNat, BitVec.toNat_ofNat, Nat.shiftRight_eq_div_pow]
  omega

theorem toNat_fromCpu_lorom (hmask : p.loromBankMask = 0x7F#8) (cpu : CpuAddr) :
    (fromCpu p .lorom cpu).toNat = cpu.toNat / 0x10000 % 0x80 * 0x8000 + cpu.toNat % 0x8000 := by
  rw [(loromMapsIntoUpperHalves p hmask).2 cpu]
  simp only [toNat_append_eq, BitVec.extractLsb'_toNat, BitVec.toNat_ofNat, Nat.shiftRight_eq_div_pow]
  omega

end

theorem getLsbD_15_iff (cpu : CpuAddr) : cpu.getLsbD 15 = true ↔ cpu.toNat / 0x8000 % 2 = 1 := by
  rw [BitVec.getLsbD, Nat.testBit_eq_decide_div_mod_eq, decide_eq_true_iff]

/-- Settles O20: the maps as arithmetic, in each variant. -/
theorem mapperRoundTrip : Obligations.MapperRoundTrip := by
  intro p hbase hmask hbank
  refine ⟨fun m rom => ?_, fun cpu => ?_, fun cpu => ?_⟩
  · have hrom := rom.isLt
    apply BitVec.eq_of_toNat_eq
    rw [BitVec.toNat_setWidth]
    cases m with
    | hirom =>
      rw [toNat_fromCpu_hirom hmask, toNat_fromRom_hirom hbase]
      omega
    | lorom =>
      rw [toNat_fromCpu_lorom hbank, toNat_fromRom_lorom]
      omega
  · have hcpu := cpu.isLt
    rw [← BitVec.toNat_inj, toNat_fromRom_hirom hbase, BitVec.toNat_setWidth, toNat_fromCpu_hirom hmask]
    omega
  · have hcpu := cpu.isLt
    rw [← BitVec.toNat_inj, toNat_fromRom_lorom, BitVec.toNat_setWidth, toNat_fromCpu_lorom hbank, getLsbD_15_iff]
    omega

/-- Settles O22: an increment inside a bank is one in both spaces; at the end of a LoROM bank the snap to the upper half
skips what is not mapped. -/
theorem incrementFollowsTheRom : Obligations.IncrementFollowsTheRom := by
  intro p m a b hmask hbank hmapped h
  obtain ⟨hne, -⟩ := incrementAddress_ok h
  have hlt := a.isLt
  cases m with
  | hirom =>
    obtain ⟨b', hb', hnat⟩ := incrementAddress_hirom hne
    obtain rfl : b' = b := Except.ok.inj (hb'.symm.trans h)
    rw [toNat_fromCpu_hirom hmask, toNat_fromCpu_hirom hmask, hnat]
    omega
  | lorom =>
    have hhalf := (getLsbD_15_iff a).mp (hmapped.resolve_left nofun)
    obtain ⟨b', hb', hnat⟩ := incrementAddress_lorom hne
    obtain rfl : b' = b := Except.ok.inj (hb'.symm.trans h)
    rw [toNat_fromCpu_lorom hbank, toNat_fromCpu_lorom hbank, hnat]
    split
    · omega
    · omega

/-! ### Reads of the ROM (R63) -/

/-- No cell of a canonical list is below its bound. -/
theorem le_of_mem_cells {low off : Nat} {b : Byte} {cells : List Host.Cell} (h : cellsWf low cells = true)
    (hmem : (off, b) ∈ cells) : low ≤ off := by
  induction cells generalizing low with
  | nil => cases hmem
  | cons cell rest ih =>
    obtain ⟨a, v⟩ := cell
    simp only [cellsWf, Bool.and_eq_true, decide_eq_true_eq] at h
    obtain ⟨⟨hlow, -⟩, hrest⟩ := h
    obtain hhead | hmem := List.mem_cons.mp hmem
    · cases hhead
      exact hlow
    · exact (Nat.le_succ_of_le hlow).trans (ih hrest hmem)

/-- In a canonical list every cell has its own offset, so a listed byte is the one read. -/
theorem cellsRead_of_mem {low off : Nat} {b : Byte} {cells : List Host.Cell} (h : cellsWf low cells = true)
    (hmem : (off, b) ∈ cells) : cellsRead cells off = b := by
  induction cells generalizing low with
  | nil => cases hmem
  | cons cell rest ih =>
    obtain ⟨a, v⟩ := cell
    simp only [cellsWf, Bool.and_eq_true] at h
    obtain ⟨-, hrest⟩ := h
    obtain hhead | hmem := List.mem_cons.mp hmem
    · cases hhead
      exact if_pos rfl
    · have hne : a ≠ off := Nat.ne_of_lt (le_of_mem_cells hrest hmem)
      exact (if_neg hne).trans (ih hrest hmem)

theorem cellsRead_of_not_mem {off : Nat} {cells : List Host.Cell} (h : ∀ b, (off, b) ∉ cells) :
    cellsRead cells off = unlistedByte := by
  induction cells with
  | nil => rfl
  | cons cell rest ih =>
    obtain ⟨a, v⟩ := cell
    have hne : a ≠ off := by
      rintro rfl
      exact h v List.mem_cons_self
    exact (if_neg hne).trans (ih fun b hb => h b (List.mem_cons_of_mem _ hb))

/-- Settles O25: the length and the bytes of a read, and what the list of cells says of them. -/
theorem romReadReturnsTheBytesThatExist : Obligations.RomReadReturnsTheBytesThatExist := by
  refine ⟨fun img off n => ⟨romRead_length img off n, fun k => romRead_getElem? img off n k, fun k hk => ?_⟩,
    fun img off hwf => ?_⟩
  · rw [List.getElem?_eq_none_iff, romRead_length]
    omega
  · simp only [Image.wf, Bool.and_eq_true, List.all_eq_true, decide_eq_true_eq] at hwf
    obtain ⟨⟨hcells, hsize⟩, -⟩ := hwf
    refine ⟨fun b hb => ?_, fun hlt hnone => ?_, fun hle => if_neg (Nat.not_lt.mpr hle)⟩
    · rw [Image.byteAt, if_pos (hsize _ hb), cellsRead_of_mem hcells hb]
    · rw [Image.byteAt, if_pos hlt, cellsRead_of_not_mem hnone]
      rfl

/-! ### `Setup()` (R180, R181) -/

theorem shiftbitArray_of_length_ne {bytes : List Byte} (h : bytes.length ≠ 8) : shiftbitArray bytes = none := by
  unfold shiftbitArray
  split
  · exact absurd rfl h
  · rfl

theorem shiftbitArray_of_length {bytes : List Byte} (h : bytes.length = 8) :
    ∃ v, shiftbitArray bytes = some v ∧ v.toList = bytes := by
  match bytes, h with
  | [_, _, _, _, _, _, _, _], _ => exact ⟨_, rfl, rfl⟩

section
variable {p : Params} {img : Image} {c : FullCfg}

theorem runSetup_of_no_array (h : shiftbitArray (tabRead p img c.mapper c.addrShiftbit 8) = none) :
    runSetup p img c = .error (.session .assertion 2#24) := by
  simp only [runSetup, h]

/-- Past the shift-bit array, `Setup()` asserts the two lengths and the range of ids. -/
theorem runSetup_of_array {v : Vector Byte 8} (h : shiftbitArray (tabRead p img c.mapper c.addrShiftbit 8) = some v) :
    runSetup p img c =
      if (tabRead p img c.mapper c.addrOff (c.root.toNat + 2)).length ≠ c.root.toNat + 2 then
        .error (.session .assertion 3#24)
      else if (tabRead p img c.mapper c.addrOn (c.root.toNat + 2)).length ≠ c.root.toNat + 2 then
        .error (.session .assertion 4#24)
      else if ¬ c.idFirst.toNat < c.idLast.toNat then .error (.session .assertion 1#24)
      else .ok ⟨v, tabRead p img c.mapper c.addrOff (c.root.toNat + 2),
        tabRead p img c.mapper c.addrOn (c.root.toNat + 2)⟩ := by
  simp only [runSetup, h]

end

/-- Settles O28: the assertions one after the other. -/
theorem setupAssertsInOrder : Obligations.SetupAssertsInOrder := by
  intro p img c place size sb off on
  have hplace (a : CpuAddr) (n : Nat) : tabRead p img c.mapper a n = romRead img (place a) n := by
    rw [tabRead, tabOffset_eq]
  have hsetup (h8 : sb.length = 8) : ∃ v : Vector Byte 8, v.toList = sb ∧ runSetup p img c =
      if off.length ≠ size then .error (.session .assertion 3#24)
      else if on.length ≠ size then .error (.session .assertion 4#24)
      else if ¬ c.idFirst.toNat < c.idLast.toNat then .error (.session .assertion 1#24)
      else .ok ⟨v, off, on⟩ := by
    obtain ⟨v, hv, hbytes⟩ := shiftbitArray_of_length h8
    have harray := runSetup_of_array ((congrArg shiftbitArray (hplace c.addrShiftbit 8)).trans hv)
    rw [hplace, hplace] at harray
    exact ⟨v, hbytes, harray⟩
  refine ⟨fun h8 => ?_, fun h8 hoff => ?_, fun h8 hoff hon => ?_, fun h8 hoff hon hids => ?_,
    fun h8 hoff hon hids => ?_⟩
  · exact runSetup_of_no_array ((congrArg shiftbitArray (hplace _ 8)).trans (shiftbitArray_of_length_ne h8))
  · obtain ⟨v, -, h⟩ := hsetup h8
    rw [h, if_pos hoff]
  · obtain ⟨v, -, h⟩ := hsetup h8
    rw [h, if_neg (not_not.mpr hoff), if_pos hon]
  · obtain ⟨v, -, h⟩ := hsetup h8
    rw [h, if_neg (not_not.mpr hoff), if_neg (not_not.mpr hon), if_pos (Nat.not_lt.mpr hids)]
  · obtain ⟨v, hbytes, h⟩ := hsetup h8
    rw [h, if_neg (not_not.mpr hoff), if_neg (not_not.mpr hon), if_neg (not_not.mpr hids)]
    exact ⟨_, rfl, hbytes, rfl, rfl⟩

/-! ### One bit of the stream (R184) -/

/-- A mask of one byte sees only the low byte of a word. -/
theorem and_lowByte {b m : Nat} (hb : b < 256) (hm : m < 256) (rest : Nat) : (b + 256 * rest) &&& m = b &&& m := by
  have hlt : (b + 256 * rest) &&& m < 2 ^ 8 := Nat.and_lt_two_pow _ hm
  have hlow : (b + 256 * rest) % 2 ^ 8 = b := by omega
  calc (b + 256 * rest) &&& m
    _ = ((b + 256 * rest) &&& m) % 2 ^ 8 := (Nat.mod_eq_of_lt hlt).symm
    _ = (b + 256 * rest) % 2 ^ 8 &&& m % 2 ^ 8 := Nat.and_mod_two_pow
    _ = b &&& m := by rw [hlow, Nat.mod_eq_of_lt hm]

section
variable {d : Decoder} {c : Cursor}

theorem readBit_of_past (h : d.image.size ≤ (fromCpu d.params d.cfg.mapper c.address).toNat) :
    readBit d c = .error (.session .romBounds (fromCpu d.params d.cfg.mapper c.address)) := by
  have hlen : (memRead d c.address d.cfg.readSize.toNat).length = 0 := congrArg List.length (romRead_past _ _ _ h)
  exact if_pos hlen

/-- Whatever follows the byte, the mask selects a bit of it. -/
theorem readBit_of_lt {k : Nat} (hsize : d.cfg.readSize.toNat = k + 1)
    (h : (fromCpu d.params d.cfg.mapper c.address).toNat < d.image.size) :
    readBit d c =
      .ok (cellsRead d.image.cells (fromCpu d.params d.cfg.mapper c.address).toNat &&& c.shift != 0#8) := by
  have hbytes := romRead_succ d.image _ k h
  rw [readBit, memRead, hsize, hbytes]
  refine (if_neg (Nat.succ_ne_zero _)).trans (congrArg Except.ok ?_)
  rw [getInt_succ, List.getElem?_cons_zero, Option.getD_some, and_lowByte (BitVec.isLt _) (BitVec.isLt _),
    ← BitVec.toNat_and, Bool.eq_iff_iff, bne_iff_ne, bne_iff_ne, not_iff_not]
  exact (BitVec.toNat_inj (y := 0#8))

end

/-- Settles O30: a read of one byte or of two begins with the same byte. -/
theorem readBitReadsOneBit : Obligations.ReadBitReadsOneBit := by
  intro d c _ hsize
  refine ⟨readBit_of_past, fun h => ?_⟩
  obtain hsize | hsize := hsize
  · exact readBit_of_lt (k := 0) (by rw [hsize]; rfl) h
  · exact readBit_of_lt (k := 1) (by rw [hsize]; rfl) h

/-! ### The cursor (R186, R187) -/

section
variable {d : Decoder} {c : Cursor}

/-- At the end of a byte the next cursor is the next address with the first mask. -/
theorem map_incrementAddress (m : Mapper) (a : CpuAddr) (mask : Byte) :
    (do let b ← incrementAddress m a; return ⟨b, mask⟩ : Except Abort Cursor) =
      (incrementAddress m a).map fun b => ⟨b, mask⟩ := by
  cases incrementAddress m a <;> rfl

theorem advance_varW (hv : d.cfg.variant = .varW) : advance d c =
    if c.shift >>> 1 = 0#8 then (incrementAddress d.cfg.mapper c.address).map fun a => ⟨a, 0x80#8⟩
    else .ok ⟨c.address, c.shift >>> 1⟩ := by
  simp only [advance, hv, map_incrementAddress]

theorem advance_varV (hv : d.cfg.variant = .varV) : advance d c =
    if 0x80 < c.shift.toNat * 2 then (incrementAddress d.cfg.mapper c.address).map fun a => ⟨a, 0x01#8⟩
    else .ok ⟨c.address, BitVec.ofNat 8 (c.shift.toNat * 2)⟩ := by
  simp only [advance, hv, map_incrementAddress, gt_iff_lt]

end

/-- Doubling a mask is a shift by one. -/
theorem ofNat_double (m : Byte) : BitVec.ofNat 8 (m.toNat * 2) = m <<< 1 := by
  apply BitVec.eq_of_toNat_eq
  rw [BitVec.toNat_shiftLeft, BitVec.toNat_ofNat, Nat.shiftLeft_eq, Nat.pow_one]

/-- Settles O31: the two variants, and the cursor of either moves forward. -/
theorem advanceMovesOneBit : Obligations.AdvanceMovesOneBit := by
  refine ⟨fun d c hv => ⟨fun hend => ?_, fun hin => ?_⟩, fun d c hv => ⟨fun hend => ?_, fun hin => ?_⟩,
    fun d c c' => advance_forward⟩
  · rw [advance_varW hv, if_pos hend]
  · rw [advance_varW hv, if_neg hin]
  · rw [advance_varV hv, if_pos (Nat.mul_comm _ _ ▸ hend)]
  · rw [advance_varV hv, if_neg (Nat.not_lt.mpr (Nat.mul_comm _ _ ▸ hin)), ofNat_double]

/-! ### Where characters and messages end (R194, R198) -/

/-- A message of the loop ends with its first delimiter. -/
theorem MessageWalk.codes_eq {d : Decoder} {c : Cursor} {r : Cursor × List Code} (h : MessageWalk d c r) :
    ∃ init last, r.2 = init ++ [last] ∧ last ∈ d.cfg.delims ∧ ∀ x ∈ init, x ∉ d.cfg.delims := by
  induction h with
  | @last c c' code char stop => exact ⟨[], code, rfl, stop, nofun⟩
  | @more c c' c'' code codes char go rest ih =>
    obtain ⟨init, last, rfl, hlast, hinit⟩ := ih
    exact ⟨code :: init, last, rfl, hlast, List.forall_mem_cons.mpr ⟨go, hinit⟩⟩

/-- Settles O36: what `DecodeMessage` answers is a message of the loop. -/
theorem delimitersEndMessages : Obligations.DelimitersEndMessages :=
  fun _ _ _ _ h => (messageWalk_of_collectCodes h).codes_eq

/-- Settles O37: want of fuel excluded, what is left are the two errors of the loop, or a result ahead of the cursor. -/
theorem everyWalkEnds : Obligations.EveryWalkEnds := by
  intro d c hs
  constructor
  · cases hr : decodeChar d c with
    | error a =>
      obtain rfl | herror := walkTree_error hr
      · exact absurd hr (decodeChar_ne_endless d hs)
      · obtain ⟨info, rfl | rfl⟩ := herror
        · exact .inr ⟨info, .inl rfl⟩
        · exact .inr ⟨info, .inr rfl⟩
    | ok r =>
      obtain ⟨hsingle, hlt⟩ := (charWalk_of_walkTree hr).forward hs
      exact .inl ⟨r.1, r.2, rfl, hsingle, hlt⟩
  · cases hr : decodeMessage d c with
    | error a =>
      obtain rfl | herror := decodeMessage_error hr
      · exact absurd hr (decodeMessage_ne_endless d hs)
      · obtain ⟨info, rfl | rfl⟩ := herror
        · exact .inr ⟨info, .inl rfl⟩
        · exact .inr ⟨info, .inr rfl⟩
    | ok r =>
      obtain ⟨hsingle, hlt⟩ := (messageWalk_of_collectCodes hr).forward hs
      exact .inl ⟨r.1, r.2, rfl, hsingle, hlt⟩

/-! ### What a character reads (R193) -/

/-- The two decoders agree on what R193 (e) says a character reads. -/
structure Decoder.Agree (d e : Decoder) : Prop where
  params : d.params = e.params
  image : d.image = e.image
  off : d.tables.off = e.tables.off
  on : d.tables.on = e.tables.on
  root : d.cfg.root = e.cfg.root
  readSize : d.cfg.readSize = e.cfg.readSize
  decodeMask : d.cfg.decodeMask = e.cfg.decodeMask
  variant : d.cfg.variant = e.cfg.variant
  mapper : d.cfg.mapper = e.cfg.mapper

section
variable {d e : Decoder} (h : d.Agree e)
include h

theorem Decoder.Agree.readBit_eq (c : Cursor) : readBit d c = readBit e c := by
  rw [readBit, readBit, memRead, memRead, h.params, h.image, h.readSize, h.mapper]

theorem Decoder.Agree.advance_eq (c : Cursor) : advance d c = advance e c := by
  simp only [advance, h.variant, h.mapper]

theorem Decoder.Agree.lookup_eq (bit : Bool) (node : TreeWord) : lookup d bit node = lookup e bit node := by
  simp only [lookup, h.on, h.off]

theorem Decoder.Agree.walkTree_eq (f : Nat) (node : TreeWord) (c : Cursor) :
    walkTree d f node c = walkTree e f node c := by
  induction f generalizing node c with
  | zero => rfl
  | succ f ih =>
    simp only [walkTree_succ, h.readBit_eq, h.advance_eq, h.lookup_eq, h.variant, h.decodeMask, ih]

end

/-- Settles O38: each bit is read, advanced past and looked up alike. -/
theorem decodeCharReadsFiveRegisters : Obligations.DecodeCharReadsFiveRegisters := by
  intro d e c params image off on root readSize decodeMask variant mapper
  have h : d.Agree e := ⟨params, image, off, on, root, readSize, decodeMask, variant, mapper⟩
  rw [decodeChar, decodeChar, root, h.walkTree_eq]

end Sys2Proof.Machine
end

section
/-! PROOFS. The configuration and the registers (R21 to R25, R28, R29, R102, R104, R236, R238, R258), and the register
rows and the data rows of the opcode table (log 8, log 9). -/

namespace Sys2Proof

/-! ### The register map (R21, R102, R104) -/

/-- Only `DELIM[i]` may be missing. -/
theorem CfgReg.present_iff {p : Params} {r : CfgReg} : r.present p = true ↔ ∀ i, r = .delim i → i.val < p.delimMax := by
  cases r with
  | delim i =>
    refine ⟨fun h j hj => ?_, fun h => decide_eq_true (h i rfl)⟩
    cases hj
    exact of_decide_eq_true h
  | _ => exact iff_of_true rfl nofun

theorem Reg.present_iff {p : Params} {r : Reg} :
    r.present p = true ↔ ∀ i, r = .cfg (.delim i) → i.val < p.delimMax := by
  cases r with
  | cfg r => simpa [Reg.present] using CfgReg.present_iff
  | _ => exact iff_of_true rfl nofun

theorem CfgReg.ofNumber_eq_some_iff {p : Params} {n : BitVec 8} {r : CfgReg} :
    CfgReg.ofNumber p n = some r ↔ r.number = n ∧ ∀ i, r = .delim i → i.val < p.delimMax := by
  rw [← CfgReg.present_iff]
  refine ⟨CfgReg.number_of_ofNumber, ?_⟩
  rintro ⟨rfl, hp⟩
  exact CfgReg.ofNumber_number p r hp

theorem Reg.ofNumber_eq_some_iff {p : Params} {n : BitVec 8} {r : Reg} :
    Reg.ofNumber p n = some r ↔ r.number = n ∧ ∀ i, r = .cfg (.delim i) → i.val < p.delimMax := by
  rw [← Reg.present_iff]
  refine ⟨Reg.number_of_ofNumber, ?_⟩
  rintro ⟨rfl, hp⟩
  exact Reg.ofNumber_number p r hp

theorem CfgReg.toNat_number_delim (i : Fin 16) : (CfgReg.number (.delim i)).toNat = 0x10 + i.val := by
  rw [CfgReg.number, BitVec.toNat_ofNat]
  omega

section
variable {p : Params} {r : CfgReg} {v : BitVec 24}

/-- A register without a restriction of its own takes every value of its width. -/
theorem CfgReg.legal_iff_lt (hp : r.present p = true) (hr : ∀ k, r.inRange p k = true) :
    r.legal p v = true ↔ v.toNat < 2 ^ r.width := by
  simp only [CfgReg.legal_iff, hp, hr, and_true, true_and]

theorem CfgReg.legal_bit_iff (hr : r = .mapper ∨ r = .variant) : r.legal p v = true ↔ v = 0#24 ∨ v = 1#24 := by
  have hbit : v.toNat < 2 ^ 1 ↔ v = 0#24 ∨ v = 1#24 := by
    simp only [← BitVec.toNat_inj, BitVec.toNat_ofNat]
    omega
  obtain rfl | rfl := hr
  · exact (CfgReg.legal_iff_lt rfl fun _ => rfl).trans hbit
  · exact (CfgReg.legal_iff_lt rfl fun _ => rfl).trans hbit

theorem CfgReg.legal_address
    (hr : r = .addrGroup ∨ r = .addrShiftbit ∨ r = .addrMessage ∨ r = .addrOff ∨ r = .addrOn) : r.legal p v = true := by
  obtain rfl | rfl | rfl | rfl | rfl := hr
  all_goals exact (CfgReg.legal_iff_lt rfl fun _ => rfl).mpr v.isLt

theorem CfgReg.legal_half_iff (hr : r = .root ∨ r = .decodeMask ∨ r = .idFirst ∨ r = .idLast) :
    r.legal p v = true ↔ v.toNat ≤ 0xFFFF := by
  obtain rfl | rfl | rfl | rfl := hr
  all_goals exact (CfgReg.legal_iff_lt rfl fun _ => rfl).trans Nat.lt_succ_iff

theorem CfgReg.legal_readSize_iff : CfgReg.legal p .readSize v = true ↔ v = 1#24 ∨ v = 2#24 := by
  simp only [CfgReg.legal_iff, CfgReg.present, CfgReg.width, CfgReg.inRange, decide_eq_true_eq, eq_self, true_and,
    ← BitVec.toNat_inj, BitVec.toNat_ofNat]
  omega

theorem CfgReg.legal_delimCount_iff :
    CfgReg.legal p .delimCount v = true ↔ 1 ≤ v.toNat ∧ v.toNat ≤ p.delimMax ∧ v.toNat ≤ 0x1F := by
  simp only [CfgReg.legal_iff, CfgReg.present, CfgReg.width, CfgReg.inRange, decide_eq_true_eq, eq_self, true_and]
  omega

theorem CfgReg.legal_delim_iff (i : Fin 16) :
    CfgReg.legal p (.delim i) v = true ↔ i.val < p.delimMax ∧ v.toNat ≤ 0xFFFF := by
  simp only [CfgReg.legal_iff, CfgReg.present, CfgReg.width, CfgReg.inRange, decide_eq_true_eq, eq_self, and_true]
  omega

end

/-- Settles O60: the map register by register. -/
theorem registerMapOfTheTable : Obligations.RegisterMapOfTheTable :=
  ⟨⟨rfl, rfl, rfl, rfl, rfl, rfl, rfl, rfl, rfl, rfl, rfl, rfl, rfl, CfgReg.toNat_number_delim⟩,
    ⟨rfl, rfl, rfl, rfl, rfl, rfl, fun _ => rfl⟩,
    fun _ _ => ⟨fun _ => CfgReg.ofNumber_eq_some_iff, fun _ => Reg.ofNumber_eq_some_iff⟩,
    fun _ _ => Reg.present_iff,
    fun _ _ => ⟨fun _ => CfgReg.legal_bit_iff, fun _ => CfgReg.legal_address, fun _ => CfgReg.legal_half_iff,
      CfgReg.legal_readSize_iff, CfgReg.legal_delimCount_iff, CfgReg.legal_delim_iff⟩⟩

end Sys2Proof

namespace Sys2Proof.Machine

/-! ### A configuration register written (R22, R236) -/

theorem Cfg.get_delim (c : Cfg) (i : Fin 16) : c.get (.delim i) = (c.delimAt i.val).map (·.setWidth 24) := by
  simp [Cfg.get, Cfg.delimAt]

theorem Cfg.get_set_self {p : Params} {r : CfgReg} {value : BitVec 24} (h : r.legal p value = true) (c : Cfg) :
    (c.set r value).get r = some value := by
  have hfits := setWidth_setWidth_of_lt (CfgReg.lt_of_legal h)
  cases r with
  | addrGroup | addrShiftbit | addrMessage | addrOff | addrOn => rfl
  | delim i =>
    have hplace : (c.set (.delim i) value).delims[i] = some (value.setWidth 16) := by
      rw [Cfg.delims_set, if_pos rfl]
    exact (congrArg (·.map (·.setWidth 24)) hplace).trans (congrArg some hfits)
  | _ => exact congrArg some hfits

theorem Cfg.get_set_of_ne {r r' : CfgReg} (h : r' ≠ r) (c : Cfg) (value : BitVec 24) :
    (c.set r value).get r' = c.get r' := by
  cases r' with
  | delim j =>
    have hplace : (c.set r value).delims[j] = c.delims[j] := (Cfg.delims_set c r value j).trans (if_neg h.symm)
    exact congrArg (·.map (·.setWidth 24)) hplace
  | _ =>
    -- every other register is a field of its own, so only the register itself is left
    cases r <;> try rfl
    exact absurd rfl h

/-- Settles O48: the checks in their order, and then one register of the configuration. -/
theorem wrcfgWritesOneRegister : Obligations.WrcfgWritesOneRegister := by
  intro s r value
  refine ⟨fun hl => ?_, fun hl hf => ?_, fun hl hf ht => ?_, fun hl hf ht =>
    ⟨s.cfg.set r value, ?_, ?_, fun r' hr => ?_⟩⟩
  · exact State.accessWrite_of_not_legal (ne_true_of_eq_false hl)
  · exact State.accessWrite_of_faulted hf hl
  · exact State.accessWrite_of_locked ht hf hl
  · exact State.accessWrite_of_unlocked hl hf ht
  · exact Cfg.get_set_self hl s.cfg
  · exact Cfg.get_set_of_ne hr s.cfg value

/-! ### The complete configuration (R22, R28) -/

theorem Cfg.delimList_isSome_iff {c : Cfg} {n : Nat} :
    (c.delimList n).isSome = true ↔ ∀ i, i < n → (c.delimAt i).isSome = true := by
  induction n with
  | zero => exact iff_of_true rfl nofun
  | succ n ih =>
    rw [Cfg.delimList, Nat.forall_lt_succ_right, ← ih]
    cases c.delimList n <;> cases c.delimAt n <;> simp

theorem exists_of_isSome_map {n : Nat} {o : Option (BitVec n)} (h : (o.map (·.setWidth 24)).isSome = true) :
    ∃ v, o = some v :=
  Option.isSome_iff_exists.mp (Option.isSome_map ▸ h)

/-- Registers 0x00 to 0x0B and 0x0F: all but `DELIM`. -/
theorem Cfg.isSome_get_of_full {c : Cfg} {f : FullCfg} (h : c.full = some f) {r : CfgReg} (hr : ∀ i, r ≠ .delim i) :
    (c.get r).isSome = true := by
  obtain ⟨mapper, variant, n, hc, -⟩ := Cfg.full_some h
  rw [hc]
  cases r with
  | delim i => exact absurd rfl (hr i)
  | _ => rfl

/-- The delimiters a complete configuration holds are its first `DELIM_COUNT`. -/
theorem Cfg.delimList_of_full {c : Cfg} {f : FullCfg} {n : BitVec 5} (h : c.full = some f)
    (hn : c.delimCount = some n) : c.delimList n.toNat = some f.delims := by
  obtain ⟨mapper, variant, n', hc, -, -, hdelims⟩ := Cfg.full_some h
  have hn' : c.delimCount = some n' := congrArg Cfg.delimCount hc
  obtain rfl : n' = n := Option.some.inj (hn'.symm.trans hn)
  exact hdelims

/-- The registers and the delimiters, all written, are all `ConfigComplete` asks for. -/
theorem Cfg.full_isSome_of_written {c : Cfg} (hregs : ∀ r : CfgReg, (∀ i, r ≠ .delim i) → (c.get r).isSome = true)
    (hdelims : ∀ n, c.delimCount = some n → ∀ i, i < n.toNat → (c.delimAt i).isSome = true) : c.full.isSome = true := by
  obtain ⟨mapper, h1⟩ := exists_of_isSome_map (hregs .mapper nofun)
  obtain ⟨variant, h2⟩ := exists_of_isSome_map (hregs .variant nofun)
  obtain ⟨addrGroup, h3⟩ : ∃ v, c.addrGroup = some v := Option.isSome_iff_exists.mp (hregs .addrGroup nofun)
  obtain ⟨addrShiftbit, h4⟩ : ∃ v, c.addrShiftbit = some v := Option.isSome_iff_exists.mp (hregs .addrShiftbit nofun)
  obtain ⟨addrMessage, h5⟩ : ∃ v, c.addrMessage = some v := Option.isSome_iff_exists.mp (hregs .addrMessage nofun)
  obtain ⟨addrOff, h6⟩ : ∃ v, c.addrOff = some v := Option.isSome_iff_exists.mp (hregs .addrOff nofun)
  obtain ⟨addrOn, h7⟩ : ∃ v, c.addrOn = some v := Option.isSome_iff_exists.mp (hregs .addrOn nofun)
  obtain ⟨root, h8⟩ := exists_of_isSome_map (hregs .root nofun)
  obtain ⟨readSize, h9⟩ := exists_of_isSome_map (hregs .readSize nofun)
  obtain ⟨decodeMask, h10⟩ := exists_of_isSome_map (hregs .decodeMask nofun)
  obtain ⟨idFirst, h11⟩ := exists_of_isSome_map (hregs .idFirst nofun)
  obtain ⟨idLast, h12⟩ := exists_of_isSome_map (hregs .idLast nofun)
  obtain ⟨delimCount, h13⟩ := exists_of_isSome_map (hregs .delimCount nofun)
  obtain ⟨delims, h14⟩ := Option.isSome_iff_exists.mp (Cfg.delimList_isSome_iff.mpr (hdelims delimCount h13))
  rw [Cfg.full, h1, h2, h3, h4, h5, h6, h7, h8, h9, h10, h11, h12, h13]
  simp [h14]

theorem Cfg.full_isSome_iff (c : Cfg) :
    c.full.isSome = true ↔ (∀ r : CfgReg, (∀ i, r ≠ .delim i) → (c.get r).isSome = true) ∧
      ∀ n, c.delimCount = some n → ∀ i, i < n.toNat → (c.delimAt i).isSome = true := by
  refine ⟨fun h => ?_, fun ⟨hregs, hdelims⟩ => Cfg.full_isSome_of_written hregs hdelims⟩
  obtain ⟨f, hf⟩ := Option.isSome_iff_exists.mp h
  refine ⟨fun r => Cfg.isSome_get_of_full hf, fun n hn => Cfg.delimList_isSome_iff.mp ?_⟩
  exact Option.isSome_of_eq_some (Cfg.delimList_of_full hf hn)

theorem setWidth_eq_mapper (b : BitVec 1) : b.setWidth 24 = if Mapper.ofBit b = .hirom then 1#24 else 0#24 := by
  revert b
  decide

theorem setWidth_eq_variant (b : BitVec 1) : b.setWidth 24 = if Variant.ofBit b = .varV then 1#24 else 0#24 := by
  revert b
  decide

/-- Settles O53: `ConfigComplete` register by register, and the values of a complete configuration. -/
theorem configCompleteMeansWritten : Obligations.ConfigCompleteMeansWritten := by
  refine ⟨Cfg.full_isSome_iff, fun c => ⟨rfl, rfl, rfl, rfl, rfl, rfl, rfl, rfl, rfl, rfl, rfl, rfl, rfl, c.get_delim⟩,
    fun c f hf => ?_⟩
  obtain ⟨mapper, variant, n, hc, hmapper, hvariant, -⟩ := Cfg.full_some hf
  rw [hc, hmapper, hvariant, ← setWidth_eq_mapper, ← setWidth_eq_variant]
  exact ⟨rfl, rfl, rfl, rfl, rfl, rfl, rfl, rfl, rfl, rfl, rfl, rfl⟩

/-- Only the sixteen places of the register map are places of `DELIM`. -/
theorem Cfg.lt_of_delimAt {c : Cfg} {i : Nat} {code : Code} (h : c.delimAt i = some code) : i < 16 := by
  unfold Cfg.delimAt at h
  split at h
  · assumption
  · cases h

/-- A register reads a code where its place holds the code. -/
theorem Cfg.get_delim_eq_some_iff {c : Cfg} {i : Fin 16} {code : Code} :
    c.get (.delim i) = some (code.setWidth 24) ↔ c.delimAt i.val = some code := by
  have hinj : Function.Injective fun code : Code => code.setWidth 24 := by
    intro a b hab
    have hnat := congrArg BitVec.toNat hab
    simp only [BitVec.toNat_setWidth] at hnat
    have := a.isLt
    have := b.isLt
    exact BitVec.eq_of_toNat_eq (by omega)
  rw [Cfg.get_delim]
  exact (Option.map_injective hinj).eq_iff (b := some code)

/-- Settles O54: the delimiters are a list with one place for each `i`. -/
theorem delimiterSet : Obligations.DelimiterSet := by
  intro c f n hf hn
  obtain ⟨hlength, hplace⟩ := Cfg.delimList_some (Cfg.delimList_of_full hf hn)
  have hmem (code : Code) : code ∈ f.delims ↔ ∃ i, i < n.toNat ∧ c.delimAt i = some code := by
    rw [List.mem_iff_getElem?]
    constructor
    · rintro ⟨i, hi⟩
      obtain ⟨hlt, -⟩ := List.getElem?_eq_some_iff.mp hi
      have hn : i < n.toNat := hlength ▸ hlt
      exact ⟨i, hn, hplace i hn ▸ hi⟩
    · rintro ⟨i, hi, hcode⟩
      exact ⟨i, (hplace i hi).trans hcode⟩
  refine ⟨hlength, hplace, hmem, fun code => (hmem code).trans ?_⟩
  constructor
  · rintro ⟨i, hi, hcode⟩
    exact ⟨⟨i, Cfg.lt_of_delimAt hcode⟩, hi, Cfg.get_delim_eq_some_iff.mpr hcode⟩
  · rintro ⟨i, hi, hcode⟩
    exact ⟨i, hi, Cfg.get_delim_eq_some_iff.mp hcode⟩

/-! ### What the registers read (R23, R25, R29, R238, R258) -/

/-- Settles O49: the three answers of a read. -/
theorem rdregAnswersTheValue : Obligations.RdregAnswersTheValue := by
  refine ⟨fun s r => rfl, fun s r => ⟨fun value hp hv => ?_, fun hp hv => ?_, fun hp => ?_, rfl, rfl⟩⟩
  · exact State.accessRead_of_value hp hv
  · exact State.accessRead_of_no_value hp hv
  · exact State.accessRead_of_not_present (ne_true_of_eq_false hp)

/-- Settles O51: each is read from the field that holds it. -/
theorem readOnlyRegisterValues : Obligations.ReadOnlyRegisterValues := by
  intro s
  refine ⟨fun h => ?_, fun h => ?_, fun h => ?_, fun h => ?_, fun e h => ?_, fun h => ?_, fun f h => ?_⟩
  · simp [State.readReg, h, Mapper.ofBit, bankOffsetSize]
  · simp [State.readReg, h, Mapper.ofBit, bankOffsetSize]
  · simp [State.readReg, h]
  · simp [State.readReg, h]
  · simp [State.readReg, h]
  · simp [State.readReg, State.faultInfo, h]
  · simp [State.readReg, State.faultInfo, h]

/-- `FAULT_CODE` is bits 11:8 of `STATUS` (R25). -/
theorem State.extract_status_faultCode (s : State) : s.status.extractLsb' 8 4 = s.faultCode := by
  rw [State.status, extract_inner _ _ (by omega)]
  exact extract_high _ _

/-- The six numbers of R251 that `FAULT_CODE` takes. -/
theorem State.faultCode_of_some {s : State} {f : FaultRecord} (h : s.fault = some f) :
    s.faultCode = f.code.code.bits := by
  rw [State.faultCode, h]

theorem getLsbD_zero_ofBool (b : Bool) : (BitVec.ofBool b).getLsbD 0 = b := by
  cases b <;> rfl

/-- A flag is one bit, between what is above it and what is below. -/
theorem getLsbD_flag {m n : Nat} (hi : BitVec m) (b : Bool) (lo : BitVec n) :
    (hi ++ (BitVec.ofBool b ++ lo)).getLsbD n = b := by
  have hinside : n < 1 + n := by omega
  rw [BitVec.getLsbD_append, if_pos hinside, BitVec.getLsbD_append, if_neg (Nat.lt_irrefl n), Nat.sub_self,
    getLsbD_zero_ofBool]

theorem getLsbD_below {m n i : Nat} (hi : BitVec m) (lo : BitVec n) (h : i < n) :
    (hi ++ lo).getLsbD i = lo.getLsbD i := by
  rw [BitVec.getLsbD_append, if_pos h]

/-- Settles O50, field by field. -/
theorem statusLayout : Obligations.StatusLayout := by
  intro s
  refine ⟨?_, ?_, ?_, ?_, ?_, ?_, fun h => ?_, fun f h => ?_, extract_high _ _, rfl⟩
  · rw [State.status]
    iterate 7 rw [getLsbD_below _ _ (by omega)]
    exact getLsbD_zero_ofBool _
  · rw [State.status]
    iterate 5 rw [getLsbD_below _ _ (by omega)]
    exact getLsbD_flag _ _ _
  · rw [State.status]
    iterate 4 rw [getLsbD_below _ _ (by omega)]
    exact getLsbD_flag _ false _
  · rw [State.status]
    iterate 3 rw [getLsbD_below _ _ (by omega)]
    exact getLsbD_flag _ _ _
  · rw [State.status]
    iterate 2 rw [getLsbD_below _ _ (by omega)]
    exact getLsbD_flag _ _ _
  · rw [State.status, extract_inner _ _ (by omega), extract_inner _ _ (by omega)]
    exact extract_high _ _
  · rw [State.extract_status_faultCode, State.faultCode, h]
  · rw [State.extract_status_faultCode, State.faultCode_of_some h]
    cases f.code <;> rfl

/-! ### The register rows (log 8) -/

theorem exec_readOf (r : Reg) (s : State) : exec (readOf r) s = s.accessRead r := by
  cases r with
  | cfg r => cases r <;> rfl
  | _ => rfl

theorem exec_writeOf {r : CfgReg} {value : BitVec 24} (h : value.toNat < 2 ^ r.width) (s : State) :
    exec (writeOf r value) s = s.accessWrite r value := by
  have hfits : s.accessWrite r ((value.setWidth r.width).setWidth 24) = s.accessWrite r value :=
    congrArg _ (setWidth_setWidth_of_lt h)
  cases r with
  | addrGroup | addrShiftbit | addrMessage | addrOff | addrOn =>
    exact congrArg (s.accessWrite _) (BitVec.setWidth_eq value)
  | _ => exact hfits

/-- Settles O57: a row is one access of its register. -/
theorem registerRowsAreAccesses : Obligations.RegisterRowsAreAccesses := by
  refine ⟨fun s r => ?_, fun s r value hl => ?_⟩
  · rw [exec_readOf]
    exact ⟨rfl, fun hp => ⟨fun _ => State.accessRead_of_value hp, State.accessRead_of_no_value hp⟩⟩
  · rw [exec_writeOf (CfgReg.lt_of_legal hl)]
    exact ⟨rfl, State.accessWrite_of_unlocked hl⟩

/-! ### The data rows (log 9) -/

/-- Every data row but the response begins with check (2) of R253. -/
theorem State.conclude_of_faulted {s : State} {f : Unit → Except Abort State} (hf : s.fault.isSome = true) :
    s.conclude (s.guardFaulted >>= f) = .next (s.answered ⟨.faulted, 0#24, 0#8, 0#16⟩) := by
  rw [State.guardFaulted_of_isSome hf]
  rfl

theorem State.conclude_of_unfaulted {s : State} {f : Unit → Except Abort State} (hf : s.fault = none) :
    s.conclude (s.guardFaulted >>= f) = s.conclude (f ()) := by
  rw [State.guardFaulted_of_none hf, ok_bind]

section
variable {s : State} (hf : s.fault = none)
include hf

theorem State.reachLeaf_of_mask {mask : BitVec 16} (hm : s.cfg.decodeMask = some mask) (entry : TreeWord) :
    s.reachLeaf entry = .next { s with temps :=
      { s.temps with node := none, codes := s.temps.codes ++ [entry &&& mask] } } := by
  rw [State.reachLeaf, State.conclude_of_unfaulted hf, hm]
  rfl

theorem State.reachLeaf_of_no_mask (hm : s.cfg.decodeMask = none) (entry : TreeWord) :
    s.reachLeaf entry = .next (s.answered ⟨.state, 0#24, 0#8, 0#16⟩) := by
  rw [State.reachLeaf, State.conclude_of_unfaulted hf, hm]
  rfl

theorem State.takeBranch_eq (v : Variant) (entry : TreeWord) :
    s.takeBranch v entry = .next { s with temps := { s.temps with node := some (nextNode v entry) } } :=
  State.conclude_of_unfaulted hf

theorem State.splitId_eq (v : Variant) (id : MessageId) :
    s.splitId v id = .next { s with temps :=
      { s.temps with count := some (decompose v id).1, group := some (decompose v id).2 } } :=
  State.conclude_of_unfaulted hf

end

theorem nextNode_varW_append (target : BitVec 15) :
    nextNode .varW (1#1 ++ target : BitVec 16) = (0#1 ++ target : BitVec 16) := by
  apply BitVec.eq_of_toNat_eq
  rw [toNat_nextNode_varW, toNat_append_eq, toNat_append_eq, BitVec.toNat_ofNat, BitVec.toNat_ofNat]
  omega

theorem nextNode_varV_append (ignored : BitVec 2) (number : BitVec 13) :
    nextNode .varV (0#1 ++ (ignored ++ number) : BitVec 16) = (0#2 ++ (number ++ 0#1) : BitVec 16) := by
  apply BitVec.eq_of_toNat_eq
  rw [toNat_nextNode_varV]
  simp only [toNat_append_eq, BitVec.toNat_ofNat]
  omega

/-- Settles O58: the checks of the four rows, and the two things a tree entry does. -/
theorem treeEntryRowsMoveTheWalk : Obligations.TreeEntryRowsMoveTheWalk := by
  refine ⟨?_, fun s code hf hm => ⟨State.reachLeaf_of_no_mask hf hm _, State.reachLeaf_of_no_mask hf hm _⟩,
    fun s hf => ⟨fun code mask hm => ⟨State.reachLeaf_of_mask hf hm _, State.reachLeaf_of_mask hf hm _⟩,
      fun target => ?_, fun ignored number => ?_⟩⟩
  · rintro s i hf (⟨code, rfl⟩ | ⟨target, rfl⟩ | ⟨code, rfl⟩ | ⟨ignored, number, rfl⟩)
    all_goals exact State.conclude_of_faulted hf
  · exact nextNode_varW_append target ▸ State.takeBranch_eq hf .varW (1#1 ++ target)
  · exact nextNode_varV_append ignored number ▸ State.takeBranch_eq hf .varV (0#1 ++ (ignored ++ number))

theorem decompose_varW_append (group : BitVec 13) (count : BitVec 3) :
    decompose .varW (group ++ count : BitVec 16) = (count.setWidth 4, BitVec.ofNat 15 (group.toNat * 3)) := by
  have hcount := count.isLt
  have hid : (group ++ count : BitVec 16).toNat = group.toNat * 2 ^ 3 + count.toNat := toNat_append_eq group count
  have hlow : (group.toNat * 2 ^ 3 + count.toNat) % 8 = count.toNat := by omega
  have hhigh : (group.toNat * 2 ^ 3 + count.toNat) / 8 = group.toNat := by omega
  rw [decompose, hid, hlow, hhigh, BitVec.ofNat_toNat]

theorem decompose_varV_append (group : BitVec 12) (count : BitVec 4) :
    decompose .varV (group ++ count : BitVec 16) = (count, BitVec.ofNat 15 (group.toNat * 3)) := by
  have hcount := count.isLt
  have hid : (group ++ count : BitVec 16).toNat = group.toNat * 2 ^ 4 + count.toNat := toNat_append_eq group count
  have hlow : (group.toNat * 2 ^ 4 + count.toNat) % 16 = count.toNat := by omega
  have hhigh : (group.toNat * 2 ^ 4 + count.toNat) / 16 = group.toNat := by omega
  rw [decompose, hid, hlow, hhigh, BitVec.ofNat_toNat, BitVec.setWidth_eq]

theorem State.needTables_of_none {s : State} (ht : s.tables = none) : s.needTables = .error (.call .state) := by
  rw [State.needTables, ht]

/-- `GROUPREC` without the tables or `ADDR_MESSAGE` (R22). -/
theorem execGrouprec_of_unwritten {s : State} (hf : s.fault = none) (h : s.tables = none ∨ s.cfg.addrMessage = none)
    (off : BitVec 21) (idx : BitVec 3) : execGrouprec off idx s = .next (s.answered ⟨.state, 0#24, 0#8, 0#16⟩) := by
  rw [execGrouprec, State.conclude_of_unfaulted hf]
  cases ht : s.tables with
  | none =>
    rw [State.needTables_of_none ht]
    rfl
  | some tb =>
    have hbase : s.cfg.addrMessage = none := h.resolve_left (by simp [ht])
    rw [State.needTables_ok.mpr ht, ok_bind, hbase]
    rfl

/-- `GROUPREC` past its checks: what the start of the group gives. -/
theorem execGrouprec_of_written {s : State} (hf : s.fault = none) {tb : Tables} (ht : s.tables = some tb)
    {base : CpuAddr} (hbase : s.cfg.addrMessage = some base) (off : BitVec 21) (idx : BitVec 3) :
    execGrouprec off idx s = s.conclude (do
      let start ← startCursor tb base off idx
      return s.withTemps { s.temps with record := some (off ++ idx), start := some start }) := by
  rw [execGrouprec, State.conclude_of_unfaulted hf, State.needTables_ok.mpr ht, ok_bind, hbase]

theorem execHeaderMakeup_of_unlocked {s : State} (hf : s.fault = none) (ht : s.tables = none) (ignored : BitVec 7)
    (hirom : BitVec 1) :
    execHeaderMakeup ignored hirom s = .next { s with cfg := { s.cfg with mapper := some hirom } } := by
  have hbit : makeupMapper (ignored ++ hirom) = hirom := extract_low ignored hirom
  rw [execHeaderMakeup, State.conclude_of_unfaulted hf, State.needUnlocked_of_none ht, hbit]
  rfl

theorem execHeaderMakeup_of_locked {s : State} (hf : s.fault = none) (hl : s.tables.isSome = true) (ignored : BitVec 7)
    (hirom : BitVec 1) : execHeaderMakeup ignored hirom s = .next (s.answered ⟨.state, 0#24, 0#8, 0#16⟩) := by
  rw [execHeaderMakeup, State.conclude_of_unfaulted hf, State.needUnlocked_of_isSome hl]
  rfl

theorem execShiftbit_of_singleBit {s : State} (hf : s.fault = none) {mask : Byte} (h : singleBit mask = true) :
    execShiftbit mask s = .next { s with temps := { s.temps with shift := some mask } } := by
  rw [execShiftbit, State.conclude_of_unfaulted hf, checkShift_of_singleBit h]
  rfl

theorem execShiftbit_of_not_singleBit {s : State} (hf : s.fault = none) {mask : Byte} (h : ¬ singleBit mask = true) :
    execShiftbit mask s = .next (s.faultedWith .badShift (mask.setWidth 24)) := by
  rw [execShiftbit, State.conclude_of_unfaulted hf, checkShift_of_not_singleBit h]
  rfl

/-- Settles O59, row by row. -/
theorem dataRowsActOnTheTemporaries : Obligations.DataRowsActOnTheTemporaries := by
  refine ⟨?_, fun _ _ _ _ _ => rfl, fun s hf => ⟨fun off idx h => execGrouprec_of_unwritten hf h off idx, ?_,
    fun group count => ?_, fun group count => ?_, fun ignored hirom => ?_, fun wordB wordA => ?_, fun mask => ?_,
    fun mask h => ?_⟩⟩
  · rintro s i hf (⟨off, idx, rfl⟩ | ⟨group, count, rfl⟩ | ⟨group, count, rfl⟩ | ⟨ignored, hirom, rfl⟩ |
      ⟨wordB, wordA, rfl⟩ | ⟨mask, rfl⟩)
    all_goals exact State.conclude_of_faulted hf
  · intro tb base off idx ht hbase mask
    have hexec : exec (.grouprec off idx) s = _ := execGrouprec_of_written hf ht hbase off idx
    rw [hexec]
    refine ⟨fun hbad => ?_, fun hs hover => ?_, fun hs hle => ?_⟩
    · rw [startCursor_of_not_singleBit (ne_true_of_eq_false hbad)]
      rfl
    · rw [startCursor_of_overflow hs hover]
      rfl
    · rw [startCursor_of_le hs hle]
      rfl
  · have hexec := State.splitId_eq hf .varW (group ++ count)
    rw [decompose_varW_append] at hexec
    exact hexec
  · have hexec := State.splitId_eq hf .varV (group ++ count)
    rw [decompose_varV_append] at hexec
    exact hexec
  · exact ⟨fun ht => execHeaderMakeup_of_unlocked hf ht ignored hirom,
      fun hl => execHeaderMakeup_of_locked hf hl ignored hirom⟩
  · exact State.conclude_of_unfaulted hf
  · exact execShiftbit_of_singleBit hf
  · exact execShiftbit_of_not_singleBit hf (ne_true_of_eq_false h)

end Sys2Proof.Machine
end
